-- ==== Sys2Proof/Word.lean ====
section
/-! DEFINITION. The bit-vector types of the machine: registers and command words are 32 bits (00_scope R7, `XLEN`),
samples are bytes (R8), coefficients in memory are 16 bits (R8). -/

namespace Sys2Proof

/-- A register or a command word (`XLEN = 32`, R7). -/
abbrev Word := BitVec 32

/-- A sample, and the smallest unit of memory (R8, R50). -/
abbrev Byte := BitVec 8

/-- The bit pattern of a coefficient in memory (R51). -/
abbrev Half := BitVec 16

end Sys2Proof
end

