-- ==== Sys2Proof/Config.lean ====
section
/-! DEFINITION. What the platform or the spec fixes once, and the model's one free value. The named constants a test could
show wrong (TAPS, NARROW16) stand in `Machine/Params.lean`. -/

namespace Sys2Proof

/-- `2^AW`, one past the highest memory address (R7, R50). -/
def Config.addrLimit : Nat := 4294967296

/-- `HMAX`, the largest block height (R7). -/
def Config.hMax : Nat := 32

/-- `SCRATCH_BYTES`, the capacity of the scratch buffer (R7, R35). -/
def Config.scratchBytes : Nat := 592

/-- What a byte of memory that nothing has written reads as (DESIGN CHOICE, unsafe: log 2; R260 and U17 leave it open,
the vectors of 95_test_vectors start from zero). -/
def Config.unlistedByte : Byte := 0

/-- The unspecified bytes of R262 (a command aborted by reset) and R266 (a broken footprint duty), one per draw. It has no
body: nothing in Lean can know a value of it (log 4, safe). -/
opaque Config.freeByte : Nat → Byte

end Sys2Proof
end

