-- ==== Sys2Proof/Machine/State.lean ====
section
/-! DEFINITION. The state of the machine as plain data (10_state R20 to R40), the host's actions (30_encoding R98), the
outcomes' reasons, and the state after reset (R39). -/

namespace Sys2Proof.Machine

/-- Memory (20_memory R50): the bytes that differ from `Config.unlistedByte`, by strictly rising address. -/
abbrev Memory := List Host.Cell

/-- The seven fault causes (60_exceptions R231). -/
inductive FaultCause where
  | illegalCmd
  | badSelector
  | misaligned
  | badStride
  | overlap
  | addrRange
  | bus
deriving DecidableEq, Repr

/-- The in-flight record `cur` (10_state R20 (c), R27): the accepted word and the four latched operands. -/
structure InFlight where
  word : Word
  x0 : Word
  x1 : Word
  x2 : Word
  x3 : Word
deriving DecidableEq, Repr

/-- The fields of `STATUS` (R28); the reserved bits read zero. `cause = none` is code 0. -/
structure Status where
  busy : Bool
  done : Bool
  err : Bool
  ovr : Bool
  cause : Option FaultCause
deriving DecidableEq, Repr

/-- The fields of `CTRL` that hold a value (R30); `SRST` is write-only and the reserved bits read zero. -/
structure Ctrl where
  ieDone : Bool
  ieErr : Bool
deriving DecidableEq, Repr

/-- One region of memory the platform maps (R7, R59): the addresses `base .. base + size - 1`. -/
structure Region where
  base : Nat
  size : Nat
deriving DecidableEq, Repr

/-- The two parameters R7 leaves open as the platform's: where memory is (R59), and `MMIO_BASE`, where the register block stands
(R32, R65). `MEM_VALID` is the first without the bytes of the second (`memValid`). -/
structure MemMap where
  regions : List Region
  mmioBase : Nat
deriving DecidableEq, Repr

/-- The eight registers of the register block (R32). -/
inductive HostReg where
  | cmd
  | status
  | ctrl
  | errinfo
  | x0
  | x1
  | x2
  | x3
deriving DecidableEq, Repr

/-- What the host can do in one of its steps (R41, 30_encoding R98, 20_memory R63). -/
inductive HostAction where
  /-- Write a register (H1; `CMD <command>` is `wr .cmd word`). -/
  | wr (r : HostReg) (v : Word)
  /-- Read a register (H2). -/
  | rd (r : HostReg)
  /-- A raw access to the register block, `size` bytes at `offset`: a write of the value given, else a read (R32, U9). -/
  | mmio (offset size : Nat) (write : Option Word)
  /-- Read STATUS until BUSY = 0. -/
  | wait
  /-- Wait until the interrupt line is high (60_exceptions R243, 70_reset_and_hazards R263 step 6; log 13). -/
  | waitIrq
  | st8 (addr : Word) (v : Byte)
  | st16 (addr : Word) (v : Half)
  | ld8 (addr : Word)
  | ld16 (addr : Word)
deriving DecidableEq, Repr

/-- Who moves in a step of the interleaving (R41): the engine, the host, or the platform's reset input (R260). -/
inductive Turn where
  | engine
  | host
  | hardReset
deriving DecidableEq, Repr

/-- The machine. The first group is what the spec gives it, the second the open parameters `MEM_VALID` and `MMIO_BASE`
carried as data, the third the model's own fields. -/
structure State where
  /-- `X0` = DST (R21). -/
  x0 : Word
  /-- `X1` = DSTRIDE (R21). -/
  x1 : Word
  /-- `X2` = AUX (R21). -/
  x2 : Word
  /-- `X3` = SSTRIDE (R21). -/
  x3 : Word
  /-- `CMD`: the last accepted command word (R25). -/
  cmd : Word
  /-- `STATUS` (R28). -/
  status : Status
  /-- `CTRL` (R30). -/
  ctrl : Ctrl
  /-- `ERRINFO`: the word of the command that faulted (R31). -/
  errinfo : Word
  /-- `cur`: the command in flight (R27); `none` is "invalid". -/
  cur : Option InFlight
  /-- The memory shared by host and engine (R50). -/
  mem : Memory
  /-- The host's remaining actions (R24, R98). -/
  host : List HostAction
  /-- `MEM_VALID` and `MMIO_BASE` (R7, R32, R59, R65); no step changes them (R42; logs 1, 17). -/
  memMap : MemMap
  /-- Who moves next (R41; log 3). With none listed: the engine if BUSY, else the host. -/
  turns : List Turn
  /-- What the host's reads returned, newest first (log 11). -/
  hostReads : List Word
  /-- Completed commands whose completion the host has not yet read in STATUS (R266; log 6). -/
  duties : List InFlight
  /-- The host has written a footprint byte of the command in flight (R266; log 6). -/
  breached : Bool
  /-- How many free values have been drawn (log 4). -/
  freeIx : Nat
deriving DecidableEq, Repr

/-- Why the machine stops. -/
inductive Fault where
  /-- Raised by the engine's step, and by a meaning, where no command is in flight (`cur` invalid). Safe: R44 enables that
  step only with BUSY = 1, and BUSY = 1 means `cur` is valid (R20 (c)), so no run reaches it (log 8). -/
  | noCommandInFlight
deriving DecidableEq, Repr

/-- What the model gives no meaning to. -/
inductive Refusal where
  /-- Raised by an arm of exec for an instruction without a meaning yet; there is none left. Safe. -/
  | notModelled (mnemonic : String)
  /-- Raised by the host's raw access to the register block that is not one aligned 32-bit access at one of the eight offsets:
  "not given a meaning by this spec and a model refuses it" (R32, U9). Safe (log 12). -/
  | badRegisterAccess (offset size : Nat)
  /-- Raised by the host's 2-byte access at an odd address: R63 gives the host 2-byte accesses at even addresses only.
  Safe (log 12). -/
  | hostMisaligned (addr : Word)
  /-- Raised by the host's memory access of 1 or 2 bytes at an address of the register block: an access of another size than 32
  bits, which "a model refuses" (R32, U9). Safe (log 12). -/
  | registerBlockAccess (addr : Word) (size : Nat)
deriving DecidableEq, Repr

/-- `STATUS` after reset (R39). -/
def Status.reset : Status :=
  { busy := false, done := false, err := false, ovr := false, cause := none }

/-- `CTRL` after reset (R39). -/
def Ctrl.reset : Ctrl :=
  { ieDone := false, ieErr := false }

/-- The machine right after reset (R39). `memMap` has the memory of 95_test_vectors (log 1) and a base the model chose
(log 17); the model's own fields are empty (logs 3, 4, 6, 11, 14). -/
def State.reset : State where
  x0 := 0
  x1 := 0
  x2 := 0
  x3 := 0
  cmd := 0
  status := Status.reset
  ctrl := Ctrl.reset
  errinfo := 0
  cur := none
  mem := []
  host := []
  memMap := { regions := [{ base := 0, size := 65536 }], mmioBase := 0xFFFF0000 }
  turns := []
  hostReads := []
  duties := []
  breached := false
  freeIx := 0

end Sys2Proof.Machine
end

