-- ==== Sys2Proof/Machine/Flags.lean ====
section
/-! DEFINITION. The flags of the machine: the STATUS and CTRL words as the host reads and writes them (10_state R28 to R30),
the cause codes (60_exceptions R231) and the interrupt line (R38, R237). No command sets any other flag (R37). -/

namespace Sys2Proof.Machine

/-- The cause code in `STATUS.CAUSE` (R231); 0 means no fault. -/
def FaultCause.code : FaultCause → BitVec 4
  | .illegalCmd => 1
  | .badSelector => 2
  | .misaligned => 3
  | .badStride => 4
  | .overlap => 5
  | .addrRange => 6
  | .bus => 7

/-- `STATUS.CAUSE`: the code, 0 where there is none (R28). -/
def causeField : Option FaultCause → BitVec 4
  | none => 0
  | some c => c.code

/-- `STATUS` as read: BUSY, DONE, ERR, OVR in bits 0 to 3, CAUSE in bits 11:8, the rest zero (R28). -/
def Status.toWord (s : Status) : Word :=
  (0 : BitVec 20) ++ causeField s.cause ++ (0 : BitVec 4) ++
    BitVec.ofBool s.ovr ++ BitVec.ofBool s.err ++ BitVec.ofBool s.done ++ BitVec.ofBool s.busy

/-- A host write of `v` to `STATUS`: bit 1 clears DONE, bit 3 clears OVR, the other bits are ignored (R29). -/
def Status.written (s : Status) (v : Word) : Status :=
  { s with done := s.done && !v.getLsbD 1, ovr := s.ovr && !v.getLsbD 3 }

/-- `CTRL` as read: IE_DONE, IE_ERR in bits 0 and 1, the rest (SRST too) zero (R30). -/
def Ctrl.toWord (c : Ctrl) : Word :=
  (0 : BitVec 30) ++ BitVec.ofBool c.ieErr ++ BitVec.ofBool c.ieDone

/-- `CTRL` after a host write of `v` with SRST = 0 (R30). -/
def Ctrl.ofWord (v : Word) : Ctrl :=
  { ieDone := v.getLsbD 0, ieErr := v.getLsbD 1 }

/-- Whether a write of `v` to `CTRL` asks for a soft reset (R30, R261). -/
def softResetBit (v : Word) : Bool := v.getLsbD 31

/-- `IRQ = (DONE and IE_DONE) or (ERR and IE_ERR)` (R38, R237). -/
def irq (s : State) : Bool := (s.status.done && s.ctrl.ieDone) || (s.status.err && s.ctrl.ieErr)

end Sys2Proof.Machine
end

