-- ==== Sys2Proof/Syntax.lean ====
section
/-! DEFINITION. The 27 commands of RPK-CS 1.0 as data, one constructor per row of spec/opcode_table.json, with the fields
of 30_encoding R81 to R84 as operands. -/

namespace Sys2Proof

/-- The block width selected by `WSEL` (R84): 4, 8 or 16 samples. -/
inductive Width where
  | w4
  | w8
  | w16
deriving DecidableEq, Repr

/-- The width in samples (R84). -/
def Width.cols : Width → Nat
  | .w4 => 4
  | .w8 => 8
  | .w16 => 16

/-- The span selected by `NSEL` (R84): 8 or 16 positions along the edge. -/
inductive EdgeSpan where
  | n8
  | n16
deriving DecidableEq, Repr

/-- The span `N` (R84). -/
def EdgeSpan.positions : EdgeSpan → Nat
  | .n8 => 8
  | .n16 => 16

/-- A command with its decoded operands (R84, R86). `h` is the height field, `mx` and `my` the fractional offsets, `val` the
fill byte, `n` the span, `pair` the two-plane flag, `e`, `i`, `hev` the thresholds. -/
inductive Instr where
  | fill (w : Width) (h : BitVec 6) (val : Byte)
  | clr1
  | clr24
  | copy (w : Width) (h : BitVec 6)
  | epelV4 (w : Width) (h : BitVec 6) (my : BitVec 3)
  | epelV6 (w : Width) (h : BitVec 6) (my : BitVec 3)
  | epelH4 (w : Width) (h : BitVec 6) (mx : BitVec 3)
  | epelH4V4 (w : Width) (h : BitVec 6) (mx my : BitVec 3)
  | epelH4V6 (w : Width) (h : BitVec 6) (mx my : BitVec 3)
  | epelH6 (w : Width) (h : BitVec 6) (mx : BitVec 3)
  | epelH6V4 (w : Width) (h : BitVec 6) (mx my : BitVec 3)
  | epelH6V6 (w : Width) (h : BitVec 6) (mx my : BitVec 3)
  | bilinV (w : Width) (h : BitVec 6) (my : BitVec 3)
  | bilinH (w : Width) (h : BitVec 6) (mx : BitVec 3)
  | bilinHV (w : Width) (h : BitVec 6) (mx my : BitVec 3)
  | idctAdd
  | idctDcAdd
  | idctDcAdd4y
  | idctDcAdd4uv
  | wht
  | whtDc
  | lfsV (n : EdgeSpan) (e : Byte)
  | lfsH (n : EdgeSpan) (e : Byte)
  | lfiV (n : EdgeSpan) (pair : Bool) (e i hev : Byte)
  | lfiH (n : EdgeSpan) (pair : Bool) (e i hev : Byte)
  | lfmV (n : EdgeSpan) (pair : Bool) (e i hev : Byte)
  | lfmH (n : EdgeSpan) (pair : Bool) (e i hev : Byte)
deriving DecidableEq, Repr

end Sys2Proof
end

