-- ==== Sys2Proof/WellFormed.lean ====
section
/-! DEFINITION. Which instruction terms are legal commands: the field constraints of 30_encoding R87, R88, R92 that the
operand types do not already express. Offset 0 on a 4-tap or 6-tap axis is well formed: it decodes and then faults (R90). -/

namespace Sys2Proof

/-- `1 <= H <= HMAX` (R84, R87). -/
def heightLegal (h : BitVec 6) : Bool :=
  decide (1 ≤ h.toNat) && decide (h.toNat ≤ Config.hMax)

/-- `PAIR = 1` requires span 8 (R92). -/
def pairLegal (n : EdgeSpan) (pair : Bool) : Bool :=
  !(pair && decide (n = .n16))

/-- The legal instances of each command (R87 to R92). -/
def Instr.wellFormed : Instr → Bool
  | .fill w h _ => decide (w ≠ .w4) && heightLegal h
  | .clr1 => true
  | .clr24 => true
  | .copy _ h => heightLegal h
  | .epelV4 _ h _ => heightLegal h
  | .epelV6 _ h _ => heightLegal h
  | .epelH4 _ h _ => heightLegal h
  | .epelH4V4 _ h _ _ => heightLegal h
  | .epelH4V6 _ h _ _ => heightLegal h
  | .epelH6 _ h _ => heightLegal h
  | .epelH6V4 _ h _ _ => heightLegal h
  | .epelH6V6 _ h _ _ => heightLegal h
  | .bilinV _ h _ => heightLegal h
  | .bilinH _ h _ => heightLegal h
  | .bilinHV _ h _ _ => heightLegal h
  | .idctAdd => true
  | .idctDcAdd => true
  | .idctDcAdd4y => true
  | .idctDcAdd4uv => true
  | .wht => true
  | .whtDc => true
  | .lfsV _ _ => true
  | .lfsH _ _ => true
  | .lfiV n pair _ _ _ => pairLegal n pair
  | .lfiH n pair _ _ _ => pairLegal n pair
  | .lfmV n pair _ _ _ => pairLegal n pair
  | .lfmH n pair _ _ _ => pairLegal n pair

end Sys2Proof
end

