-- ==== Sys2Proof/Decode.lean ====
section
/-! DEFINITION. The decoder of 30_encoding R85 (total on all 2^32 words, rejecting by name), the encoder written from the
formats R81 to R83, and the opcode table's masks and patterns (R101). -/

namespace Sys2Proof

/-- Why a word is no command. Every one of them is the fault ILLEGAL_CMD (R93). -/
inductive DecodeReject where
  /-- The opcode is none of the 27 (R86, R93). -/
  | reservedOpcode
  /-- `WSEL = 3` (R87), or `WSEL = 0` with FILL (R88). -/
  | illegalWidth
  /-- `H = 0` or `H > 32` (R87). -/
  | illegalHeight
  /-- A must-be-zero field is not zero (R87 to R92). -/
  | nonzeroReserved
  /-- `PAIR = 1` with `NSEL = 1` (R92). -/
  | pairWithSpan16
deriving DecidableEq, Repr

/-! ### Fields (R81 to R84) -/

def opcOf (w : Word) : BitVec 6 := w.extractLsb' 26 6
def wselOf (w : Word) : BitVec 2 := w.extractLsb' 24 2
def heightOf (w : Word) : BitVec 6 := w.extractLsb' 18 6
def mxOf (w : Word) : BitVec 3 := w.extractLsb' 15 3
def myOf (w : Word) : BitVec 3 := w.extractLsb' 12 3
def z4Of (w : Word) : BitVec 4 := w.extractLsb' 8 4
def valOf (w : Word) : BitVec 8 := w.extractLsb' 0 8
def z26Of (w : Word) : BitVec 26 := w.extractLsb' 0 26
def nselOf (w : Word) : BitVec 1 := w.extractLsb' 25 1
def pairOf (w : Word) : BitVec 1 := w.extractLsb' 24 1
def eOf (w : Word) : BitVec 8 := w.extractLsb' 16 8
def iOf (w : Word) : BitVec 8 := w.extractLsb' 8 8
def hevOf (w : Word) : BitVec 8 := w.extractLsb' 0 8

/-- `WSEL` to width; `WSEL = 3` is reserved (R84). -/
def widthOf (sel : BitVec 2) : Option Width :=
  match sel.toNat with
  | 0 => some .w4
  | 1 => some .w8
  | 2 => some .w16
  | _ => none

/-- `NSEL` to span (R84). -/
def spanOf (sel : BitVec 1) : EdgeSpan :=
  if sel = 0 then .n8 else .n16

/-! ### Decoding -/

/-- Format P (R81, R87): the checks common to its commands, then the command's own (`zero`: the fields it needs to be zero;
`widths`: the widths it admits). -/
def decodeP (w : Word) (widths : Width → Bool) (zero : Bool) (k : Width → Instr) : Except DecodeReject Instr :=
  match widthOf (wselOf w) with
  | none => .error .illegalWidth
  | some wd =>
    if !widths wd then .error .illegalWidth
    else if !heightLegal (heightOf w) then .error .illegalHeight
    else if z4Of w = 0 && zero then .ok (k wd)
    else .error .nonzeroReserved

/-- Format T (R82, R91). -/
def decodeT (w : Word) (i : Instr) : Except DecodeReject Instr :=
  if z26Of w = 0 then .ok i else .error .nonzeroReserved

/-- Format L of the simple filters (R83, R92): `PAIR`, `I` and `HEV` are zero. -/
def decodeSimple (w : Word) (k : EdgeSpan → Byte → Instr) : Except DecodeReject Instr :=
  if pairOf w = 0 && iOf w = 0 && hevOf w = 0 then .ok (k (spanOf (nselOf w)) (eOf w)) else .error .nonzeroReserved

/-- Format L of the normal filters (R83, R92). -/
def decodeNormal (w : Word) (k : EdgeSpan → Bool → Byte → Byte → Byte → Instr) : Except DecodeReject Instr :=
  if pairLegal (spanOf (nselOf w)) (decide (pairOf w = 1)) then
    .ok (k (spanOf (nselOf w)) (decide (pairOf w = 1)) (eOf w) (iOf w) (hevOf w))
  else .error .pairWithSpan16

/-- Every width: the format-P commands but FILL (R89). -/
def anyWidth (_ : Width) : Bool := true

/-- The widths of FILL: 8 and 16 (R88). -/
def fillWidth (w : Width) : Bool := decide (w ≠ .w4)

/-- `Decode(word)` (R85, R86). -/
def decode (w : Word) : Except DecodeReject Instr :=
  match (opcOf w).toNat with
  | 0x01 => decodeP w fillWidth (mxOf w = 0 && myOf w = 0) fun wd => .fill wd (heightOf w) (valOf w)
  | 0x02 => decodeT w .clr1
  | 0x03 => decodeT w .clr24
  | 0x10 => decodeP w anyWidth (mxOf w = 0 && myOf w = 0 && valOf w = 0) fun wd => .copy wd (heightOf w)
  | 0x11 => decodeP w anyWidth (mxOf w = 0 && valOf w = 0) fun wd => .epelV4 wd (heightOf w) (myOf w)
  | 0x12 => decodeP w anyWidth (mxOf w = 0 && valOf w = 0) fun wd => .epelV6 wd (heightOf w) (myOf w)
  | 0x14 => decodeP w anyWidth (myOf w = 0 && valOf w = 0) fun wd => .epelH4 wd (heightOf w) (mxOf w)
  | 0x15 => decodeP w anyWidth (valOf w = 0) fun wd => .epelH4V4 wd (heightOf w) (mxOf w) (myOf w)
  | 0x16 => decodeP w anyWidth (valOf w = 0) fun wd => .epelH4V6 wd (heightOf w) (mxOf w) (myOf w)
  | 0x18 => decodeP w anyWidth (myOf w = 0 && valOf w = 0) fun wd => .epelH6 wd (heightOf w) (mxOf w)
  | 0x19 => decodeP w anyWidth (valOf w = 0) fun wd => .epelH6V4 wd (heightOf w) (mxOf w) (myOf w)
  | 0x1A => decodeP w anyWidth (valOf w = 0) fun wd => .epelH6V6 wd (heightOf w) (mxOf w) (myOf w)
  | 0x21 => decodeP w anyWidth (mxOf w = 0 && valOf w = 0) fun wd => .bilinV wd (heightOf w) (myOf w)
  | 0x22 => decodeP w anyWidth (myOf w = 0 && valOf w = 0) fun wd => .bilinH wd (heightOf w) (mxOf w)
  | 0x23 => decodeP w anyWidth (valOf w = 0) fun wd => .bilinHV wd (heightOf w) (mxOf w) (myOf w)
  | 0x30 => decodeT w .idctAdd
  | 0x31 => decodeT w .idctDcAdd
  | 0x32 => decodeT w .idctDcAdd4y
  | 0x33 => decodeT w .idctDcAdd4uv
  | 0x34 => decodeT w .wht
  | 0x35 => decodeT w .whtDc
  | 0x38 => decodeSimple w .lfsV
  | 0x39 => decodeSimple w .lfsH
  | 0x3A => decodeNormal w .lfiV
  | 0x3B => decodeNormal w .lfiH
  | 0x3C => decodeNormal w .lfmV
  | 0x3D => decodeNormal w .lfmH
  | _ => .error .reservedOpcode

/-- The instruction the decoder reads from a command word of `nbits` bits (bits above `nbits` are zero). A command is one
register write of 32 bits, so no byte order enters (R52, R80). -/
def decodeTableWord (nbits w : Nat) : Option Instr :=
  match decode (BitVec.ofNat 32 (w % 2 ^ nbits)) with
  | .ok i => some i
  | .error _ => none

/-! ### Encoding (R81 to R83) -/

/-- Width to `WSEL` (R84). -/
def Width.sel : Width → BitVec 2
  | .w4 => 0
  | .w8 => 1
  | .w16 => 2

/-- Span to `NSEL` (R84). -/
def EdgeSpan.sel : EdgeSpan → BitVec 1
  | .n8 => 0
  | .n16 => 1

/-- Format P: `OPC WSEL H MX MY Z4 VAL` (R81). -/
def encodeP (opc : BitVec 6) (w : Width) (h : BitVec 6) (mx my : BitVec 3) (val : Byte) : Word :=
  opc ++ w.sel ++ h ++ mx ++ my ++ (0 : BitVec 4) ++ val

/-- Format T: `OPC Z26` (R82). -/
def encodeT (opc : BitVec 6) : Word :=
  opc ++ (0 : BitVec 26)

/-- Format L: `OPC NSEL PAIR E I HEV` (R83). -/
def encodeL (opc : BitVec 6) (n : EdgeSpan) (pair : Bool) (e i hev : Byte) : Word :=
  opc ++ n.sel ++ BitVec.ofBool pair ++ e ++ i ++ hev

/-- The command word of an instruction (R81 to R86, R97: zero in every reserved field). -/
def encode : Instr → Word
  | .fill w h val => encodeP 0x01 w h 0 0 val
  | .clr1 => encodeT 0x02
  | .clr24 => encodeT 0x03
  | .copy w h => encodeP 0x10 w h 0 0 0
  | .epelV4 w h my => encodeP 0x11 w h 0 my 0
  | .epelV6 w h my => encodeP 0x12 w h 0 my 0
  | .epelH4 w h mx => encodeP 0x14 w h mx 0 0
  | .epelH4V4 w h mx my => encodeP 0x15 w h mx my 0
  | .epelH4V6 w h mx my => encodeP 0x16 w h mx my 0
  | .epelH6 w h mx => encodeP 0x18 w h mx 0 0
  | .epelH6V4 w h mx my => encodeP 0x19 w h mx my 0
  | .epelH6V6 w h mx my => encodeP 0x1A w h mx my 0
  | .bilinV w h my => encodeP 0x21 w h 0 my 0
  | .bilinH w h mx => encodeP 0x22 w h mx 0 0
  | .bilinHV w h mx my => encodeP 0x23 w h mx my 0
  | .idctAdd => encodeT 0x30
  | .idctDcAdd => encodeT 0x31
  | .idctDcAdd4y => encodeT 0x32
  | .idctDcAdd4uv => encodeT 0x33
  | .wht => encodeT 0x34
  | .whtDc => encodeT 0x35
  | .lfsV n e => encodeL 0x38 n false e 0 0
  | .lfsH n e => encodeL 0x39 n false e 0 0
  | .lfiV n pair e i hev => encodeL 0x3A n pair e i hev
  | .lfiH n pair e i hev => encodeL 0x3B n pair e i hev
  | .lfmV n pair e i hev => encodeL 0x3C n pair e i hev
  | .lfmH n pair e i hev => encodeL 0x3D n pair e i hev

/-- The mnemonic of a command (R86). -/
def Instr.mnemonic : Instr → String
  | .fill _ _ _ => "FILL"
  | .clr1 => "CLR1"
  | .clr24 => "CLR24"
  | .copy _ _ => "COPY"
  | .epelV4 _ _ _ => "EPEL_V4"
  | .epelV6 _ _ _ => "EPEL_V6"
  | .epelH4 _ _ _ => "EPEL_H4"
  | .epelH4V4 _ _ _ _ => "EPEL_H4V4"
  | .epelH4V6 _ _ _ _ => "EPEL_H4V6"
  | .epelH6 _ _ _ => "EPEL_H6"
  | .epelH6V4 _ _ _ _ => "EPEL_H6V4"
  | .epelH6V6 _ _ _ _ => "EPEL_H6V6"
  | .bilinV _ _ _ => "BILIN_V"
  | .bilinH _ _ _ => "BILIN_H"
  | .bilinHV _ _ _ _ => "BILIN_HV"
  | .idctAdd => "IDCT_ADD"
  | .idctDcAdd => "IDCT_DC_ADD"
  | .idctDcAdd4y => "IDCT_DC_ADD4Y"
  | .idctDcAdd4uv => "IDCT_DC_ADD4UV"
  | .wht => "WHT"
  | .whtDc => "WHT_DC"
  | .lfsV _ _ => "LFS_V"
  | .lfsH _ _ => "LFS_H"
  | .lfiV _ _ _ _ _ => "LFI_V"
  | .lfiH _ _ _ _ _ => "LFI_H"
  | .lfmV _ _ _ _ _ => "LFM_V"
  | .lfmH _ _ _ _ _ => "LFM_H"

/-! ### The opcode table (R101) -/

/-- The constraints a mask cannot express (R101, column `constraints`). -/
inductive TableConstraint where
  | none
  /-- `WSEL in {1,2}` and `1 <= H <= 32` (FILL). -/
  | fillBlock
  /-- `WSEL != 3` and `1 <= H <= 32`. -/
  | block
  /-- `not (PAIR = 1 and NSEL = 1)`. -/
  | planes
deriving DecidableEq, Repr

/-- One row of spec/opcode_table.json: mask, pattern, constraints. -/
structure TableRow where
  mnemonic : String
  mask : Word
  pattern : Word
  constraint : TableConstraint
deriving DecidableEq, Repr

/-- Whether a word meets a row's constraints, read from the bit ranges the table gives. -/
def TableConstraint.holds (w : Word) : TableConstraint → Bool
  | .none => true
  | .fillBlock => decide (w.toNat / 2 ^ 24 % 4 = 1 ∨ w.toNat / 2 ^ 24 % 4 = 2) &&
      decide (1 ≤ w.toNat / 2 ^ 18 % 64 ∧ w.toNat / 2 ^ 18 % 64 ≤ 32)
  | .block => decide (w.toNat / 2 ^ 24 % 4 ≠ 3) &&
      decide (1 ≤ w.toNat / 2 ^ 18 % 64 ∧ w.toNat / 2 ^ 18 % 64 ≤ 32)
  | .planes => !(decide (w.toNat / 2 ^ 24 % 2 = 1) && decide (w.toNat / 2 ^ 25 % 2 = 1))

/-- "A word belongs to a row when `(word & mask) = match`; it is legal when it belongs to a row and every field constraint
of the row holds" (R101). -/
def TableRow.legal (r : TableRow) (w : Word) : Bool :=
  decide (w &&& r.mask = r.pattern) && r.constraint.holds w

/-- The 27 rows of spec/opcode_table.json. -/
def opcodeTable : List TableRow := [
  ⟨"FILL", 0xFC03FF00, 0x04000000, .fillBlock⟩,
  ⟨"CLR1", 0xFFFFFFFF, 0x08000000, .none⟩,
  ⟨"CLR24", 0xFFFFFFFF, 0x0C000000, .none⟩,
  ⟨"COPY", 0xFC03FFFF, 0x40000000, .block⟩,
  ⟨"EPEL_V4", 0xFC038FFF, 0x44000000, .block⟩,
  ⟨"EPEL_V6", 0xFC038FFF, 0x48000000, .block⟩,
  ⟨"EPEL_H4", 0xFC007FFF, 0x50000000, .block⟩,
  ⟨"EPEL_H4V4", 0xFC000FFF, 0x54000000, .block⟩,
  ⟨"EPEL_H4V6", 0xFC000FFF, 0x58000000, .block⟩,
  ⟨"EPEL_H6", 0xFC007FFF, 0x60000000, .block⟩,
  ⟨"EPEL_H6V4", 0xFC000FFF, 0x64000000, .block⟩,
  ⟨"EPEL_H6V6", 0xFC000FFF, 0x68000000, .block⟩,
  ⟨"BILIN_V", 0xFC038FFF, 0x84000000, .block⟩,
  ⟨"BILIN_H", 0xFC007FFF, 0x88000000, .block⟩,
  ⟨"BILIN_HV", 0xFC000FFF, 0x8C000000, .block⟩,
  ⟨"IDCT_ADD", 0xFFFFFFFF, 0xC0000000, .none⟩,
  ⟨"IDCT_DC_ADD", 0xFFFFFFFF, 0xC4000000, .none⟩,
  ⟨"IDCT_DC_ADD4Y", 0xFFFFFFFF, 0xC8000000, .none⟩,
  ⟨"IDCT_DC_ADD4UV", 0xFFFFFFFF, 0xCC000000, .none⟩,
  ⟨"WHT", 0xFFFFFFFF, 0xD0000000, .none⟩,
  ⟨"WHT_DC", 0xFFFFFFFF, 0xD4000000, .none⟩,
  ⟨"LFS_V", 0xFD00FFFF, 0xE0000000, .none⟩,
  ⟨"LFS_H", 0xFD00FFFF, 0xE4000000, .none⟩,
  ⟨"LFI_V", 0xFC000000, 0xE8000000, .planes⟩,
  ⟨"LFI_H", 0xFC000000, 0xEC000000, .planes⟩,
  ⟨"LFM_V", 0xFC000000, 0xF0000000, .planes⟩,
  ⟨"LFM_H", 0xFC000000, 0xF4000000, .planes⟩]

end Sys2Proof
end

