-- ==== Sys2Proof/Machine/Params.lean ====
section
/-! DEFINITION. The named constants of the arithmetic: TAPS (10_state R33), COEF_ENDIAN (00_scope R7), the integer primitives (00_scope R11,
41_clip_arith R120, R121, R125, R128) and the two multipliers (44_transform R181). Rows 2, 3, 4 and 6 of TAPS and the place of
row 5 are the spec's own general knowledge (G1; log 7). -/

namespace Sys2Proof.Machine

/-- The order of the two bytes of a 16-bit coefficient in memory (R7). -/
inductive ByteOrder where
  | little
  | big
deriving DecidableEq, Repr

/-- `COEF_ENDIAN`, fixed to little and kept named (R7, R52; 92_eei_decisions D7). -/
def coefEndian : ByteOrder := .little

/-- How far from a coefficient's address its low-order byte stands (R52). -/
def ByteOrder.lowAt : ByteOrder → Int
  | .little => 0
  | .big => 1

/-- How far from a coefficient's address its high-order byte stands (R52). -/
def ByteOrder.highAt : ByteOrder → Int
  | .little => 1
  | .big => 0

/-- `asr(v, n) = floor(v / 2^n)` (R11, R125). -/
def asr (v : Int) (n : Nat) : Int := v / ((2 ^ n : Nat) : Int)

/-- `sext_N(v)` (R11). -/
def sext (n : Nat) (v : Int) : Int :=
  if v % ((2 ^ n : Nat) : Int) ≥ ((2 ^ (n - 1) : Nat) : Int) then v % ((2 ^ n : Nat) : Int) - ((2 ^ n : Nat) : Int)
  else v % ((2 ^ n : Nat) : Int)

/-- `wrap16` (R11). -/
def wrap16 (v : Int) : Int := sext 16 v

/-- `NARROW16`, fixed to `wrap16` (R7, R128). -/
def narrow16 (v : Int) : Int := wrap16 v

/-- `clip_uint8` (R120). -/
def clipU8 (v : Int) : Int := if v < 0 then 0 else if v > 255 then 255 else v

/-- `clip_int8` (R121). -/
def clipS8 (v : Int) : Int := if v < -128 then -128 else if v > 127 then 127 else v

/-- `abs(v)` (R11). -/
def absDiff (a b : Int) : Int := if a - b < 0 then b - a else a - b

/-- `MUL_35468` (R181). -/
def mul35468 (x : Int) : Int := asr (x * 35468) 16

/-- `MUL_20091` (R181). -/
def mul20091 (x : Int) : Int := asr (x * 20091) 16 + x

/-- A row of TAPS: six magnitudes (R33). -/
structure TapRow where
  f0 : Int
  f1 : Int
  f2 : Int
  f3 : Int
  f4 : Int
  f5 : Int
deriving DecidableEq, Repr

/-- `TAPS[s]` (R33). Selector 0 names no row: BAD_SELECTOR comes before any use (R90; log 9). -/
def tapRow (s : BitVec 3) : TapRow :=
  match s.toNat with
  | 1 => ⟨0, 6, 123, 12, 1, 0⟩
  | 2 => ⟨2, 11, 108, 36, 8, 1⟩
  | 3 => ⟨0, 9, 93, 50, 6, 0⟩
  | 4 => ⟨3, 16, 77, 77, 16, 3⟩
  | 5 => ⟨0, 6, 50, 93, 9, 0⟩
  | 6 => ⟨1, 8, 36, 108, 11, 2⟩
  | 7 => ⟨0, 1, 12, 123, 6, 0⟩
  | _ => ⟨0, 0, 0, 0, 0, 0⟩

end Sys2Proof.Machine
end

