-- ==== Sys2Proof/Machine/Memory.lean ====
section
/-! DEFINITION. Memory operations (00_scope R13, 20_memory R50 to R53): one byte, the 16-bit coefficient built from
two, and a list of stores made together. Addresses inside a command are unbounded integers (R13). -/

namespace Sys2Proof.Machine

/-- The byte at an address. -/
def Memory.read : Memory → Nat → Byte
  | [], _ => Config.unlistedByte
  | (b, v) :: m, a => if a = b then v else if a < b then Config.unlistedByte else Memory.read m a

/-- Put a byte in the list, keeping the canonical form: the unlisted value is not listed. -/
def Memory.insert : Memory → Nat → Byte → Memory
  | [], a, v => if v = Config.unlistedByte then [] else [(a, v)]
  | (b, w) :: m, a, v =>
    if a < b then (if v = Config.unlistedByte then (b, w) :: m else (a, v) :: (b, w) :: m)
    else if a = b then (if v = Config.unlistedByte then m else (a, v) :: m)
    else (b, w) :: Memory.insert m a v

/-- Store one byte. There is nothing to store to outside `0 .. 2^AW - 1`; R58 faults a command before it could. -/
def Memory.write (m : Memory) (a : Int) (v : Byte) : Memory :=
  match a with
  | .ofNat n => if n < Config.addrLimit then m.insert n v else m
  | .negSucc _ => m

/-- Addresses rise strictly from at least `lo`, lie in the space, and no entry holds the unlisted value. -/
def Memory.wfFrom : Nat → Memory → Bool
  | _, [] => true
  | lo, (a, v) :: m =>
    decide (lo ≤ a) && decide (a < Config.addrLimit) && decide (v ≠ Config.unlistedByte) && Memory.wfFrom (a + 1) m

/-- The canonical form of memory. -/
def Memory.wf (m : Memory) : Bool := Memory.wfFrom 0 m

/-- `Px(a)`: a sample, 0 to 255 (R13). -/
def px (m : Memory) (a : Int) : Int := ((m.read a.toNat).toNat : Int)

/-- One store of a command: an address and the byte that goes there. -/
abbrev Store := Int × Byte

/-- The byte `v mod 2^8` (R13). -/
def byteOf (v : Int) : Byte := BitVec.ofInt 8 v

/-- `CfW(a, v)` as its two byte stores, in the order `COEF_ENDIAN` gives (R7, R13, R52). -/
def coefStores (a v : Int) : List Store :=
  [(a + coefEndian.lowAt, byteOf v), (a + coefEndian.highAt, byteOf (v / 256))]

/-- Make the stores of a command, in order. -/
def Memory.storeAll (m : Memory) : List Store → Memory
  | [] => m
  | p :: l => Memory.storeAll (m.write p.1 p.2) l

/-- The stores of a pixel block of `h` rows and `w` columns at `base` with a row stride: sample `(y, x)` goes to
`base + y*stride + x` (R53). -/
def blockStores (base stride : Int) (w h : Nat) (f : Nat → Nat → Int) : List Store :=
  (List.range h).flatMap fun (y : Nat) => (List.range w).map fun (x : Nat) => (base + y * stride + x, byteOf (f y x))

/-- Put unspecified bytes at the addresses listed, drawing from the free values from index `ix` on (R262, R266). -/
def Memory.havoc (m : Memory) : List Int → Nat → Memory
  | [], _ => m
  | a :: l, ix => Memory.havoc (m.write a (Config.freeByte ix)) l (ix + 1)

end Sys2Proof.Machine
end

