-- ==== Sys2Proof/Machine/Operands.lean ====
section
/-! DEFINITION. Operand forms: the latched operands of a command (00_scope R12, 10_state R22), its footprints
(R15, 20_memory R56) as lists of contiguous spans, and its seven checks in their fixed order (60_exceptions R233). -/

namespace Sys2Proof.Machine

/-! ### Latched operands (R12) -/

def InFlight.dst (c : InFlight) : Int := c.x0.toNat
def InFlight.dstride (c : InFlight) : Int := c.x1.toInt
def InFlight.aux (c : InFlight) : Int := c.x2.toNat
def InFlight.sstride (c : InFlight) : Int := c.x3.toInt

/-- `Cf(a)` (R13, R52): the coefficient at `a`, an `s16`, its bytes in the order of `COEF_ENDIAN` (R7). -/
def cf (m : Memory) (a : Int) : Int := sext 16 (px m (a + coefEndian.lowAt) + 256 * px m (a + coefEndian.highAt))

/-! ### Footprints -/

/-- `len` consecutive addresses from `start`. -/
structure Span where
  start : Int
  len : Nat
deriving DecidableEq, Repr

/-- Whether the span holds an address. -/
def Span.has (s : Span) (a : Int) : Bool := decide (s.start ≤ a) && decide (a < s.start + s.len)

/-- The span's addresses. -/
def Span.bytes (s : Span) : List Int := (List.range s.len).map fun (k : Nat) => s.start + k

/-- No address in common. -/
def Span.disjoint (s t : Span) : Bool :=
  decide (s.len = 0) || decide (t.len = 0) ||
    decide (s.start + s.len ≤ t.start) || decide (t.start + t.len ≤ s.start)

/-- All addresses in `0 .. 2^AW - 1` (R58). -/
def Span.inSpace (s : Span) : Bool :=
  decide (s.len = 0) || (decide (0 ≤ s.start) && decide (s.start + s.len ≤ Config.addrLimit))

/-- Whether a part of a footprint holds an address. -/
def spansHave (l : List Span) (a : Int) : Bool := l.any fun s => s.has a

/-- The addresses of a part of a footprint. -/
def spansBytes (l : List Span) : List Int := l.flatMap Span.bytes

/-- Two parts of a footprint share no byte (R60). -/
def spansDisjoint (l k : List Span) : Bool := l.all fun s => k.all fun t => s.disjoint t

/-- `a` is one of the 32 bytes of the register block at `MMIO_BASE` (R32). -/
def MemMap.inRegisterBlock (map : MemMap) (a : Int) : Bool :=
  decide ((map.mmioBase : Int) ≤ a) && decide (a < (map.mmioBase : Int) + 32)

/-- `MEM_VALID` (R7, R59): the platform's memory, and never a byte of the register block (R32, R65). -/
def memValid (map : MemMap) (a : Int) : Bool :=
  (map.regions.any fun r => decide ((r.base : Int) ≤ a) && decide (a < (r.base : Int) + (r.size : Int))) &&
    !map.inRegisterBlock a

/-- `rows` rows of `width` bytes from row `y0`, column `x0` of the block at `base` (R53). -/
def rectSpans (base stride y0 : Int) (rows : Nat) (x0 : Int) (width : Nat) : List Span :=
  (List.range rows).map fun (r : Nat) => { start := base + (y0 + r) * stride + x0, len := width }

/-! ### What a command needs checked -/

/-- What the checks of R233 look at, for one command with its latched operands. -/
structure Plan where
  /-- The word is a legal instance (check 1). -/
  legal : Bool
  /-- The offsets that pick a row of TAPS (check 2). -/
  selectors : List (BitVec 3)
  /-- The coefficient pointers (check 3). -/
  coefs : List Word
  /-- The width of a written row, where the command writes a pixel block (check 4). -/
  rowWidth : Option Nat
  /-- Parts A and B of the footprint, which must not meet; empty where the check does not apply (check 5). -/
  partA : List Span
  partB : List Span
  /-- The read footprint (R15). -/
  rf : List Span
  /-- The write footprint (R15). -/
  wf : List Span
deriving DecidableEq, Repr

/-- `abs(S) >= RW` (R57). -/
def strideOk (stride : Int) : Option Nat → Bool
  | none => true
  | some w => decide ((w : Int) ≤ stride) || decide ((w : Int) ≤ -stride)

/-- The footprint is inside `MEM_VALID` (R59). -/
def mapped (map : MemMap) (l : List Span) : Bool := l.all fun s => s.bytes.all fun a => memValid map a

/-- The first failing check, in the fixed order of R233. -/
def Plan.firstFault (p : Plan) (stride : Int) (map : MemMap) : Option FaultCause :=
  if !p.legal then some .illegalCmd
  else if p.selectors.any (fun s => decide (s = 0)) then some .badSelector
  else if p.coefs.any (fun a => decide (a.toNat % 2 = 1)) then some .misaligned
  else if !strideOk stride p.rowWidth then some .badStride
  else if !spansDisjoint p.partA p.partB then some .overlap
  else if !(p.rf ++ p.wf).all Span.inSpace then some .addrRange
  else if !mapped map (p.rf ++ p.wf) then some .bus
  else none

/-! ### The forms -/

/-- How many taps a pass has on one axis (42_interp_epel R143, 43_interp_bilinear R175). -/
inductive TapCount where
  | none
  | two
  | four
  | six
deriving DecidableEq, Repr

/-- Samples needed before the output position (R143, R175). -/
def TapCount.lo : TapCount → Nat
  | .none => 0
  | .two => 0
  | .four => 1
  | .six => 2

/-- Samples needed after the output position (R143, R175). -/
def TapCount.hi : TapCount → Nat
  | .none => 0
  | .two => 1
  | .four => 2
  | .six => 3

/-- FILL (40_fill_clear R110). -/
def fillPlan (legal : Bool) (w h : Nat) (c : InFlight) : Plan :=
  { legal, selectors := [], coefs := [], rowWidth := some w, partA := [], partB := [],
    rf := [], wf := rectSpans c.dst c.dstride 0 h 0 w }

/-- CLR1 and CLR24, `n` bytes at AUX (R111, R112). -/
def clearPlan (n : Nat) (c : InFlight) : Plan :=
  { legal := true, selectors := [], coefs := [c.x2], rowWidth := none, partA := [], partB := [],
    rf := [], wf := [{ start := c.aux, len := n }] }

/-- The source rectangle of an interpolation command (R143, R175). -/
def sourceSpans (ht vt : TapCount) (w h : Nat) (c : InFlight) : List Span :=
  rectSpans c.aux c.sstride (-(vt.lo : Int)) (h + vt.lo + vt.hi) (-(ht.lo : Int)) (w + ht.lo + ht.hi)

/-- COPY, EPEL_*, BILIN_* (R143, R144, R175). -/
def interpPlan (legal : Bool) (selectors : List (BitVec 3)) (ht vt : TapCount) (w h : Nat) (c : InFlight) : Plan :=
  { legal, selectors, coefs := [], rowWidth := some w,
    partA := sourceSpans ht vt w h c, partB := rectSpans c.dst c.dstride 0 h 0 w,
    rf := sourceSpans ht vt w h c, wf := rectSpans c.dst c.dstride 0 h 0 w }

/-- The IDCT commands: coefficient spans and a `w × h` pixel block, both read and written (44_transform R183 to R188). -/
def idctPlan (coefs : List Span) (w h : Nat) (c : InFlight) : Plan :=
  { legal := true, selectors := [], coefs := [c.x2], rowWidth := some w,
    partA := coefs, partB := rectSpans c.dst c.dstride 0 h 0 w,
    rf := coefs ++ rectSpans c.dst c.dstride 0 h 0 w, wf := coefs ++ rectSpans c.dst c.dstride 0 h 0 w }

/-- The DC coefficients of the four consecutive blocks at AUX (20_memory R54, R187, R188). -/
def fourDcSpans (c : InFlight) : List Span :=
  (List.range 4).map fun (k : Nat) => { start := c.aux + 32 * k, len := 2 }

/-- The 16 DC slots of the sub-block array at DST (R189). -/
def slotSpans (c : InFlight) : List Span :=
  (List.range 16).map fun (k : Nat) => { start := c.dst + 32 * k, len := 2 }

/-- WHT and WHT_DC: `n` bytes of `dc` at AUX, and the slots (R183, R189 to R191). -/
def whtPlan (n : Nat) (c : InFlight) : Plan :=
  { legal := true, selectors := [], coefs := [c.x2, c.x0], rowWidth := none,
    partA := [{ start := c.aux, len := n }], partB := slotSpans c,
    rf := [{ start := c.aux, len := n }], wf := { start := c.aux, len := n } :: slotSpans c }

/-- The filtering direction of a loop filter (45_loopfilter R201). -/
inductive Direction where
  | v
  | h
deriving DecidableEq, Repr

/-- The kind of a loop filter (R209). -/
inductive FilterKind where
  | simple
  | inner
  | mbEdge
deriving DecidableEq, Repr

/-- The address of tap `k` of position `i` (R201). -/
def tapAddr (d : Direction) (base stride : Int) (i k : Int) : Int :=
  match d with
  | .v => base + i + k * stride
  | .h => base + i * stride + k

/-- The first tap a kind can write (R211). -/
def FilterKind.lo : FilterKind → Int
  | .simple => -1
  | .inner => -2
  | .mbEdge => -3

/-- How many taps a kind can write (R211). -/
def FilterKind.count : FilterKind → Nat
  | .simple => 2
  | .inner => 4
  | .mbEdge => 6

/-- Taps `klo .. klo + cnt - 1` of the `n` positions of the plane at `base` (R211). -/
def tapSpans (d : Direction) (n : Nat) (base stride klo : Int) (cnt : Nat) : List Span :=
  match d with
  | .v => (List.range cnt).map fun (j : Nat) => { start := tapAddr .v base stride 0 (klo + j), len := n }
  | .h => (List.range n).map fun (i : Nat) => { start := tapAddr .h base stride i klo, len := cnt }

/-- The planes of a loop-filter command: DST, and AUX as well when PAIR = 1 (R200, R215). -/
def planeBases (pair : Bool) (c : InFlight) : List Int :=
  if pair then [c.dst, c.aux] else [c.dst]

/-- The loop filters (R211, R212). -/
def filterPlan (legal : Bool) (kind : FilterKind) (d : Direction) (n : Nat) (pair : Bool) (c : InFlight) : Plan :=
  { legal, selectors := [], coefs := [],
    rowWidth := some (match d with | .v => n | .h => 8), partA := [], partB := [],
    rf := (planeBases pair c).flatMap fun b => tapSpans d n b c.dstride (-4) 8,
    wf := (planeBases pair c).flatMap fun b => tapSpans d n b c.dstride kind.lo kind.count }

/-- The checks and footprints of each command with its latched operands (R234 and the checks rule of each family). -/
def planOf (i : Instr) (c : InFlight) : Plan :=
  match i with
  | .fill w h _ => fillPlan i.wellFormed w.cols h.toNat c
  | .clr1 => clearPlan 32 c
  | .clr24 => clearPlan 768 c
  | .copy w h => interpPlan i.wellFormed [] .none .none w.cols h.toNat c
  | .epelV4 w h my => interpPlan i.wellFormed [my] .none .four w.cols h.toNat c
  | .epelV6 w h my => interpPlan i.wellFormed [my] .none .six w.cols h.toNat c
  | .epelH4 w h mx => interpPlan i.wellFormed [mx] .four .none w.cols h.toNat c
  | .epelH4V4 w h mx my => interpPlan i.wellFormed [mx, my] .four .four w.cols h.toNat c
  | .epelH4V6 w h mx my => interpPlan i.wellFormed [mx, my] .four .six w.cols h.toNat c
  | .epelH6 w h mx => interpPlan i.wellFormed [mx] .six .none w.cols h.toNat c
  | .epelH6V4 w h mx my => interpPlan i.wellFormed [mx, my] .six .four w.cols h.toNat c
  | .epelH6V6 w h mx my => interpPlan i.wellFormed [mx, my] .six .six w.cols h.toNat c
  | .bilinV w h _ => interpPlan i.wellFormed [] .none .two w.cols h.toNat c
  | .bilinH w h _ => interpPlan i.wellFormed [] .two .none w.cols h.toNat c
  | .bilinHV w h _ _ => interpPlan i.wellFormed [] .two .two w.cols h.toNat c
  | .idctAdd => idctPlan [{ start := c.aux, len := 32 }] 4 4 c
  | .idctDcAdd => idctPlan [{ start := c.aux, len := 2 }] 4 4 c
  | .idctDcAdd4y => idctPlan (fourDcSpans c) 16 4 c
  | .idctDcAdd4uv => idctPlan (fourDcSpans c) 8 8 c
  | .wht => whtPlan 32 c
  | .whtDc => whtPlan 2 c
  | .lfsV n _ => filterPlan i.wellFormed .simple .v n.positions false c
  | .lfsH n _ => filterPlan i.wellFormed .simple .h n.positions false c
  | .lfiV n pair _ _ _ => filterPlan i.wellFormed .inner .v n.positions pair c
  | .lfiH n pair _ _ _ => filterPlan i.wellFormed .inner .h n.positions pair c
  | .lfmV n pair _ _ _ => filterPlan i.wellFormed .mbEdge .v n.positions pair c
  | .lfmH n pair _ _ _ => filterPlan i.wellFormed .mbEdge .h n.positions pair c

/-- The write footprint of a command in flight; none where the word is no command. -/
def InFlight.wf (c : InFlight) : List Span :=
  match decode c.word with
  | .ok i => (planOf i c).wf
  | .error _ => []

/-- The whole footprint `RF ∪ WF` of a command in flight; none where the word is no command. -/
def InFlight.footprint (c : InFlight) : List Span :=
  match decode c.word with
  | .ok i => (planOf i c).rf ++ (planOf i c).wf
  | .error _ => []

end Sys2Proof.Machine
end

