-- ==== Sys2Proof/Machine/Ops.lean ====
section
/-! DEFINITION. The named operations of the engine: acceptance (10_state R26), completion without and with a fault
(R44, 60_exceptions R232), reset and the abort of a command (R39, 70_reset_and_hazards R260 to R262), and the one frame every
command runs in (R43). -/

namespace Sys2Proof.Machine

/-- An accepted write of `w` to CMD: the word and the operands are latched, DONE falls, BUSY rises (R26, R27). -/
def State.accept (s : State) (w : Word) : State :=
  { s with
    cur := some { word := w, x0 := s.x0, x1 := s.x1, x2 := s.x2, x3 := s.x3 }
    cmd := w
    status := { s.status with busy := true, done := false }
    breached := false }

/-- A host write to CMD: accepted when BUSY = 0 and ERR = 0, else dropped with OVR set (R26). -/
def State.writeCmd (s : State) (w : Word) : State :=
  if s.status.busy || s.status.err then { s with status := { s.status with ovr := true } }
  else s.accept w

/-- Every byte of `wf` becomes unspecified (R262, R266; logs 4, 5, 6). -/
def State.havoc (s : State) (wf : List Span) : State :=
  { s with mem := s.mem.havoc (spansBytes wf) s.freeIx, freeIx := s.freeIx + (spansBytes wf).length }

/-- What both kinds of completion share (R44): memory becomes `m` and `cur` invalid, and the host has yet to see the
completion (R266). If the host broke the footprint duty while the command was in flight, its write footprint `wf` is
unspecified instead (R266, U6; log 6). -/
def State.retire (s : State) (c : InFlight) (wf : List Span) (m : Memory) : State :=
  let t := if s.breached then s.havoc wf else { s with mem := m }
  { t with cur := none, duties := c :: s.duties, breached := false }

/-- Completion without a fault (R44): BUSY falls, DONE rises. -/
def State.finish (s : State) (c : InFlight) (wf : List Span) (m : Memory) : State :=
  let t := s.retire c wf m
  { t with status := { s.status with busy := false, done := true } }

/-- Taking a fault (R232): BUSY falls, ERR rises, CAUSE and ERRINFO are recorded, memory is unchanged. -/
def State.takeFault (s : State) (c : InFlight) (wf : List Span) (cause : FaultCause) : State :=
  let t := s.retire c wf s.mem
  { t with
    status := { s.status with busy := false, err := true, cause := some cause }
    errinfo := c.word }

/-- The write footprint of the command a reset aborts; none when BUSY = 0 (R262). -/
def State.abortedFootprint (s : State) : List Span :=
  if s.status.busy then (match s.cur with | some c => c.wf | none => []) else []

/-- Reset, hard or soft (R39, R260, R261): the registers take their reset values, no command is in flight, memory is unchanged
but for the write footprint of an aborted command (R262). It is the only way out of a fault (R241). The host's program is not
the engine's and is not reset (R24). -/
def State.resetEngine (s : State) : State :=
  let t := s.havoc s.abortedFootprint
  { t with
    x0 := 0
    x1 := 0
    x2 := 0
    x3 := 0
    cmd := 0
    status := Status.reset
    ctrl := Ctrl.reset
    errinfo := 0
    cur := none
    duties := []
    breached := false }

/-- `Exec(cur, mem)` and the completion step around it, for the instruction `i` whose effect on memory is `effect`
(R43, R44): the checks in their fixed order (R233), then the command as one atomic change of memory (R62). -/
def runCommand (i : Instr) (effect : InFlight → Memory → Memory) (s : State) : Host.Outcome State Fault Refusal :=
  match s.cur with
  | none => .fault .noCommandInFlight
  | some c =>
    match (planOf i c).firstFault c.dstride s.memMap with
    | some cause => .next (s.takeFault c (planOf i c).wf cause)
    | none => .next (s.finish c (planOf i c).wf (effect c s.mem))

/-- A word that is no command completes with ILLEGAL_CMD, whatever the registers hold (R85, R93). -/
def illegalCommand (c : InFlight) (s : State) : State :=
  s.takeFault c [] .illegalCmd

end Sys2Proof.Machine
end

