-- ==== Sys2Proof/Machine/Interp.lean ====
section
/-! DEFINITION. COPY and the eight EPEL commands (42_interp_epel R140 to R155). -/

namespace Sys2Proof.Machine

/-- `S(y, x)`: the source sample at row `y`, column `x` of the block origin, either may be negative (R140). -/
def srcPx (c : InFlight) (m : Memory) (y x : Int) : Int := px m (c.aux + y * c.sstride + x)

/-- `FIR4` over `v(-1) .. v(2)` (R141). -/
def fir4 (f : TapRow) (v : Int → Int) : Int :=
  clipU8 (asr (f.f2 * v 0 - f.f1 * v (-1) + f.f3 * v 1 - f.f4 * v 2 + 64) 7)

/-- `FIR6` over `v(-2) .. v(3)` (R141). -/
def fir6 (f : TapRow) (v : Int → Int) : Int :=
  clipU8 (asr (f.f2 * v 0 - f.f1 * v (-1) + f.f0 * v (-2) + f.f3 * v 1 - f.f4 * v 2 + f.f5 * v 3 + 64) 7)

/-- The kernel of a tap count along one axis, applied at `v(0)` (R141, R143). A pass of the bilinear kind has its own kernel
(`Machine/Bilinear.lean`); without a pass the sample is copied. -/
def firPass (t : TapCount) (sel : BitVec 3) (v : Int → Int) : Int :=
  match t with
  | .none => v 0
  | .two => v 0
  | .four => fir4 (tapRow sel) v
  | .six => fir6 (tapRow sel) v

/-- `H4`, `H6`: the horizontal filter at `(y, x)`, any row (R142). -/
def hFilter (t : TapCount) (mx : BitVec 3) (c : InFlight) (m : Memory) (y x : Int) : Int :=
  firPass t mx fun k => srcPx c m y (x + k)

/-- `V4`, `V6`: the vertical filter at `(y, x)` (R142). -/
def vFilter (t : TapCount) (my : BitVec 3) (c : InFlight) (m : Memory) (y x : Int) : Int :=
  firPass t my fun k => srcPx c m (y + k) x

/-- The scratch buffer (10_state R35, R146): rows `-lo .. rows - lo - 1` of the first pass, `W` bytes each, row-major. -/
def scratchRows (lo rows w : Nat) (hp : Int → Int → Int) : List (List Int) :=
  (List.range rows).map fun (r : Nat) => (List.range w).map fun (x : Nat) => hp ((r : Int) - lo) x

/-- `T(y, x)` of the scratch buffer whose first row is row `-lo` (R146). -/
def scratchAt (t : List (List Int)) (lo : Nat) (y : Int) (x : Nat) : Int :=
  (t.getD (y + lo).toNat []).getD x 0

/-- COPY's stores (R147). -/
def copyStores (w h : Nat) (c : InFlight) (m : Memory) : List Store :=
  blockStores c.dst c.dstride w h fun y x => srcPx c m y x

/-- The stores of a horizontal-only filter (R148, R149). -/
def hStores (t : TapCount) (w h : Nat) (mx : BitVec 3) (c : InFlight) (m : Memory) : List Store :=
  blockStores c.dst c.dstride w h fun y x => hFilter t mx c m y x

/-- The stores of a vertical-only filter (R150, R151). -/
def vStores (t : TapCount) (w h : Nat) (my : BitVec 3) (c : InFlight) (m : Memory) : List Store :=
  blockStores c.dst c.dstride w h fun y x => vFilter t my c m y x

/-- The stores of a two-pass command: the horizontal kernel into the scratch buffer, then the vertical kernel on it (R146). -/
def hvStores (ht vt : TapCount) (w h : Nat) (mx my : BitVec 3) (c : InFlight) (m : Memory) : List Store :=
  let t := scratchRows vt.lo (h + vt.lo + vt.hi) w (hFilter ht mx c m)
  blockStores c.dst c.dstride w h fun y x => firPass vt my fun k => scratchAt t vt.lo ((y : Int) + k) x

/-- COPY (R147). -/
def execCopy (w : Width) (h : BitVec 6) (s : State) : Host.Outcome State Fault Refusal :=
  runCommand (.copy w h) (fun c m => m.storeAll (copyStores w.cols h.toNat c m)) s

/-- EPEL_V4 (R150). -/
def execEpelV4 (w : Width) (h : BitVec 6) (my : BitVec 3) (s : State) : Host.Outcome State Fault Refusal :=
  runCommand (.epelV4 w h my) (fun c m => m.storeAll (vStores .four w.cols h.toNat my c m)) s

/-- EPEL_V6 (R151). -/
def execEpelV6 (w : Width) (h : BitVec 6) (my : BitVec 3) (s : State) : Host.Outcome State Fault Refusal :=
  runCommand (.epelV6 w h my) (fun c m => m.storeAll (vStores .six w.cols h.toNat my c m)) s

/-- EPEL_H4 (R148). -/
def execEpelH4 (w : Width) (h : BitVec 6) (mx : BitVec 3) (s : State) : Host.Outcome State Fault Refusal :=
  runCommand (.epelH4 w h mx) (fun c m => m.storeAll (hStores .four w.cols h.toNat mx c m)) s

/-- EPEL_H4V4 (R152). -/
def execEpelH4V4 (w : Width) (h : BitVec 6) (mx my : BitVec 3) (s : State) : Host.Outcome State Fault Refusal :=
  runCommand (.epelH4V4 w h mx my) (fun c m => m.storeAll (hvStores .four .four w.cols h.toNat mx my c m)) s

/-- EPEL_H4V6 (R153). -/
def execEpelH4V6 (w : Width) (h : BitVec 6) (mx my : BitVec 3) (s : State) : Host.Outcome State Fault Refusal :=
  runCommand (.epelH4V6 w h mx my) (fun c m => m.storeAll (hvStores .four .six w.cols h.toNat mx my c m)) s

/-- EPEL_H6 (R149). -/
def execEpelH6 (w : Width) (h : BitVec 6) (mx : BitVec 3) (s : State) : Host.Outcome State Fault Refusal :=
  runCommand (.epelH6 w h mx) (fun c m => m.storeAll (hStores .six w.cols h.toNat mx c m)) s

/-- EPEL_H6V4 (R154). -/
def execEpelH6V4 (w : Width) (h : BitVec 6) (mx my : BitVec 3) (s : State) : Host.Outcome State Fault Refusal :=
  runCommand (.epelH6V4 w h mx my) (fun c m => m.storeAll (hvStores .six .four w.cols h.toNat mx my c m)) s

/-- EPEL_H6V6 (R155). -/
def execEpelH6V6 (w : Width) (h : BitVec 6) (mx my : BitVec 3) (s : State) : Host.Outcome State Fault Refusal :=
  runCommand (.epelH6V6 w h mx my) (fun c m => m.storeAll (hvStores .six .six w.cols h.toNat mx my c m)) s

end Sys2Proof.Machine
end

