-- ==== Sys2Proof/Machine/Bilinear.lean ====
section
/-! DEFINITION. BILIN_H, BILIN_V and BILIN_HV (43_interp_bilinear R170 to R175). -/

namespace Sys2Proof.Machine

/-- `BIL(m, v0, v1)` (R170). -/
def bil (m : BitVec 3) (v0 v1 : Int) : Int :=
  asr ((8 - (m.toNat : Int)) * v0 + (m.toNat : Int) * v1 + 4) 3

/-- The horizontal bilinear filter at `(y, x)` (R171). -/
def bilH (mx : BitVec 3) (c : InFlight) (m : Memory) (y x : Int) : Int :=
  bil mx (srcPx c m y x) (srcPx c m y (x + 1))

/-- The vertical bilinear filter at `(y, x)` (R172). -/
def bilV (my : BitVec 3) (c : InFlight) (m : Memory) (y x : Int) : Int :=
  bil my (srcPx c m y x) (srcPx c m (y + 1) x)

/-- BILIN_HV's stores: `H + 1` scratch rows, then the vertical pass on them (R173). -/
def bilinHVStores (w h : Nat) (mx my : BitVec 3) (c : InFlight) (m : Memory) : List Store :=
  let t := scratchRows 0 (h + 1) w (bilH mx c m)
  blockStores c.dst c.dstride w h fun y x => bil my (scratchAt t 0 y x) (scratchAt t 0 ((y : Int) + 1) x)

/-- BILIN_V (R172). -/
def execBilinV (w : Width) (h : BitVec 6) (my : BitVec 3) (s : State) : Host.Outcome State Fault Refusal :=
  runCommand (.bilinV w h my)
    (fun c m => m.storeAll (blockStores c.dst c.dstride w.cols h.toNat fun y x => bilV my c m y x)) s

/-- BILIN_H (R171). -/
def execBilinH (w : Width) (h : BitVec 6) (mx : BitVec 3) (s : State) : Host.Outcome State Fault Refusal :=
  runCommand (.bilinH w h mx)
    (fun c m => m.storeAll (blockStores c.dst c.dstride w.cols h.toNat fun y x => bilH mx c m y x)) s

/-- BILIN_HV (R173). -/
def execBilinHV (w : Width) (h : BitVec 6) (mx my : BitVec 3) (s : State) : Host.Outcome State Fault Refusal :=
  runCommand (.bilinHV w h mx my) (fun c m => m.storeAll (bilinHVStores w.cols h.toNat mx my c m)) s

end Sys2Proof.Machine
end

