-- ==== Sys2Proof/Machine/FillClear.lean ====
section
/-! DEFINITION. FILL, CLR1 and CLR24 (40_fill_clear R110 to R112). -/

namespace Sys2Proof.Machine

/-- FILL's stores: `VAL` at every sample of the region (R110). -/
def fillStores (w h : Nat) (val : Byte) (c : InFlight) : List Store :=
  blockStores c.dst c.dstride w h fun _ _ => (val.toNat : Int)

/-- `n` zero coefficients from AUX on (R111, R112). -/
def clearStores (n : Nat) (c : InFlight) : List Store :=
  (List.range n).flatMap fun (i : Nat) => coefStores (c.aux + 2 * i) 0

/-- FILL (R110). -/
def execFill (w : Width) (h : BitVec 6) (val : Byte) (s : State) : Host.Outcome State Fault Refusal :=
  runCommand (.fill w h val) (fun c m => m.storeAll (fillStores w.cols h.toNat val c)) s

/-- CLR1 (R111). -/
def execClr1 (s : State) : Host.Outcome State Fault Refusal :=
  runCommand .clr1 (fun c m => m.storeAll (clearStores 16 c)) s

/-- CLR24 (R112). -/
def execClr24 (s : State) : Host.Outcome State Fault Refusal :=
  runCommand .clr24 (fun c m => m.storeAll (clearStores 384 c)) s

end Sys2Proof.Machine
end

