-- ==== Sys2Proof/Machine/LoopFilter.lean ====
section
/-! DEFINITION. The deblocking loop filters (45_loopfilter R200 to R221). That the plane pointer names `q0` and that the
macroblock-edge filter adds on the `p` side are the spec's own general knowledge (G4, G5; log 7). -/

namespace Sys2Proof.Machine

/-- The eight samples of a position (R201, R202). -/
structure Octet where
  p3 : Int
  p2 : Int
  p1 : Int
  p0 : Int
  q0 : Int
  q1 : Int
  q2 : Int
  q3 : Int
deriving DecidableEq, Repr

/-- The sample at tap `k`, `k` in -4 .. 3 (R201). -/
def Octet.tap (o : Octet) (k : Int) : Int :=
  if k = -4 then o.p3
  else if k = -3 then o.p2
  else if k = -2 then o.p1
  else if k = -1 then o.p0
  else if k = 0 then o.q0
  else if k = 1 then o.q1
  else if k = 2 then o.q2
  else o.q3

/-- `OCTET(base, i)` (R202). -/
def octetAt (d : Direction) (base stride : Int) (m : Memory) (i : Int) : Octet :=
  { p3 := px m (tapAddr d base stride i (-4))
    p2 := px m (tapAddr d base stride i (-3))
    p1 := px m (tapAddr d base stride i (-2))
    p0 := px m (tapAddr d base stride i (-1))
    q0 := px m (tapAddr d base stride i 0)
    q1 := px m (tapAddr d base stride i 1)
    q2 := px m (tapAddr d base stride i 2)
    q3 := px m (tapAddr d base stride i 3) }

/-- `SIMPLE(o, L)` (R203). -/
def simpleGate (o : Octet) (l : Int) : Bool :=
  decide (2 * absDiff o.p0 o.q0 + asr (absDiff o.p1 o.q1) 1 ≤ l)

/-- `NORMAL(o, E, I)` (R204). -/
def normalGate (o : Octet) (e i : Int) : Bool :=
  simpleGate o e
    && decide (absDiff o.p3 o.p2 ≤ i) && decide (absDiff o.p2 o.p1 ≤ i) && decide (absDiff o.p1 o.p0 ≤ i)
    && decide (absDiff o.q3 o.q2 ≤ i) && decide (absDiff o.q2 o.q1 ≤ i) && decide (absDiff o.q1 o.q0 ≤ i)

/-- `HEVT(o, T)` (R205). -/
def hevGate (o : Octet) (t : Int) : Bool :=
  decide (absDiff o.p1 o.p0 > t) || decide (absDiff o.q1 o.q0 > t)

/-- `f1` of R206 and R207. -/
def filterF1 (a : Int) : Int := asr (min (a + 4) 127) 3

/-- `f2` of R206 and R207. -/
def filterF2 (a : Int) : Int := asr (min (a + 3) 127) 3

/-- `F4(o)` (R206). -/
def commonFilter (o : Octet) : Octet :=
  let a := clipS8 (3 * (o.q0 - o.p0) + clipS8 (o.p1 - o.q1))
  { o with p0 := clipU8 (o.p0 + filterF2 a), q0 := clipU8 (o.q0 - filterF1 a) }

/-- `FI(o)` (R207). -/
def innerFilter (o : Octet) : Octet :=
  let a := clipS8 (3 * (o.q0 - o.p0))
  let a2 := asr (filterF1 a + 1) 1
  { o with
    p0 := clipU8 (o.p0 + filterF2 a)
    q0 := clipU8 (o.q0 - filterF1 a)
    p1 := clipU8 (o.p1 + a2)
    q1 := clipU8 (o.q1 - a2) }

/-- `FM(o)` (R208). -/
def mbFilter (o : Octet) : Octet :=
  let w := clipS8 (clipS8 (o.p1 - o.q1) + 3 * (o.q0 - o.p0))
  let a0 := asr (27 * w + 63) 7
  let a1 := asr (18 * w + 63) 7
  let a2 := asr (9 * w + 63) 7
  { o with
    p0 := clipU8 (o.p0 + a0)
    q0 := clipU8 (o.q0 - a0)
    p1 := clipU8 (o.p1 + a1)
    q1 := clipU8 (o.q1 - a1)
    p2 := clipU8 (o.p2 + a2)
    q2 := clipU8 (o.q2 - a2) }

/-- The correction a position takes (R209). -/
inductive Correction where
  /-- The gate failed: nothing is stored. -/
  | untouched
  | common
  | inner
  | mbEdge
deriving DecidableEq, Repr

/-- The taps a correction stores (R206 to R208). -/
def Correction.taps : Correction → List Int
  | .untouched => []
  | .common => [-1, 0]
  | .inner => [-2, -1, 0, 1]
  | .mbEdge => [-3, -2, -1, 0, 1, 2]

/-- The octet after a correction (R206 to R208). -/
def Correction.apply (o : Octet) : Correction → Octet
  | .untouched => o
  | .common => commonFilter o
  | .inner => innerFilter o
  | .mbEdge => mbFilter o

/-- The three thresholds of a loop filter (R200). -/
structure Thresholds where
  e : Byte
  i : Byte
  hev : Byte
deriving DecidableEq, Repr

/-- `POS`: the gates choose the correction (R209). -/
def choose (kind : FilterKind) (th : Thresholds) (o : Octet) : Correction :=
  match kind with
  | .simple => if simpleGate o (th.e.toNat : Int) then .common else .untouched
  | .inner =>
    if normalGate o (th.e.toNat : Int) (th.i.toNat : Int) then
      (if hevGate o (th.hev.toNat : Int) then .common else .inner)
    else .untouched
  | .mbEdge =>
    if normalGate o (th.e.toNat : Int) (th.i.toNat : Int) then
      (if hevGate o (th.hev.toNat : Int) then .common else .mbEdge)
    else .untouched

/-- The octet of a position after the filter (R209). -/
def filterOctet (kind : FilterKind) (th : Thresholds) (o : Octet) : Octet :=
  (choose kind th o).apply o

/-- The stores of one position (R209). -/
def positionStores (kind : FilterKind) (th : Thresholds) (d : Direction) (base stride : Int) (m : Memory) (i : Int) :
    List Store :=
  let o := octetAt d base stride m i
  (choose kind th o).taps.map fun k => (tapAddr d base stride i k, byteOf ((filterOctet kind th o).tap k))

/-- `PLANE(kind, base)` (R210). -/
def filterPlane (kind : FilterKind) (th : Thresholds) (d : Direction) (n : Nat) (base stride : Int) (m : Memory) : Memory :=
  m.storeAll ((List.range n).flatMap fun (i : Nat) => positionStores kind th d base stride m i)

/-- One plane, or two in sequence, the second reading what the first wrote (R215). -/
def filterPlanes (kind : FilterKind) (th : Thresholds) (d : Direction) (n : Nat) (pair : Bool) (c : InFlight) (m : Memory) :
    Memory :=
  let u := filterPlane kind th d n c.dst c.dstride m
  if pair then filterPlane kind th d n c.aux c.dstride u else u

/-- LFS_V (R216). -/
def execLfsV (n : EdgeSpan) (e : Byte) (s : State) : Host.Outcome State Fault Refusal :=
  runCommand (.lfsV n e) (filterPlanes .simple { e, i := 0, hev := 0 } .v n.positions false) s

/-- LFS_H (R217). -/
def execLfsH (n : EdgeSpan) (e : Byte) (s : State) : Host.Outcome State Fault Refusal :=
  runCommand (.lfsH n e) (filterPlanes .simple { e, i := 0, hev := 0 } .h n.positions false) s

/-- LFI_V (R218). -/
def execLfiV (n : EdgeSpan) (pair : Bool) (e i hev : Byte) (s : State) : Host.Outcome State Fault Refusal :=
  runCommand (.lfiV n pair e i hev) (filterPlanes .inner { e, i, hev } .v n.positions pair) s

/-- LFI_H (R219). -/
def execLfiH (n : EdgeSpan) (pair : Bool) (e i hev : Byte) (s : State) : Host.Outcome State Fault Refusal :=
  runCommand (.lfiH n pair e i hev) (filterPlanes .inner { e, i, hev } .h n.positions pair) s

/-- LFM_V (R220). -/
def execLfmV (n : EdgeSpan) (pair : Bool) (e i hev : Byte) (s : State) : Host.Outcome State Fault Refusal :=
  runCommand (.lfmV n pair e i hev) (filterPlanes .mbEdge { e, i, hev } .v n.positions pair) s

/-- LFM_H (R221). -/
def execLfmH (n : EdgeSpan) (pair : Bool) (e i hev : Byte) (s : State) : Host.Outcome State Fault Refusal :=
  runCommand (.lfmH n pair e i hev) (filterPlanes .mbEdge { e, i, hev } .h n.positions pair) s

end Sys2Proof.Machine
end

