-- ==== Sys2Proof/Machine/Transform.lean ====
section
/-! DEFINITION. The inverse transforms (44_transform R180 to R191). The two butterflies are the spec's own general knowledge
(G2, G3; log 7). All reads of a command see memory as it was when the command started (00_scope R14). -/

namespace Sys2Proof.Machine

/-- Four integers: the outputs of a butterfly. -/
structure Quad where
  o0 : Int
  o1 : Int
  o2 : Int
  o3 : Int
deriving DecidableEq, Repr

/-- Output `k` of a butterfly, `k` in 0..3. -/
def Quad.get (q : Quad) (k : Nat) : Int :=
  match k with
  | 0 => q.o0
  | 1 => q.o1
  | 2 => q.o2
  | _ => q.o3

/-- `BF(i0, i1, i2, i3)` (R182). -/
def bf (i0 i1 i2 i3 : Int) : Quad :=
  let t0 := i0 + i2
  let t1 := i0 - i2
  let t2 := mul35468 i1 - mul20091 i3
  let t3 := mul20091 i1 + mul35468 i3
  { o0 := t0 + t3, o1 := t1 + t2, o2 := t1 - t2, o3 := t0 - t3 }

/-- `c[i]`: coefficient `i` of the block at AUX (R180). -/
def coef (c : InFlight) (m : Memory) (i : Nat) : Int := cf m (c.aux + 2 * i)

/-- `P(y, x)`: a destination sample (R180). -/
def dstPx (c : InFlight) (m : Memory) (y x : Int) : Int := px m (c.dst + y * c.dstride + x)

/-- `tmp[4*i + k]`: column `i`, row `k` after the column pass, narrowed (R184). -/
def idctTmp (f : Nat → Int) (i k : Nat) : Int :=
  narrow16 ((bf (f i) (f (4 + i)) (f (8 + i)) (f (12 + i))).get k)

/-- The residual of pixel `(i, k)` after the row pass, rounded (R184): row `i` reads `tmp[i], tmp[4+i], tmp[8+i], tmp[12+i]`. -/
def idctResidual (f : Nat → Int) (i k : Nat) : Int :=
  asr ((bf (idctTmp f 0 i) (idctTmp f 1 i) (idctTmp f 2 i) (idctTmp f 3 i)).get k + 4) 3

/-- IDCT_ADD's stores: 16 pixels, then 16 zero coefficients (R184). -/
def idctAddStores (c : InFlight) (m : Memory) : List Store :=
  (blockStores c.dst c.dstride 4 4 fun y x => clipU8 (dstPx c m y x + idctResidual (coef c m) y x)) ++
    (List.range 16).flatMap fun (i : Nat) => coefStores (c.aux + 2 * i) 0

/-- `DCADD(base, ca)` as stores (R185). -/
def dcAddStores (m : Memory) (base stride ca : Int) : List Store :=
  (blockStores base stride 4 4 fun y x => clipU8 (px m (base + y * stride + x) + asr (cf m ca + 4) 3)) ++
    coefStores ca 0

/-- `SLOT(i, j)` (R189). -/
def slotAddr (c : InFlight) (i j : Nat) : Int := c.dst + 32 * (4 * i + j)

/-- `t[4*r + i]`: entry of row `r`, column `i` after WHT's column pass, narrowed (R190). -/
def whtTmp (f : Nat → Int) (r i : Nat) : Int :=
  let a1 := f i + f (12 + i)
  let b1 := f (4 + i) + f (8 + i)
  let c1 := f (4 + i) - f (8 + i)
  let d1 := f i - f (12 + i)
  narrow16 (({ o0 := a1 + b1, o1 := d1 + c1, o2 := a1 - b1, o3 := d1 - c1 } : Quad).get r)

/-- What WHT writes to `SLOT(i, j)` (R190). -/
def whtOut (f : Nat → Int) (i j : Nat) : Int :=
  let a1 := whtTmp f i 0 + whtTmp f i 3 + 3
  let b1 := whtTmp f i 1 + whtTmp f i 2
  let c1 := whtTmp f i 1 - whtTmp f i 2
  let d1 := whtTmp f i 0 - whtTmp f i 3 + 3
  narrow16 (asr (({ o0 := a1 + b1, o1 := d1 + c1, o2 := a1 - b1, o3 := d1 - c1 } : Quad).get j) 3)

/-- The stores of the 16 DC slots (R189). -/
def slotStores (c : InFlight) (f : Nat → Nat → Int) : List Store :=
  (List.range 4).flatMap fun (i : Nat) => (List.range 4).flatMap fun (j : Nat) => coefStores (slotAddr c i j) (f i j)

/-- WHT's stores: the 16 slots, then 16 zero coefficients (R190). -/
def whtStores (c : InFlight) (m : Memory) : List Store :=
  slotStores c (whtOut (coef c m)) ++ (List.range 16).flatMap fun (i : Nat) => coefStores (c.aux + 2 * i) 0

/-- WHT_DC's stores: the same value to the 16 slots, then a zero `dc[0]` (R191). -/
def whtDcStores (c : InFlight) (m : Memory) : List Store :=
  slotStores c (fun _ _ => asr (coef c m 0 + 3) 3) ++ coefStores c.aux 0

/-- IDCT_ADD (R184). -/
def execIdctAdd (s : State) : Host.Outcome State Fault Refusal :=
  runCommand .idctAdd (fun c m => m.storeAll (idctAddStores c m)) s

/-- IDCT_DC_ADD (R186). -/
def execIdctDcAdd (s : State) : Host.Outcome State Fault Refusal :=
  runCommand .idctDcAdd (fun c m => m.storeAll (dcAddStores m c.dst c.dstride c.aux)) s

/-- IDCT_DC_ADD4Y: sub-block `k` at column `4k` (R187). -/
def execIdctDcAdd4y (s : State) : Host.Outcome State Fault Refusal :=
  runCommand .idctDcAdd4y (fun c m => m.storeAll ((List.range 4).flatMap fun (k : Nat) =>
    dcAddStores m (c.dst + 4 * k) c.dstride (c.aux + 32 * k))) s

/-- IDCT_DC_ADD4UV: sub-block `k` at row `4*(k div 2)`, column `4*(k mod 2)` (R188). -/
def execIdctDcAdd4uv (s : State) : Host.Outcome State Fault Refusal :=
  runCommand .idctDcAdd4uv (fun c m => m.storeAll ((List.range 4).flatMap fun (k : Nat) =>
    dcAddStores m (c.dst + 4 * ((k / 2 : Nat) : Int) * c.dstride + 4 * ((k % 2 : Nat) : Int)) c.dstride (c.aux + 32 * k))) s

/-- WHT (R190). -/
def execWht (s : State) : Host.Outcome State Fault Refusal :=
  runCommand .wht (fun c m => m.storeAll (whtStores c m)) s

/-- WHT_DC (R191). -/
def execWhtDc (s : State) : Host.Outcome State Fault Refusal :=
  runCommand .whtDc (fun c m => m.storeAll (whtDcStores c m)) s

end Sys2Proof.Machine
end

