-- ==== Sys2Proof/Machine/Dispatch.lean ====
section
/-! DEFINITION. Every command to its meaning, one arm per constructor. -/

namespace Sys2Proof.Machine

def exec (i : Instr) (s : State) : Host.Outcome State Fault Refusal :=
  match i with
  | .fill w h val => Sys2Proof.Machine.execFill w h val s
  | .clr1 => Sys2Proof.Machine.execClr1 s
  | .clr24 => Sys2Proof.Machine.execClr24 s
  | .copy w h => Sys2Proof.Machine.execCopy w h s
  | .epelV4 w h my => Sys2Proof.Machine.execEpelV4 w h my s
  | .epelV6 w h my => Sys2Proof.Machine.execEpelV6 w h my s
  | .epelH4 w h mx => Sys2Proof.Machine.execEpelH4 w h mx s
  | .epelH4V4 w h mx my => Sys2Proof.Machine.execEpelH4V4 w h mx my s
  | .epelH4V6 w h mx my => Sys2Proof.Machine.execEpelH4V6 w h mx my s
  | .epelH6 w h mx => Sys2Proof.Machine.execEpelH6 w h mx s
  | .epelH6V4 w h mx my => Sys2Proof.Machine.execEpelH6V4 w h mx my s
  | .epelH6V6 w h mx my => Sys2Proof.Machine.execEpelH6V6 w h mx my s
  | .bilinV w h my => Sys2Proof.Machine.execBilinV w h my s
  | .bilinH w h mx => Sys2Proof.Machine.execBilinH w h mx s
  | .bilinHV w h mx my => Sys2Proof.Machine.execBilinHV w h mx my s
  | .idctAdd => Sys2Proof.Machine.execIdctAdd s
  | .idctDcAdd => Sys2Proof.Machine.execIdctDcAdd s
  | .idctDcAdd4y => Sys2Proof.Machine.execIdctDcAdd4y s
  | .idctDcAdd4uv => Sys2Proof.Machine.execIdctDcAdd4uv s
  | .wht => Sys2Proof.Machine.execWht s
  | .whtDc => Sys2Proof.Machine.execWhtDc s
  | .lfsV n e => Sys2Proof.Machine.execLfsV n e s
  | .lfsH n e => Sys2Proof.Machine.execLfsH n e s
  | .lfiV n pair e ilim hev => Sys2Proof.Machine.execLfiV n pair e ilim hev s
  | .lfiH n pair e ilim hev => Sys2Proof.Machine.execLfiH n pair e ilim hev s
  | .lfmV n pair e ilim hev => Sys2Proof.Machine.execLfmV n pair e ilim hev s
  | .lfmH n pair e ilim hev => Sys2Proof.Machine.execLfmH n pair e ilim hev s

end Sys2Proof.Machine
end

