-- ==== Sys2Proof/Machine/HostPort.lean ====
section
/-! DEFINITION. The host's steps: register accesses (10_state R23 to R32), memory accesses (20_memory R63) under the footprint
duty (70_reset_and_hazards R266), and the waits (30_encoding R98). -/

namespace Sys2Proof.Machine

/-! ### Registers -/

/-- What a read of a register returns (R23, R25, R28, R30, R31). -/
def State.readReg (s : State) : HostReg → Word
  | .cmd => s.cmd
  | .status => s.status.toWord
  | .ctrl => s.ctrl.toWord
  | .errinfo => s.errinfo
  | .x0 => s.x0
  | .x1 => s.x1
  | .x2 => s.x2
  | .x3 => s.x3

/-- A host write of a register (R23, R26, R29, R30, R31). -/
def State.writeReg (s : State) (r : HostReg) (v : Word) : State :=
  match r with
  | .cmd => s.writeCmd v
  | .status => { s with status := s.status.written v }
  | .ctrl => if softResetBit v then s.resetEngine else { s with ctrl := Ctrl.ofWord v }
  | .errinfo => s
  | .x0 => { s with x0 := v }
  | .x1 => { s with x1 := v }
  | .x2 => { s with x2 := v }
  | .x3 => { s with x3 := v }

/-- The host has read STATUS: if it saw BUSY = 0, the footprint duties of the completed commands end (R67 (b), R266). -/
def State.sawStatus (s : State) : State :=
  if s.status.busy then s else { s with duties := [] }

/-- A host read of a register; the value goes to the host (log 11). A read of STATUS may end footprint duties. -/
def State.hostReadReg (s : State) (r : HostReg) : State :=
  let t := { s with hostReads := s.readReg r :: s.hostReads }
  match r with
  | .status => t.sawStatus
  | _ => t

/-- The register at an offset of the register block, for an aligned 32-bit access; nothing else has a meaning (R32, U9). -/
def regAt (offset size : Nat) : Option HostReg :=
  if size = 4 then
    match offset with
    | 0x00 => some .cmd
    | 0x04 => some .status
    | 0x08 => some .ctrl
    | 0x0C => some .errinfo
    | 0x10 => some .x0
    | 0x14 => some .x1
    | 0x18 => some .x2
    | 0x1C => some .x3
    | _ => none
  else none

/-! ### Memory -/

/-- Whether the byte at `a` may be in the middle of being written: it is in the write footprint of the command in flight, or of
a completed one whose completion the host has not read (R266). -/
def State.byteUnspecified (s : State) (a : Int) : Bool :=
  (s.status.busy && (match s.cur with | some c => spansHave c.wf a | none => false)) ||
    s.duties.any fun d => spansHave d.wf a

/-- A host read of one byte: an unspecified value where the duty is broken, else what memory holds (R63, R266). -/
def State.loadByte (s : State) (a : Int) : Byte × State :=
  if s.byteUnspecified a then (Config.freeByte s.freeIx, { s with freeIx := s.freeIx + 1 })
  else (s.mem.read a.toNat, s)

/-- The footprint of the command in flight holds `a` (R266). -/
def State.inFlightFootprint (s : State) (a : Int) : Bool :=
  s.status.busy && (match s.cur with | some c => spansHave c.footprint a | none => false)

/-- A host write of one byte. It reaches memory; if `a` is in the footprint of a completed command whose completion the host has
not read, that command's write footprint becomes unspecified; if it is in the footprint of the command in flight, the breach is
remembered until that command completes (R63, R266, U6; log 6). -/
def State.storeByte (s : State) (a : Int) (v : Byte) : State :=
  let t := { s with mem := s.mem.write a v, breached := s.breached || s.inFlightFootprint a }
  s.duties.foldl (fun u d => if spansHave d.footprint a then u.havoc d.wf else u) t

/-- LD8: the byte, zero-extended, goes to the host. -/
def State.hostLoad8 (s : State) (a : Word) : State :=
  let r := s.loadByte a.toNat
  { r.2 with hostReads := r.1.setWidth 32 :: s.hostReads }

/-- LD16 at an even address: two bytes in the order of `COEF_ENDIAN` (R7, R52, R63). -/
def State.hostLoad16 (s : State) (a : Word) : State :=
  let lo := s.loadByte (a.toNat + coefEndian.lowAt)
  let hi := lo.2.loadByte (a.toNat + coefEndian.highAt)
  { hi.2 with hostReads := (hi.1 ++ lo.1 : Half).setWidth 32 :: s.hostReads }

/-- ST16 at an even address: two bytes in the order of `COEF_ENDIAN` (R7, R52, R63). -/
def State.hostStore16 (s : State) (a : Word) (v : Half) : State :=
  (s.storeByte (a.toNat + coefEndian.lowAt) (v.extractLsb' 0 8)).storeByte (a.toNat + coefEndian.highAt) (v.extractLsb' 8 8)

/-- A host access to memory, `size` (1 or 2) bytes at `a`, that leaves `t`: a 2-byte access needs an even address (R63), and the
bytes of the register block are not memory (R32, U9; log 12). -/
def memoryAccess (map : MemMap) (a : Word) (size : Nat) (t : State) : Host.Outcome State Fault Refusal :=
  if a.toNat % size ≠ 0 then .refused (.hostMisaligned a)
  else if map.inRegisterBlock a.toNat || map.inRegisterBlock ((a.toNat + (size - 1) : Nat) : Int) then
    .refused (.registerBlockAccess a size)
  else .next t

/-! ### One action -/

/-- An action of the host, in a state whose `host` already lacks it; `again` is the state that keeps it (the host goes on
waiting). -/
def hostAction (act : HostAction) (again s : State) : Host.Outcome State Fault Refusal :=
  match act with
  | .wr r v => .next (s.writeReg r v)
  | .rd r => .next (s.hostReadReg r)
  | .mmio offset size write =>
    match regAt offset size with
    | none => .refused (.badRegisterAccess offset size)
    | some r =>
      match write with
      | some v => .next (s.writeReg r v)
      | none => .next (s.hostReadReg r)
  | .wait => .next (if s.status.busy then again else s.sawStatus)
  | .waitIrq => .next (if irq s then s else again)
  | .st8 a v => memoryAccess s.memMap a 1 (s.storeByte a.toNat v)
  | .st16 a v => memoryAccess s.memMap a 2 (s.hostStore16 a v)
  | .ld8 a => memoryAccess s.memMap a 1 (s.hostLoad8 a)
  | .ld16 a => memoryAccess s.memMap a 2 (s.hostLoad16 a)

/-- The host's step: its next action; with none left the host does nothing (R41, R98). -/
def hostStep (s : State) : Host.Outcome State Fault Refusal :=
  match s.host with
  | [] => .next s
  | act :: rest => hostAction act s { s with host := rest }

end Sys2Proof.Machine
end

