-- ==== Sys2Proof/Machine/Step.lean ====
section
/-! DEFINITION. One step of the machine (10_state R41): the engine, the host or the reset input moves. -/

namespace Sys2Proof.Machine

/-- The engine's step, the completion of the command in flight (R44): its word is decoded now, not at acceptance (R26, R43). -/
def engineStep (s : State) : Host.Outcome State Fault Refusal :=
  match s.cur with
  | none => .fault .noCommandInFlight
  | some c =>
    match decode c.word with
    | .ok i => exec i s
    | .error _ => .next (illegalCommand c s)

/-- The engine's turn: its step is enabled exactly when BUSY = 1 (R44). -/
def engineTurn (s : State) : Host.Outcome State Fault Refusal :=
  if s.status.busy then engineStep s else .next s

/-- One step. Who moves is the head of `turns`; with none listed, the engine when BUSY = 1, else the host (R41, R270; log 3). -/
def step (s : State) : Host.Outcome State Fault Refusal :=
  match s.turns with
  | [] => if s.status.busy then engineStep s else hostStep s
  | .engine :: ts => engineTurn { s with turns := ts }
  | .host :: ts => hostStep { s with turns := ts }
  | .hardReset :: ts => .next (State.resetEngine { s with turns := ts })

/-- `s` with the command word `w` accepted and the engine to move, so that the next step runs exactly it (log 14): the
engine fetches nothing, a command comes to run by an accepted write to CMD (R24 to R26). -/
def State.withFetchWord (s : State) (nbits w : Nat) : State :=
  let t := s.accept (BitVec.ofNat 32 (w % 2 ^ nbits))
  { t with turns := .engine :: s.turns }

end Sys2Proof.Machine
end

