-- ==== Sys2Proof/Machine/Asm.lean ====
section
/-! DEFINITION. The assembler text of a command (30_encoding R97) and the pseudo-instructions SETUP, RUN, MC.EPEL, MC.BILIN
(R99). -/

namespace Sys2Proof.Machine

/-- A dot-suffix and a decimal. -/
def suffix (n : Nat) : String := "." ++ toString n

/-- An operand after a comma. -/
def operand (n : Nat) : String := ", " ++ toString n

/-- The text of a normal loop filter, `.UV` for the two-plane form (R97). -/
def filterText (name : String) (n : EdgeSpan) (pair : Bool) (e i hev : Byte) : String :=
  name ++ suffix n.positions ++ (if pair then ".UV " else " ") ++ toString e.toNat ++ operand i.toNat ++ operand hev.toNat

/-- The text of a block command: mnemonic, width, height, further operands (R97). -/
def blockText (name : String) (w : Width) (h : BitVec 6) (rest : String) : String :=
  name ++ suffix w.cols ++ " " ++ toString h.toNat ++ rest

/-- The textual form of a command (R97), operands in decimal. -/
def asmText : Instr → String
  | .fill w h val => blockText "FILL" w h (operand val.toNat)
  | .clr1 => "CLR1"
  | .clr24 => "CLR24"
  | .copy w h => blockText "COPY" w h ""
  | .epelV4 w h my => blockText "EPEL_V4" w h (operand my.toNat)
  | .epelV6 w h my => blockText "EPEL_V6" w h (operand my.toNat)
  | .epelH4 w h mx => blockText "EPEL_H4" w h (operand mx.toNat)
  | .epelH4V4 w h mx my => blockText "EPEL_H4V4" w h (operand mx.toNat ++ operand my.toNat)
  | .epelH4V6 w h mx my => blockText "EPEL_H4V6" w h (operand mx.toNat ++ operand my.toNat)
  | .epelH6 w h mx => blockText "EPEL_H6" w h (operand mx.toNat)
  | .epelH6V4 w h mx my => blockText "EPEL_H6V4" w h (operand mx.toNat ++ operand my.toNat)
  | .epelH6V6 w h mx my => blockText "EPEL_H6V6" w h (operand mx.toNat ++ operand my.toNat)
  | .bilinV w h my => blockText "BILIN_V" w h (operand my.toNat)
  | .bilinH w h mx => blockText "BILIN_H" w h (operand mx.toNat)
  | .bilinHV w h mx my => blockText "BILIN_HV" w h (operand mx.toNat ++ operand my.toNat)
  | .idctAdd => "IDCT_ADD"
  | .idctDcAdd => "IDCT_DC_ADD"
  | .idctDcAdd4y => "IDCT_DC_ADD4Y"
  | .idctDcAdd4uv => "IDCT_DC_ADD4UV"
  | .wht => "WHT"
  | .whtDc => "WHT_DC"
  | .lfsV n e => "LFS_V" ++ suffix n.positions ++ " " ++ toString e.toNat
  | .lfsH n e => "LFS_H" ++ suffix n.positions ++ " " ++ toString e.toNat
  | .lfiV n pair e i hev => filterText "LFI_V" n pair e i hev
  | .lfiH n pair e i hev => filterText "LFI_H" n pair e i hev
  | .lfmV n pair e i hev => filterText "LFM_V" n pair e i hev
  | .lfmH n pair e i hev => filterText "LFM_H" n pair e i hev

/-- `CMD <command>`: write the encoded word to CMD (R98). -/
def cmdAction (i : Instr) : HostAction := .wr .cmd (encode i)

/-- `SETUP dst, dstride, aux, sstride` (R99). -/
def setup (dst dstride aux sstride : Word) : List HostAction :=
  [.wr .x0 dst, .wr .x1 dstride, .wr .x2 aux, .wr .x3 sstride]

/-- `RUN <command>` (R99). -/
def run (i : Instr) : List HostAction := [cmdAction i, .wait]

/-- The tap count that goes with an offset: none for 0, 4 for odd, 6 for even and non-zero (R99). -/
def offsetOdd (s : BitVec 3) : Bool := decide (s.toNat % 2 = 1)

/-- `MC.EPEL.<W> <H>, <mx>, <my>` (R99). -/
def mcEpel (w : Width) (h : BitVec 6) (mx my : BitVec 3) : Instr :=
  if mx = 0 then
    (if my = 0 then .copy w h else if offsetOdd my then .epelV4 w h my else .epelV6 w h my)
  else if my = 0 then (if offsetOdd mx then .epelH4 w h mx else .epelH6 w h mx)
  else if offsetOdd mx then (if offsetOdd my then .epelH4V4 w h mx my else .epelH4V6 w h mx my)
  else (if offsetOdd my then .epelH6V4 w h mx my else .epelH6V6 w h mx my)

/-- `MC.BILIN.<W> <H>, <mx>, <my>` (R99). -/
def mcBilin (w : Width) (h : BitVec 6) (mx my : BitVec 3) : Instr :=
  if mx = 0 then (if my = 0 then .copy w h else .bilinV w h my)
  else if my = 0 then .bilinH w h mx
  else .bilinHV w h mx my

end Sys2Proof.Machine
end

