-- ==== Sys2Proof/Safety.lean ====
section
/-! DEFINITION. The terms claims about the machine are stated in: sets of addresses as the spec's rules give them, what a
command needs in order to complete, what completion and a fault leave, and the invariant of a run. -/

namespace Sys2Proof.Machine

/-! ### Sets of addresses (R15, R53, R54) -/

/-- The engine may access `a`: it is in `0 .. 2^AW - 1` (R58) and in `MEM_VALID` (R59). -/
def Accessible (s : State) (a : Int) : Prop :=
  0 ≤ a ∧ a < (Config.addrLimit : Int) ∧ memValid s.memMap a = true

/-- `a` is a sample of the `w × h` block at `base` (R53). -/
def InBlock (base stride : Int) (w h : Nat) (a : Int) : Prop :=
  ∃ y x : Nat, y < h ∧ x < w ∧ a = base + y * stride + x

/-- `a` is in the source rectangle of an interpolation command that needs `top`, `bot` more rows and `left`, `right` more
columns around the block (R143, R175). -/
def InWindow (c : InFlight) (top bot left right w h : Nat) (a : Int) : Prop :=
  ∃ y x : Int, -(top : Int) ≤ y ∧ y < (h : Int) + bot ∧ -(left : Int) ≤ x ∧ x < (w : Int) + right ∧
    a = c.aux + y * c.sstride + x

/-- `a` is one of `n` bytes from `base`. -/
def InBytes (base : Int) (n : Nat) (a : Int) : Prop := base ≤ a ∧ a < base + n

/-- `a` is a byte of one of the four DC coefficients at AUX, 32 bytes apart (R54, R187, R188). -/
def InFourDc (c : InFlight) (a : Int) : Prop := ∃ k : Nat, k < 4 ∧ InBytes (c.aux + 32 * k) 2 a

/-- `a` is a byte of one of the 16 DC slots of the array at DST (R189). -/
def InSlots (c : InFlight) (a : Int) : Prop := ∃ k : Nat, k < 16 ∧ InBytes (c.dst + 32 * k) 2 a

/-- `a` is the address of a tap `klo .. khi` of one of the `n` positions of the plane at `base` (R201, R211). -/
def InTaps (d : Direction) (base stride : Int) (n : Nat) (klo khi : Int) (a : Int) : Prop :=
  ∃ (i : Nat) (k : Int), i < n ∧ klo ≤ k ∧ k ≤ khi ∧ a = tapAddr d base stride i k

/-- `abs(S) >= RW` (R57). -/
def StrideCovers (stride : Int) (w : Nat) : Prop := (w : Int) ≤ |stride|

/-! ### What completion and a fault leave (R44, R232) -/

/-- Command `c` is in flight, the host has kept its footprint duty (R266), and memory is in canonical form. -/
def Running (s : State) (c : InFlight) : Prop :=
  s.cur = some c ∧ s.breached = false ∧ s.mem.wf = true

/-- The state a normal completion of `c` leaves, with memory `m`: every field not named here is as before (R44). -/
def State.completedWith (s : State) (c : InFlight) (m : Memory) : State :=
  { s with
    mem := m
    cur := none
    duties := c :: s.duties
    status := { s.status with busy := false, done := true } }

/-- The state a fault of `c` leaves: every field not named here, memory among them, is as before (R232). -/
def State.faultedWith (s : State) (c : InFlight) (k : FaultCause) : State :=
  { s with
    cur := none
    duties := c :: s.duties
    status := { s.status with busy := false, err := true, cause := some k }
    errinfo := c.word }

/-- The command completes: a next state in which only memory, `cur`, `duties`, BUSY and DONE differ; memory stays canonical,
the written addresses `W` are read as `R` says, and every other byte is as before. -/
def CompletesWith (o : Host.Outcome State Fault Refusal) (s : State) (c : InFlight) (W : Int → Prop)
    (R : Memory → Prop) : Prop :=
  ∃ m : Memory, o = .next (s.completedWith c m) ∧ m.wf = true ∧ R m ∧
    ∀ a : Nat, ¬ W a → m.read a = s.mem.read a

/-! ### The footprint duty (R266) -/

/-- The host must not read `a`: it is in the write footprint of the command in flight, or of a completed command whose
completion the host has not read. -/
def State.Pending (s : State) (a : Int) : Prop :=
  (∃ c, s.status.busy = true ∧ s.cur = some c ∧ spansHave c.wf a = true) ∨ ∃ d ∈ s.duties, spansHave d.wf a = true

/-! ### Reset -/

/-- The host's action is a soft reset: a write to CTRL with SRST = 1 (R30, R261). -/
def HostAction.asksReset : HostAction → Bool
  | .wr .ctrl v => softResetBit v
  | .mmio offset size (some v) => decide (regAt offset size = some .ctrl) && softResetBit v
  | _ => false

/-- The host's next action is a soft reset. -/
def State.hostAsksReset (s : State) : Bool :=
  match s.host with
  | act :: _ => act.asksReset
  | [] => false

/-- The next step is a reset, hard or soft. -/
def State.resetNext (s : State) : Bool :=
  match s.turns with
  | .hardReset :: _ => true
  | .engine :: _ => false
  | .host :: _ => s.hostAsksReset
  | [] => !s.status.busy && s.hostAsksReset

/-! ### What memory holds after a command -/

/-- The `w × h` block at `base` holds the samples `f` (R53). -/
def BlockHolds (m : Memory) (base stride : Int) (w h : Nat) (f : Nat → Nat → Int) : Prop :=
  ∀ y x b : Nat, y < h → x < w → (b : Int) = base + y * stride + x → ((m.read b).toNat : Int) = f y x

/-- Every byte of `n` from `base` on is zero. -/
def ZeroBytes (m : Memory) (base : Int) (n : Nat) : Prop :=
  ∀ b : Nat, InBytes base n b → m.read b = 0

/-- `m'` is `m` after one plane was filtered (R209, R210): all eight taps of the `n` positions hold what the filter makes of their
octet in `m`, and every byte that is no tap the kind can write is as in `m`. -/
def PlaneFiltered (kind : FilterKind) (th : Thresholds) (d : Direction) (n : Nat) (base stride : Int) (m m' : Memory) : Prop :=
  (∀ (i : Nat) (k : Int) (b : Nat), i < n → -4 ≤ k → k ≤ 3 → (b : Int) = tapAddr d base stride i k →
      ((m'.read b).toNat : Int) = (filterOctet kind th (octetAt d base stride m i)).tap k) ∧
    ∀ a : Nat, ¬ InTaps d base stride n kind.lo (kind.lo + kind.count - 1) a → m'.read a = m.read a

/-! ### When the checks fail (R233) -/

/-- An axis with a 4-tap or 6-tap pass has offset 0 (R90, R234 column 2). -/
def SelectorZero : Instr → Prop
  | .epelV4 _ _ my | .epelV6 _ _ my => my = 0
  | .epelH4 _ _ mx | .epelH6 _ _ mx => mx = 0
  | .epelH4V4 _ _ mx my | .epelH4V6 _ _ mx my | .epelH6V4 _ _ mx my | .epelH6V6 _ _ mx my => mx = 0 ∨ my = 0
  | .fill .. | .clr1 | .clr24 | .copy .. | .bilinV .. | .bilinH .. | .bilinHV .. | .idctAdd | .idctDcAdd | .idctDcAdd4y
  | .idctDcAdd4uv | .wht | .whtDc | .lfsV .. | .lfsH .. | .lfiV .. | .lfiH .. | .lfmV .. | .lfmH .. => False

/-- A coefficient pointer is odd: AUX, and for WHT and WHT_DC also DST (R55, R234 column 3). -/
def PointerOdd (c : InFlight) : Instr → Prop
  | .clr1 | .clr24 | .idctAdd | .idctDcAdd | .idctDcAdd4y | .idctDcAdd4uv => c.x2.toNat % 2 = 1
  | .wht | .whtDc => c.x2.toNat % 2 = 1 ∨ c.x0.toNat % 2 = 1
  | .fill .. | .copy .. | .epelV4 .. | .epelV6 .. | .epelH4 .. | .epelH4V4 .. | .epelH4V6 .. | .epelH6 .. | .epelH6V4 ..
  | .epelH6V6 .. | .bilinV .. | .bilinH .. | .bilinHV .. | .lfsV .. | .lfsH .. | .lfiV .. | .lfiH .. | .lfmV ..
  | .lfmH .. => False

/-- `abs(DSTRIDE)` is below the width of a written row: `W`, 4, 16, 8, `N` or 8 (R57, R234 column 4). -/
def StrideShort (c : InFlight) : Instr → Prop
  | .fill w _ _ | .copy w _ | .epelV4 w _ _ | .epelV6 w _ _ | .epelH4 w _ _ | .epelH4V4 w _ _ _ | .epelH4V6 w _ _ _
  | .epelH6 w _ _ | .epelH6V4 w _ _ _ | .epelH6V6 w _ _ _ | .bilinV w _ _ | .bilinH w _ _ | .bilinHV w _ _ _ =>
    |c.dstride| < w.cols
  | .idctAdd | .idctDcAdd => |c.dstride| < 4
  | .idctDcAdd4y => |c.dstride| < 16
  | .idctDcAdd4uv => |c.dstride| < 8
  | .lfsV n _ | .lfiV n .. | .lfmV n .. => |c.dstride| < n.positions
  | .lfsH .. | .lfiH .. | .lfmH .. => |c.dstride| < 8
  | .clr1 | .clr24 | .wht | .whtDc => False

/-- An address lies in both of two parts of a footprint. -/
def Meet (A B : Int → Prop) : Prop := ∃ a : Int, A a ∧ B a

/-- The source and the destination of an interpolation command share a byte (R60). -/
def SourceMeetsBlock (c : InFlight) (w : Width) (h : BitVec 6) (top bot left right : Nat) : Prop :=
  Meet (InWindow c top bot left right w.cols h.toNat) (InBlock c.dst c.dstride w.cols h.toNat)

/-- Parts A and B of the footprint share a byte (R60, R234 column 5). -/
def PartsMeet (c : InFlight) : Instr → Prop
  | .copy w h => SourceMeetsBlock c w h 0 0 0 0
  | .epelV4 w h _ => SourceMeetsBlock c w h 1 2 0 0
  | .epelV6 w h _ => SourceMeetsBlock c w h 2 3 0 0
  | .epelH4 w h _ => SourceMeetsBlock c w h 0 0 1 2
  | .epelH4V4 w h _ _ => SourceMeetsBlock c w h 1 2 1 2
  | .epelH4V6 w h _ _ => SourceMeetsBlock c w h 2 3 1 2
  | .epelH6 w h _ => SourceMeetsBlock c w h 0 0 2 3
  | .epelH6V4 w h _ _ => SourceMeetsBlock c w h 1 2 2 3
  | .epelH6V6 w h _ _ => SourceMeetsBlock c w h 2 3 2 3
  | .bilinV w h _ => SourceMeetsBlock c w h 0 1 0 0
  | .bilinH w h _ => SourceMeetsBlock c w h 0 0 0 1
  | .bilinHV w h _ _ => SourceMeetsBlock c w h 0 1 0 1
  | .idctAdd => Meet (InBytes c.aux 32) (InBlock c.dst c.dstride 4 4)
  | .idctDcAdd => Meet (InBytes c.aux 2) (InBlock c.dst c.dstride 4 4)
  | .idctDcAdd4y => Meet (InFourDc c) (InBlock c.dst c.dstride 16 4)
  | .idctDcAdd4uv => Meet (InFourDc c) (InBlock c.dst c.dstride 8 8)
  | .wht => Meet (InBytes c.aux 32) (InSlots c)
  | .whtDc => Meet (InBytes c.aux 2) (InSlots c)
  | .fill .. | .clr1 | .clr24 | .lfsV .. | .lfsH .. | .lfiV .. | .lfiH .. | .lfmV .. | .lfmH .. => False

/-- `a` is in the footprint `RF ∪ WF` of `i` (R15); the sets are stated in FootprintsAreTheSpecs. -/
def InFootprint (c : InFlight) (i : Instr) (a : Int) : Prop :=
  spansHave (planOf i c).rf a = true ∨ spansHave (planOf i c).wf a = true

/-- Check `k` fails for the instruction `i` with the latched operands of `c` (R55, R57 to R60, R90, R233): the table of R234,
row by row. -/
def CheckFails (s : State) (c : InFlight) (i : Instr) : FaultCause → Prop
  | .illegalCmd => i.wellFormed = false
  | .badSelector => SelectorZero i
  | .misaligned => PointerOdd c i
  | .badStride => StrideShort c i
  | .overlap => PartsMeet c i
  | .addrRange => ∃ a : Int, InFootprint c i a ∧ ¬ (0 ≤ a ∧ a < (Config.addrLimit : Int))
  | .bus => ∃ a : Int, InFootprint c i a ∧ memValid s.memMap a = false

/-! ### What the commands of a family need to complete -/

/-- What COPY, EPEL_* and BILIN_* need beyond the selector (R144, R175), for margins `top`, `bot`, `left`, `right`. -/
structure InterpReady (s : State) (c : InFlight) (w : Width) (h : BitVec 6) (top bot left right : Nat) : Prop where
  running : Running s c
  height : 1 ≤ h.toNat ∧ h.toNat ≤ 32
  stride : StrideCovers c.dstride w.cols
  source : ∀ a, InWindow c top bot left right w.cols h.toNat a → Accessible s a
  dest : ∀ a, InBlock c.dst c.dstride w.cols h.toNat a → Accessible s a
  apart : ∀ a, InWindow c top bot left right w.cols h.toNat a → ¬ InBlock c.dst c.dstride w.cols h.toNat a

/-- What an IDCT command needs (R183), for its coefficient bytes `C` and its `w × h` block. -/
structure IdctReady (s : State) (c : InFlight) (C : Int → Prop) (w h : Nat) : Prop where
  running : Running s c
  aligned : c.x2.toNat % 2 = 0
  stride : StrideCovers c.dstride w
  coefs : ∀ a, C a → Accessible s a
  pixels : ∀ a, InBlock c.dst c.dstride w h a → Accessible s a
  apart : ∀ a, C a → ¬ InBlock c.dst c.dstride w h a

/-- What WHT and WHT_DC need (R183), for `n` bytes of `dc`. -/
structure WhtReady (s : State) (c : InFlight) (n : Nat) : Prop where
  running : Running s c
  aligned : c.x2.toNat % 2 = 0 ∧ c.x0.toNat % 2 = 0
  coefs : ∀ a, InBytes c.aux n a → Accessible s a
  slots : ∀ a, InSlots c a → Accessible s a
  apart : ∀ a, InBytes c.aux n a → ¬ InSlots c a

/-- What a loop filter needs for one plane at `base` (R212). -/
structure PlaneReady (s : State) (c : InFlight) (d : Direction) (n : Nat) (base : Int) : Prop where
  running : Running s c
  stride : StrideCovers c.dstride (match d with | .v => n | .h => 8)
  taps : ∀ a, InTaps d base c.dstride n (-4) 3 a → Accessible s a

/-! ### The invariant of a run -/

/-- What holds in every state of a run: memory is canonical; BUSY says exactly whether `cur` is valid, and CMD shows its word
(R20 (c), R27); no two of BUSY, DONE, ERR are 1 together (R28); CAUSE and ERRINFO are zero unless ERR is 1 (R28, R31), and
then ERRINFO is the last accepted word. -/
structure State.Inv (s : State) : Prop where
  mem_wf : s.mem.wf = true
  busy_iff : s.status.busy = s.cur.isSome
  cmd_shows : ∀ c, s.cur = some c → s.cmd = c.word
  busy_done : ¬ (s.status.busy = true ∧ s.status.done = true)
  busy_err : ¬ (s.status.busy = true ∧ s.status.err = true)
  done_err : ¬ (s.status.done = true ∧ s.status.err = true)
  cause_iff : s.status.cause.isSome = s.status.err
  errinfo_zero : s.status.err = false → s.errinfo = 0
  errinfo_cmd : s.status.err = true → s.errinfo = s.cmd
  breach_busy : s.breached = true → s.status.busy = true

/-- Two memories hold the same bytes at the addresses of a footprint. -/
def AgreeOn (m m' : Memory) (l : List Span) : Prop :=
  ∀ a : Nat, spansHave l a = true → m.read a = m'.read a

end Sys2Proof.Machine
end

