-- ==== Sys2Proof/Certificates/Slice0/Obligations.lean ====
section
/-! DEFINITION. The statements for the provers. Each docstring names the rules of spec/ it formalises; where a statement rests on a
choice of the model, the docstring names the log entry. -/

open Sys2Proof Sys2Proof.Machine

/-! ### Encoding (30_encoding) -/

/-- R81 to R92, R97: the decoder reads back every well-formed command from its word, with every operand. -/
def Obligations.DecodeOfEncode : Prop :=
  ∀ i : Instr, i.wellFormed = true → decode (encode i) = .ok i

/-- R94: a word that decodes is the word of exactly the command it decodes to, and that command is well formed. -/
def Obligations.EncodeOfDecode : Prop :=
  ∀ (w : Word) (i : Instr), decode w = .ok i → encode i = w ∧ i.wellFormed = true

/-- R101: the decoder accepts exactly the words that are legal for some row of spec/opcode_table.json, and names that row. -/
def Obligations.DecodeAcceptsTheTable : Prop :=
  ∀ w : Word,
    (∀ i, decode w = .ok i → ∃ r ∈ opcodeTable, r.legal w = true ∧ r.mnemonic = i.mnemonic) ∧
      ∀ r ∈ opcodeTable, r.legal w = true → ∃ i, decode w = .ok i ∧ i.mnemonic = r.mnemonic

/-- R100: the worked encodings, from the command to its word and back. -/
def Obligations.WorkedEncodings : Prop :=
  ∀ p ∈ ([
      (0x0520007F, .fill .w8 8 0x7F), (0x064000FF, .fill .w16 16 0xFF), (0x40100000, .copy .w4 4),
      (0x42800000, .copy .w16 32), (0x50108000, .epelH4 .w4 4 1), (0x61048000, .epelH6 .w8 1 1),
      (0x49202000, .epelV6 .w8 8 2), (0x6A424000, .epelH6V6 .w16 16 4 4), (0x5911E000, .epelH4V6 .w8 4 3 6),
      (0x89218000, .bilinH .w8 8 3), (0x84105000, .bilinV .w4 4 5), (0x8E439000, .bilinHV .w16 16 7 1),
      (0x08000000, .clr1), (0x0C000000, .clr24), (0xC0000000, .idctAdd), (0xC4000000, .idctDcAdd),
      (0xC8000000, .idctDcAdd4y), (0xCC000000, .idctDcAdd4uv), (0xD0000000, .wht), (0xD4000000, .whtDc),
      (0xE20A0000, .lfsV .n16 10), (0xE6140000, .lfsH .n16 20), (0xE91E0A02, .lfiV .n8 true 30 10 2),
      (0xEE240900, .lfiH .n16 false 36 9 0), (0xF1280C01, .lfmV .n8 true 40 12 1),
      (0xF6C13F04, .lfmH .n16 false 193 63 4)] : List (Word × Instr)),
    encode p.2 = p.1 ∧ decode p.1 = .ok p.2

/-- R93 with R85: a word that no row of the table admits is accepted by CMD and completes with ILLEGAL_CMD, whatever the
registers hold, and nothing else changes; the 37 reserved opcodes, the all-zero and the all-one word are such words. -/
def Obligations.IllegalWordsFault : Prop :=
  (∀ (s : State) (w : Word), s.status.busy = false → s.status.err = false → (∀ r ∈ opcodeTable, r.legal w = false) →
      s.writeCmd w = s.accept w ∧
        engineTurn (s.writeCmd w) =
          .next ((s.accept w).faultedWith { word := w, x0 := s.x0, x1 := s.x1, x2 := s.x2, x3 := s.x3 } .illegalCmd)) ∧
    (∀ w : Word, (opcOf w).toNat ∈ ([0x00] ++ List.range' 0x04 12 ++ [0x13, 0x17] ++ List.range' 0x1B 6 ++
        List.range' 0x24 12 ++ [0x36, 0x37, 0x3E, 0x3F]) → ∀ r ∈ opcodeTable, r.legal w = false) ∧
    (∀ r ∈ opcodeTable, r.legal 0x00000000 = false ∧ r.legal 0xFFFFFFFF = false)

/-! ### The step (10_state R41 to R44) -/

/-- R44, R43: the engine's step runs the command the word in flight decodes to; with no turn listed, or with the engine's turn
next. A word placed by `withFetchWord` is accepted and run the same way (log 14). -/
def Obligations.StepRunsTheCommand : Prop :=
  (∀ (s : State) (c : InFlight) (i : Instr), s.status.busy = true → s.cur = some c → decode c.word = .ok i →
      (s.turns = [] → step s = exec i s) ∧
        ∀ ts, s.turns = .engine :: ts → step s = exec i { s with turns := ts }) ∧
    ∀ (s : State) (nbits w : Nat) (i : Instr), decodeTableWord nbits w = some i →
      step (s.withFetchWord nbits w) = exec i (s.accept (BitVec.ofNat 32 (w % 2 ^ nbits)))

/-- R231, R233, R234: the cause reported is the least code among the failing checks of the command's row of R234 (`CheckFails`), and
the fault is taken with it; when no check fails, every command completes. -/
def Obligations.FirstFailingCheck : Prop :=
  ∀ (s : State) (c : InFlight) (i : Instr), Running s c →
    (∀ k, CheckFails s c i k → (∀ k', k'.code.toNat < k.code.toNat → ¬ CheckFails s c i k') →
        exec i s = .next (s.faultedWith c k)) ∧
      ((∀ k, ¬ CheckFails s c i k) → ∃ m, exec i s = .next (s.completedWith c m))

/-- R110 to R112, R143, R175, R184 to R191, R211: the read and write footprints the checks use are the spec's sets. -/
def Obligations.FootprintsAreTheSpecs : Prop :=
  ∀ (c : InFlight) (w : Width) (h : BitVec 6) (val e i hev : Byte) (mx my : BitVec 3) (n : EdgeSpan) (pair : Bool) (a : Int),
    let rf := fun j => spansHave (planOf j c).rf a = true
    let wf := fun j => spansHave (planOf j c).wf a = true
    let dst := InBlock c.dst c.dstride w.cols h.toNat a
    let src := fun (top bot left right : Nat) => InWindow c top bot left right w.cols h.toNat a
    let taps := fun (d : Direction) (klo khi : Int) => InTaps d c.dst c.dstride n.positions klo khi a ∨
      (pair = true ∧ InTaps d c.aux c.dstride n.positions klo khi a)
    (¬ rf (.fill w h val) ∧ (wf (.fill w h val) ↔ dst)) ∧
      (¬ rf .clr1 ∧ (wf .clr1 ↔ InBytes c.aux 32 a)) ∧ (¬ rf .clr24 ∧ (wf .clr24 ↔ InBytes c.aux 768 a)) ∧
      ((rf (.copy w h) ↔ src 0 0 0 0) ∧ (wf (.copy w h) ↔ dst)) ∧
      ((rf (.epelV4 w h my) ↔ src 1 2 0 0) ∧ (wf (.epelV4 w h my) ↔ dst)) ∧
      ((rf (.epelV6 w h my) ↔ src 2 3 0 0) ∧ (wf (.epelV6 w h my) ↔ dst)) ∧
      ((rf (.epelH4 w h mx) ↔ src 0 0 1 2) ∧ (wf (.epelH4 w h mx) ↔ dst)) ∧
      ((rf (.epelH4V4 w h mx my) ↔ src 1 2 1 2) ∧ (wf (.epelH4V4 w h mx my) ↔ dst)) ∧
      ((rf (.epelH4V6 w h mx my) ↔ src 2 3 1 2) ∧ (wf (.epelH4V6 w h mx my) ↔ dst)) ∧
      ((rf (.epelH6 w h mx) ↔ src 0 0 2 3) ∧ (wf (.epelH6 w h mx) ↔ dst)) ∧
      ((rf (.epelH6V4 w h mx my) ↔ src 1 2 2 3) ∧ (wf (.epelH6V4 w h mx my) ↔ dst)) ∧
      ((rf (.epelH6V6 w h mx my) ↔ src 2 3 2 3) ∧ (wf (.epelH6V6 w h mx my) ↔ dst)) ∧
      ((rf (.bilinV w h my) ↔ src 0 1 0 0) ∧ (wf (.bilinV w h my) ↔ dst)) ∧
      ((rf (.bilinH w h mx) ↔ src 0 0 0 1) ∧ (wf (.bilinH w h mx) ↔ dst)) ∧
      ((rf (.bilinHV w h mx my) ↔ src 0 1 0 1) ∧ (wf (.bilinHV w h mx my) ↔ dst)) ∧
      ((rf .idctAdd ↔ InBytes c.aux 32 a ∨ InBlock c.dst c.dstride 4 4 a) ∧ (wf .idctAdd ↔ rf .idctAdd)) ∧
      ((rf .idctDcAdd ↔ InBytes c.aux 2 a ∨ InBlock c.dst c.dstride 4 4 a) ∧ (wf .idctDcAdd ↔ rf .idctDcAdd)) ∧
      ((rf .idctDcAdd4y ↔ InFourDc c a ∨ InBlock c.dst c.dstride 16 4 a) ∧ (wf .idctDcAdd4y ↔ rf .idctDcAdd4y)) ∧
      ((rf .idctDcAdd4uv ↔ InFourDc c a ∨ InBlock c.dst c.dstride 8 8 a) ∧ (wf .idctDcAdd4uv ↔ rf .idctDcAdd4uv)) ∧
      ((rf .wht ↔ InBytes c.aux 32 a) ∧ (wf .wht ↔ InBytes c.aux 32 a ∨ InSlots c a)) ∧
      ((rf .whtDc ↔ InBytes c.aux 2 a) ∧ (wf .whtDc ↔ InBytes c.aux 2 a ∨ InSlots c a)) ∧
      (pair = false → (rf (.lfsV n e) ↔ taps .v (-4) 3) ∧ (wf (.lfsV n e) ↔ taps .v (-1) 0) ∧
        (rf (.lfsH n e) ↔ taps .h (-4) 3) ∧ (wf (.lfsH n e) ↔ taps .h (-1) 0)) ∧
      ((rf (.lfiV n pair e i hev) ↔ taps .v (-4) 3) ∧ (wf (.lfiV n pair e i hev) ↔ taps .v (-2) 1)) ∧
      ((rf (.lfiH n pair e i hev) ↔ taps .h (-4) 3) ∧ (wf (.lfiH n pair e i hev) ↔ taps .h (-2) 1)) ∧
      ((rf (.lfmV n pair e i hev) ↔ taps .v (-4) 3) ∧ (wf (.lfmV n pair e i hev) ↔ taps .v (-3) 2)) ∧
      ((rf (.lfmH n pair e i hev) ↔ taps .h (-4) 3) ∧ (wf (.lfmH n pair e i hev) ↔ taps .h (-3) 2))

/-- R232: what a fault leaves. BUSY falls, ERR and CAUSE and ERRINFO are recorded, memory and everything else is unchanged (DONE is
the 0 acceptance left); after it a write to CMD is dropped until a reset, while the registers can still be read and written. -/
def Obligations.FaultEffect : Prop :=
  ∀ (s : State) (c : InFlight) (i : Instr) (k : FaultCause), Running s c → s.status.done = false → CheckFails s c i k →
    ∃ t k', exec i s = .next t ∧ CheckFails s c i k' ∧
      t.status = { busy := false, done := false, err := true, ovr := s.status.ovr, cause := some k' } ∧
      t.errinfo = c.word ∧ t.cur = none ∧ t.mem = s.mem ∧ t.ctrl = s.ctrl ∧ t.cmd = s.cmd ∧
      t.x0 = s.x0 ∧ t.x1 = s.x1 ∧ t.x2 = s.x2 ∧ t.x3 = s.x3 ∧
      (∀ w, t.writeReg .cmd w = { t with status := { t.status with ovr := true } }) ∧
      (∀ w, (t.writeReg .x0 w).readReg .x0 = w ∧ (t.writeReg .x1 w).readReg .x1 = w ∧
        (t.writeReg .x2 w).readReg .x2 = w ∧ (t.writeReg .x3 w).readReg .x3 = w) ∧
      t.resetEngine.status.err = false

/-- R90: offset 0 on an axis with a 4-tap or 6-tap pass faults with BAD_SELECTOR, for a legal word of each of the eight EPEL
commands; the bilinear commands and COPY never do. -/
def Obligations.SelectorZeroFaults : Prop :=
  ∀ (s : State) (c : InFlight) (w : Width) (h : BitVec 6) (mx my : BitVec 3), Running s c → heightLegal h = true →
    exec (.epelH4 w h 0) s = .next (s.faultedWith c .badSelector) ∧
      exec (.epelH6 w h 0) s = .next (s.faultedWith c .badSelector) ∧
      exec (.epelV4 w h 0) s = .next (s.faultedWith c .badSelector) ∧
      exec (.epelV6 w h 0) s = .next (s.faultedWith c .badSelector) ∧
      (mx = 0 ∨ my = 0 →
        exec (.epelH4V4 w h mx my) s = .next (s.faultedWith c .badSelector) ∧
          exec (.epelH4V6 w h mx my) s = .next (s.faultedWith c .badSelector) ∧
          exec (.epelH6V4 w h mx my) s = .next (s.faultedWith c .badSelector) ∧
          exec (.epelH6V6 w h mx my) s = .next (s.faultedWith c .badSelector)) ∧
      ∀ t, t.status.cause = some .badSelector → s.status.cause ≠ some .badSelector →
        exec (.bilinH w h mx) s ≠ .next t ∧ exec (.bilinV w h my) s ≠ .next t ∧ exec (.bilinHV w h mx my) s ≠ .next t ∧
          exec (.copy w h) s ≠ .next t

/-- R270, R44: with a command in flight the engine's step is enabled and completes it, with DONE or with ERR and never both; no
command stops the machine. The invariant says that BUSY = 1 means a command is in flight. -/
def Obligations.CommandsAlwaysComplete : Prop :=
  (∀ (s : State) (i : Instr), s.cur.isSome = true → ∃ t, exec i s = .next t ∧ t.cur = none ∧ t.status.busy = false) ∧
    ∀ s : State, s.Inv → s.status.busy = true →
      ∃ t, engineTurn s = .next t ∧ t.status.busy = false ∧ t.cur = none ∧ (t.status.done = !t.status.err)

/-- R26: a write to CMD with BUSY = 0 and ERR = 0 latches word and operands, clears DONE and sets BUSY; any other is dropped and
only sets OVR. (`breached` is the model's own field: log 6.) -/
def Obligations.CommandWriteAcceptance : Prop :=
  ∀ (s : State) (w : Word),
    (s.status.busy = false → s.status.err = false →
        s.writeReg .cmd w =
          { s with
            cur := some { word := w, x0 := s.x0, x1 := s.x1, x2 := s.x2, x3 := s.x3 }
            cmd := w
            status := { busy := true, done := false, err := false, ovr := s.status.ovr, cause := s.status.cause }
            breached := false }) ∧
      (s.status.busy = true ∨ s.status.err = true →
        s.writeReg .cmd w = { s with status := { s.status with ovr := true } })

/-- R27, R36: whatever the host does while a command is in flight, short of a reset, the five latched values stay; and what the
command does is decided by them, not by the live registers. -/
def Obligations.LatchedWhileBusy : Prop :=
  (∀ s t : State, s.status.busy = true → s.hostAsksReset = false → hostStep s = .next t →
      t.cur = s.cur ∧ t.status.busy = true) ∧
    ∀ (s t : State) (i : Instr) (a0 a1 a2 a3 : Word), exec i s = .next t →
      exec i { s with x0 := a0, x1 := a1, x2 := a2, x3 := a3 } = .next { t with x0 := a0, x1 := a1, x2 := a2, x3 := a3 }

/-! ### Registers (10_state R21 to R40) -/

/-- R25, R28, R231, R30, R31, R23: the words the host reads from the eight registers, those of STATUS and CTRL bit by bit. R67 (b), R266:
a host read (RD) returns that word and changes nothing else, but that a read of STATUS with BUSY = 0 ends the footprint duties;
a host write (WR) is `writeReg`. (`hostReads` and `duties` are the model's own fields: logs 6, 11.) -/
def Obligations.RegisterWords : Prop :=
  ∀ s : State,
    let v := s.readReg .status
    let k := s.readReg .ctrl
    (v.getLsbD 0 = s.status.busy ∧ v.getLsbD 1 = s.status.done ∧ v.getLsbD 2 = s.status.err ∧ v.getLsbD 3 = s.status.ovr ∧
        v.extractLsb' 4 4 = 0 ∧ v.extractLsb' 12 20 = 0) ∧
      (v.extractLsb' 8 4).toNat = (match s.status.cause with
        | none => 0
        | some .illegalCmd => 1
        | some .badSelector => 2
        | some .misaligned => 3
        | some .badStride => 4
        | some .overlap => 5
        | some .addrRange => 6
        | some .bus => 7) ∧
      (k.getLsbD 0 = s.ctrl.ieDone ∧ k.getLsbD 1 = s.ctrl.ieErr ∧ k.extractLsb' 2 30 = 0) ∧
      (s.readReg .errinfo = s.errinfo ∧ s.readReg .cmd = s.cmd ∧ s.readReg .x0 = s.x0 ∧ s.readReg .x1 = s.x1 ∧
        s.readReg .x2 = s.x2 ∧ s.readReg .x3 = s.x3) ∧
      (∀ w, s.writeReg .errinfo w = s) ∧
      ∀ (again : State) (r : HostReg),
        hostAction (.rd r) again s = .next { s with
          hostReads := s.readReg r :: s.hostReads
          duties := if r = .status ∧ s.status.busy = false then [] else s.duties } ∧
        ∀ w, hostAction (.wr r w) again s = .next (s.writeReg r w)

/-- R29: a write of `v` to STATUS clears DONE if bit 1 is 1 and OVR if bit 3 is 1, and does nothing else. -/
def Obligations.StatusWrite : Prop :=
  ∀ (s : State) (v : Word),
    s.writeReg .status v =
      { s with
        status :=
          { busy := s.status.busy
            done := if v.getLsbD 1 = true then false else s.status.done
            err := s.status.err
            ovr := if v.getLsbD 3 = true then false else s.status.ovr
            cause := s.status.cause } }

/-- R30: CTRL keeps bits 0 and 1 of a write with SRST = 0 and reads zero elsewhere; a write with SRST = 1 is the reset, whatever
its other bits are, and leaves CTRL at its reset value. -/
def Obligations.CtrlWrite : Prop :=
  ∀ (s : State) (v : Word),
    (v.getLsbD 31 = false → (s.writeReg .ctrl v).readReg .ctrl = v &&& 3 ∧
        { s.writeReg .ctrl v with ctrl := s.ctrl } = s) ∧
      (v.getLsbD 31 = true → s.writeReg .ctrl v = s.resetEngine ∧ (s.writeReg .ctrl v).readReg .ctrl = 0)

/-- R23: the host reads and writes X0 to X3 at any time, a write touches nothing else (the command in flight included), and no
command writes them; after reset they read 0. -/
def Obligations.OperandRegisters : Prop :=
  (∀ (s : State) (v : Word),
      ((s.writeReg .x0 v).readReg .x0 = v ∧ { s.writeReg .x0 v with x0 := s.x0 } = s) ∧
        ((s.writeReg .x1 v).readReg .x1 = v ∧ { s.writeReg .x1 v with x1 := s.x1 } = s) ∧
        ((s.writeReg .x2 v).readReg .x2 = v ∧ { s.writeReg .x2 v with x2 := s.x2 } = s) ∧
        ((s.writeReg .x3 v).readReg .x3 = v ∧ { s.writeReg .x3 v with x3 := s.x3 } = s)) ∧
    (∀ s t : State, engineTurn s = .next t → t.x0 = s.x0 ∧ t.x1 = s.x1 ∧ t.x2 = s.x2 ∧ t.x3 = s.x3) ∧
    ∀ s : State, s.resetEngine.readReg .x0 = 0 ∧ s.resetEngine.readReg .x1 = 0 ∧ s.resetEngine.readReg .x2 = 0 ∧
      s.resetEngine.readReg .x3 = 0

/-- R32, U9: the eight offsets of the register block act as their registers; every other access to the block is refused, a memory
access to one of its bytes too (log 12). R32, R65, R59: the 32 bytes at MMIO_BASE are outside MEM_VALID, which is otherwise the
platform's regions, and a command whose footprint touches them, all its other checks passing, faults with BUS. -/
def Obligations.RegisterBlock : Prop :=
  (∀ (again s : State) (v : Word),
    (∀ p ∈ [(0x00, HostReg.cmd), (0x04, .status), (0x08, .ctrl), (0x0C, .errinfo), (0x10, .x0), (0x14, .x1), (0x18, .x2),
        (0x1C, .x3)],
      hostAction (.mmio p.1 4 (some v)) again s = hostAction (.wr p.2 v) again s ∧
        hostAction (.mmio p.1 4 none) again s = hostAction (.rd p.2) again s) ∧
      (∀ (offset size : Nat) (x : Option Word), (size ≠ 4 ∨ offset % 4 ≠ 0 ∨ 0x1C < offset) →
        hostAction (.mmio offset size x) again s = .refused (.badRegisterAccess offset size)) ∧
      (∀ (a : Word) (y : Byte), s.memMap.mmioBase ≤ a.toNat → a.toNat < s.memMap.mmioBase + 32 →
        hostAction (.st8 a y) again s = .refused (.registerBlockAccess a 1) ∧
          hostAction (.ld8 a) again s = .refused (.registerBlockAccess a 1)) ∧
      ∀ (a : Word) (y : Half), a.toNat % 2 = 0 → s.memMap.mmioBase ≤ a.toNat + 1 → a.toNat < s.memMap.mmioBase + 32 →
        hostAction (.st16 a y) again s = .refused (.registerBlockAccess a 2) ∧
          hostAction (.ld16 a) again s = .refused (.registerBlockAccess a 2)) ∧
    (∀ (map : MemMap) (a : Int), memValid map a = true ↔
      (∃ r ∈ map.regions, (r.base : Int) ≤ a ∧ a < r.base + r.size) ∧
        ¬ ((map.mmioBase : Int) ≤ a ∧ a < map.mmioBase + 32)) ∧
    ∀ (s : State) (c : InFlight) (i : Instr) (a : Int), Running s c → InFootprint c i a →
      (s.memMap.mmioBase : Int) ≤ a → a < s.memMap.mmioBase + 32 → (∀ k, k ≠ .bus → ¬ CheckFails s c i k) →
      exec i s = .next (s.faultedWith c .bus)

/-- R38, R237: the interrupt line is a function of STATUS and CTRL; it falls when the host clears DONE (with no fault pending),
disables the enable bits, or resets the engine. -/
def Obligations.InterruptLine : Prop :=
  ∀ s : State,
    (irq s = true ↔ (s.status.done = true ∧ s.ctrl.ieDone = true) ∨ (s.status.err = true ∧ s.ctrl.ieErr = true)) ∧
      (s.status.err = false → irq (s.writeReg .status 2) = false) ∧ irq (s.writeReg .ctrl 0) = false ∧
      irq s.resetEngine = false

/-! ### Reset (10_state R39, R40, 70_reset_and_hazards R260 to R262) -/

/-- R39: the state after reset, hard or soft, and at State.reset; memory keeps every byte but those of an aborted command. -/
def Obligations.ResetState : Prop :=
  (∀ s : State, s = State.reset ∨ (∃ t, s = State.resetEngine t) →
      s.x0 = 0 ∧ s.x1 = 0 ∧ s.x2 = 0 ∧ s.x3 = 0 ∧ s.cmd = 0 ∧ s.readReg .status = 0 ∧ s.readReg .ctrl = 0 ∧
        s.errinfo = 0 ∧ s.cur = none ∧ irq s = false) ∧
    ∀ (s : State) (a : Nat), s.mem.wf = true →
      (∀ c, s.status.busy = true → s.cur = some c → spansHave c.wf a = false) → s.resetEngine.mem.read a = s.mem.read a

/-- R260, R261: in any state, a write to CTRL with bit 31 set is exactly the reset, its other bits discarded, as is the platform's
reset input; the host's program goes on from where it was (R24). -/
def Obligations.SoftAndHardReset : Prop :=
  ∀ (s : State) (v : Word) (ts : List Turn) (rest : List HostAction), v.getLsbD 31 = true →
    hostStep { s with host := .wr .ctrl v :: rest } = .next (State.resetEngine { s with host := rest }) ∧
      step { s with turns := .hardReset :: ts } = .next (State.resetEngine { s with turns := ts }) ∧
      s.resetEngine.host = s.host

/-- R262: a reset while BUSY = 1 discards the command: no DONE, no ERR, no `cur`, and it never completes. Bytes outside its write
footprint are unchanged; each byte inside is a free value (log 5). -/
def Obligations.AbortedCommand : Prop :=
  ∀ (s : State) (c : InFlight), s.status.busy = true → s.cur = some c → s.mem.wf = true →
    s.resetEngine.cur = none ∧ s.resetEngine.status.done = false ∧ s.resetEngine.status.err = false ∧
      engineTurn s.resetEngine = .next s.resetEngine ∧
      (∀ a : Nat, spansHave c.wf a = false → s.resetEngine.mem.read a = s.mem.read a) ∧
      ∀ a : Nat, a < Config.addrLimit → spansHave c.wf a = true →
        ∃ n, s.freeIx ≤ n ∧ n < s.resetEngine.freeIx ∧ s.resetEngine.mem.read a = Config.freeByte n

/-- R40: ERR, CAUSE and ERRINFO are cleared by reset and by nothing else: no other step changes them once ERR = 1. -/
def Obligations.ErrClearedOnlyByReset : Prop :=
  (∀ s t : State, s.Inv → s.status.err = true → s.resetNext = false → step s = .next t →
      t.status.err = true ∧ t.status.cause = s.status.cause ∧ t.errinfo = s.errinfo) ∧
    ∀ s : State, s.resetEngine.status.err = false ∧ s.resetEngine.status.cause = none ∧ s.resetEngine.errinfo = 0

/-! ### Frames and invariants -/

/-- R37, R23, R42: what no command changes, whichever way it completes: every register, CTRL, OVR, the last accepted word, the
host; it writes only BUSY, DONE or the fault record (R44). No step at all changes MEM_VALID or MMIO_BASE. -/
def Obligations.CommandFrame : Prop :=
  (∀ s t : State, step s = .next t → t.memMap = s.memMap) ∧ ∀ (i : Instr) (s t : State), exec i s = .next t →
    t.x0 = s.x0 ∧ t.x1 = s.x1 ∧ t.x2 = s.x2 ∧ t.x3 = s.x3 ∧ t.cmd = s.cmd ∧ t.ctrl = s.ctrl ∧ t.host = s.host ∧
      t.memMap = s.memMap ∧ t.turns = s.turns ∧ t.hostReads = s.hostReads ∧
      t.status.ovr = s.status.ovr ∧ t.status.busy = false ∧ t.cur = none ∧
      ((t.status.done = true ∧ t.status.err = s.status.err ∧ t.status.cause = s.status.cause ∧ t.errinfo = s.errinfo) ∨
        (t.status.done = s.status.done ∧ t.status.err = true ∧ ∃ c, s.cur = some c ∧ t.errinfo = c.word))

/-- R15, R62, R266: no command changes a byte outside its write footprint, even where the host has broken its duty. -/
def Obligations.MemoryFrame : Prop :=
  ∀ (i : Instr) (s t : State) (c : InFlight), s.mem.wf = true → s.cur = some c → exec i s = .next t →
    t.mem.wf = true ∧ ∀ a : Nat, spansHave (planOf i c).wf a = false → t.mem.read a = s.mem.read a

/-- R20, R26, R28, R31, R44: every step keeps the invariant of a run. -/
def Obligations.InvariantKept : Prop :=
  ∀ s t : State, s.Inv → step s = .next t → t.Inv

/-- R39: the invariant holds at reset. -/
def Obligations.InvariantAtReset : Prop :=
  State.reset.Inv

/-- R9, R43, R230: what a command does depends on the latched record, MEM_VALID and the bytes of its read footprint alone: two
states that agree on these fault alike or leave the same bytes in the write footprint. -/
def Obligations.ResultDependsOnFootprint : Prop :=
  ∀ (i : Instr) (s s' t t' : State) (c : InFlight), Running s c → Running s' c → s.memMap = s'.memMap →
    AgreeOn s.mem s'.mem (planOf i c).rf → exec i s = .next t → exec i s' = .next t' →
    (∃ k, t = s.faultedWith c k ∧ t' = s'.faultedWith c k) ∨
      ∃ m m', t = s.completedWith c m ∧ t' = s'.completedWith c m' ∧ AgreeOn m m' (planOf i c).wf

/-! ### The host's memory accesses (20_memory R63, 70_reset_and_hazards R266) -/

/-- R63, R52: with no command in flight and no completion unread, the host's accesses outside the register block read and write the
byte array: one byte, or two at an even address, low byte first; an odd 2-byte access is refused (log 12). That they do so at every
32-bit address, whatever MEM_VALID says of it, is the model's choice (log 10); the register block's bytes are left out (log 17). -/
def Obligations.HostMemoryAccess : Prop :=
  ∀ (again s : State) (a : Word), s.mem.wf = true → s.status.busy = false → s.duties = [] →
    s.memMap.inRegisterBlock a.toNat = false →
    (∀ v, ∃ m, hostAction (.st8 a v) again s = .next { s with mem := m } ∧ m.wf = true ∧ m.read a.toNat = v ∧
        ∀ b : Nat, b ≠ a.toNat → m.read b = s.mem.read b) ∧
      hostAction (.ld8 a) again s = .next { s with hostReads := (s.mem.read a.toNat).setWidth 32 :: s.hostReads } ∧
      (a.toNat % 2 = 0 → s.memMap.inRegisterBlock (a.toNat + 1) = false →
        (∀ v : Half, ∃ m, hostAction (.st16 a v) again s = .next { s with mem := m } ∧ m.wf = true ∧
            m.read a.toNat = v.extractLsb' 0 8 ∧ m.read (a.toNat + 1) = v.extractLsb' 8 8 ∧
            ∀ b : Nat, b ≠ a.toNat → b ≠ a.toNat + 1 → m.read b = s.mem.read b) ∧
          ∃ r : Word, hostAction (.ld16 a) again s = .next { s with hostReads := r :: s.hostReads } ∧
            r.toNat = (s.mem.read a.toNat).toNat + 256 * (s.mem.read (a.toNat + 1)).toNat) ∧
      (a.toNat % 2 = 1 → hostAction (.ld16 a) again s = .refused (.hostMisaligned a) ∧
        ∀ v, hostAction (.st16 a v) again s = .refused (.hostMisaligned a))

/-- R266 (U6, log 6): a byte of the write footprint of the command in flight, or of a completed command whose completion the host has
not read, is a free value to LD8 and to LD16, each such byte one of its own; every other byte is what memory holds (a byte that is
only in the read footprint too), and nothing else changes. At every address (log 10) outside
the register block (log 17). -/
def Obligations.BrokenDutyRead : Prop :=
  ∀ (again s : State) (a : Word), s.memMap.inRegisterBlock a.toNat = false →
    let lo := s.mem.read a.toNat
    let hi := s.mem.read (a.toNat + 1)
    let read := fun (r : Word) (drawn : Nat) => { s with hostReads := r :: s.hostReads, freeIx := s.freeIx + drawn }
    let half := fun (l h : Byte) (drawn : Nat) => ∃ r : Word, r.toNat = l.toNat + 256 * h.toNat ∧
      hostAction (.ld16 a) again s = .next (read r drawn)
    (s.Pending a.toNat →
        hostAction (.ld8 a) again s = .next (read ((Config.freeByte s.freeIx).setWidth 32) 1)) ∧
      (¬ s.Pending a.toNat → hostAction (.ld8 a) again s = .next (read (lo.setWidth 32) 0)) ∧
      (a.toNat % 2 = 0 → s.memMap.inRegisterBlock (a.toNat + 1) = false →
        (s.Pending a.toNat → s.Pending (a.toNat + 1) →
            half (Config.freeByte s.freeIx) (Config.freeByte (s.freeIx + 1)) 2) ∧
          (s.Pending a.toNat → ¬ s.Pending (a.toNat + 1) → half (Config.freeByte s.freeIx) hi 1) ∧
          (¬ s.Pending a.toNat → s.Pending (a.toNat + 1) → half lo (Config.freeByte s.freeIx) 1) ∧
          (¬ s.Pending a.toNat → ¬ s.Pending (a.toNat + 1) → half lo hi 0))

/-- R266 (U6, log 6): what ST8 and ST16 do under a footprint duty, at every address (log 10) outside the register block
(log 17). A store into the footprint of a
completed command whose completion the host has not read makes its whole write footprint free values; every other byte is what the
store left, and no register changes. A store into the footprint of the command in flight leaves it in flight; it still completes,
and then its whole write footprint is free values and every other byte is as the store left it. -/
def Obligations.BrokenDutyWrite : Prop :=
  ∀ (again s : State) (a : Word) (act : HostAction) (stored : Nat → Option Byte),
    s.mem.wf = true → s.memMap.inRegisterBlock a.toNat = false →
    (∃ v, act = .st8 a v ∧ stored = fun b => if b = a.toNat then some v else none) ∨
      (∃ v : Half, act = .st16 a v ∧ a.toNat % 2 = 0 ∧ s.memMap.inRegisterBlock (a.toNat + 1) = false ∧
        stored = fun b => if b = a.toNat then some (v.extractLsb' 0 8)
          else if b = a.toNat + 1 then some (v.extractLsb' 8 8) else none) →
    let touches := fun (d : InFlight) => ∃ b : Nat, (stored b).isSome = true ∧ spansHave d.footprint b = true
    ∃ t, hostAction act again s = .next t ∧
      (∀ d ∈ s.duties, touches d → ∀ b : Nat, b < Config.addrLimit → spansHave d.wf b = true →
        ∃ n, s.freeIx ≤ n ∧ n < t.freeIx ∧ t.mem.read b = Config.freeByte n) ∧
      (∀ b : Nat, (∀ d ∈ s.duties, touches d → spansHave d.wf b = false) →
        t.mem.read b = (stored b).getD (s.mem.read b)) ∧
      { t with mem := s.mem, freeIx := s.freeIx, breached := s.breached } = s ∧
      ∀ c, s.status.busy = true → s.cur = some c → touches c →
        ∃ u, engineTurn t = .next u ∧ u.status.busy = false ∧ u.cur = none ∧
          (∀ b : Nat, spansHave c.wf b = false → u.mem.read b = t.mem.read b) ∧
          ∀ b : Nat, b < Config.addrLimit → spansHave c.wf b = true →
            ∃ n, t.freeIx ≤ n ∧ n < u.freeIx ∧ u.mem.read b = Config.freeByte n

/-- R98, R67 (b), R266: WAIT goes on waiting while BUSY = 1; when it sees BUSY = 0 the host goes on and its footprint duties end. -/
def Obligations.WaitAction : Prop :=
  ∀ (s : State) (rest : List HostAction), s.host = .wait :: rest →
    (s.status.busy = true → hostStep s = .next s) ∧
      (s.status.busy = false → hostStep s = .next { s with host := rest, duties := [] })

/-! ### The commands: where each completes and what it leaves -/

/-- FILL (R110, R53, R57): with a legal width and height, a stride that covers the row and the block accessible, it completes
and leaves VAL in every sample of the block and every other byte as before. -/
def Obligations.FillCompletes : Prop :=
  ∀ (s : State) (c : InFlight) (w : Width) (h : BitVec 6) (val : Byte), Running s c → w ≠ .w4 →
    1 ≤ h.toNat ∧ h.toNat ≤ 32 → StrideCovers c.dstride w.cols →
    (∀ a, InBlock c.dst c.dstride w.cols h.toNat a → Accessible s a) →
    CompletesWith (exec (.fill w h val) s) s c (InBlock c.dst c.dstride w.cols h.toNat)
      fun m => BlockHolds m c.dst c.dstride w.cols h.toNat fun _ _ => (val.toNat : Int)

/-- CLR1, CLR24 (R111, R112): with AUX even and the bytes accessible, they complete and leave 32 (768) zero bytes at AUX. -/
def Obligations.ClearCompletes : Prop :=
  ∀ (s : State) (c : InFlight), Running s c → c.x2.toNat % 2 = 0 →
    ((∀ a, InBytes c.aux 32 a → Accessible s a) →
        CompletesWith (exec .clr1 s) s c (InBytes c.aux 32) fun m => ZeroBytes m c.aux 32) ∧
      ((∀ a, InBytes c.aux 768 a → Accessible s a) →
        CompletesWith (exec .clr24 s) s c (InBytes c.aux 768) fun m => ZeroBytes m c.aux 768)

/-- COPY (R147, R144). -/
def Obligations.CopyCompletes : Prop :=
  ∀ (s : State) (c : InFlight) (w : Width) (h : BitVec 6), InterpReady s c w h 0 0 0 0 →
    CompletesWith (exec (.copy w h) s) s c (InBlock c.dst c.dstride w.cols h.toNat)
      fun m => BlockHolds m c.dst c.dstride w.cols h.toNat fun y x =>
        ((s.mem.read (c.aux + y * c.sstride + x).toNat).toNat : Int)

/-- EPEL_H4, EPEL_H6 (R148, R149, R142, R144), for each selector 1 to 7. The rows of TAPS for selectors 2 to 6 are the spec's
general knowledge (G1; log 7). -/
def Obligations.EpelHorizontalCompletes : Prop :=
  ∀ (s : State) (c : InFlight) (w : Width) (h : BitVec 6) (mx : BitVec 3), mx ≠ 0 →
    let F := tapRow mx
    let S := srcPx c s.mem
    (InterpReady s c w h 0 0 1 2 →
        CompletesWith (exec (.epelH4 w h mx) s) s c (InBlock c.dst c.dstride w.cols h.toNat)
          fun m => BlockHolds m c.dst c.dstride w.cols h.toNat fun y x =>
            clipU8 (asr (F.f2 * S y x - F.f1 * S y (x - 1) + F.f3 * S y (x + 1) - F.f4 * S y (x + 2) + 64) 7)) ∧
      (InterpReady s c w h 0 0 2 3 →
        CompletesWith (exec (.epelH6 w h mx) s) s c (InBlock c.dst c.dstride w.cols h.toNat)
          fun m => BlockHolds m c.dst c.dstride w.cols h.toNat fun y x =>
            clipU8 (asr (F.f2 * S y x - F.f1 * S y (x - 1) + F.f0 * S y (x - 2) + F.f3 * S y (x + 1)
              - F.f4 * S y (x + 2) + F.f5 * S y (x + 3) + 64) 7))

/-- EPEL_V4, EPEL_V6 (R150, R151, R142, R144), for each selector 1 to 7 (G1; log 7). -/
def Obligations.EpelVerticalCompletes : Prop :=
  ∀ (s : State) (c : InFlight) (w : Width) (h : BitVec 6) (my : BitVec 3), my ≠ 0 →
    let F := tapRow my
    let S := srcPx c s.mem
    (InterpReady s c w h 1 2 0 0 →
        CompletesWith (exec (.epelV4 w h my) s) s c (InBlock c.dst c.dstride w.cols h.toNat)
          fun m => BlockHolds m c.dst c.dstride w.cols h.toNat fun y x =>
            clipU8 (asr (F.f2 * S y x - F.f1 * S (y - 1) x + F.f3 * S (y + 1) x - F.f4 * S (y + 2) x + 64) 7)) ∧
      (InterpReady s c w h 2 3 0 0 →
        CompletesWith (exec (.epelV6 w h my) s) s c (InBlock c.dst c.dstride w.cols h.toNat)
          fun m => BlockHolds m c.dst c.dstride w.cols h.toNat fun y x =>
            clipU8 (asr (F.f2 * S y x - F.f1 * S (y - 1) x + F.f0 * S (y - 2) x + F.f3 * S (y + 1) x
              - F.f4 * S (y + 2) x + F.f5 * S (y + 3) x + 64) 7))

/-- EPEL_H4V4, EPEL_H4V6, EPEL_H6V4, EPEL_H6V6 (R152 to R155, R146, R144), for each pair of selectors 1 to 7: the vertical kernel
over the rounded and clamped bytes of the horizontal one (G1; log 7). `fir4` and `fir6` are stated in ClipsAndKernels. -/
def Obligations.EpelTwoPassCompletes : Prop :=
  ∀ (s : State) (c : InFlight) (w : Width) (h : BitVec 6) (mx my : BitVec 3), mx ≠ 0 → my ≠ 0 →
    let h4 := fun (y x : Int) => fir4 (tapRow mx) fun k => srcPx c s.mem y (x + k)
    let h6 := fun (y x : Int) => fir6 (tapRow mx) fun k => srcPx c s.mem y (x + k)
    let W := InBlock c.dst c.dstride w.cols h.toNat
    let holds := fun f m => BlockHolds m c.dst c.dstride w.cols h.toNat f
    (InterpReady s c w h 1 2 1 2 →
        CompletesWith (exec (.epelH4V4 w h mx my) s) s c W (holds fun y x => fir4 (tapRow my) fun k => h4 (y + k) x)) ∧
      (InterpReady s c w h 2 3 1 2 →
        CompletesWith (exec (.epelH4V6 w h mx my) s) s c W (holds fun y x => fir6 (tapRow my) fun k => h4 (y + k) x)) ∧
      (InterpReady s c w h 1 2 2 3 →
        CompletesWith (exec (.epelH6V4 w h mx my) s) s c W (holds fun y x => fir4 (tapRow my) fun k => h6 (y + k) x)) ∧
      (InterpReady s c w h 2 3 2 3 →
        CompletesWith (exec (.epelH6V6 w h mx my) s) s c W (holds fun y x => fir6 (tapRow my) fun k => h6 (y + k) x))

/-- BILIN_H, BILIN_V (R171, R172, R174, R175), for every offset 0 to 7. -/
def Obligations.BilinSinglePassCompletes : Prop :=
  ∀ (s : State) (c : InFlight) (w : Width) (h : BitVec 6) (mx my : BitVec 3),
    let S := srcPx c s.mem
    (InterpReady s c w h 0 0 0 1 →
        CompletesWith (exec (.bilinH w h mx) s) s c (InBlock c.dst c.dstride w.cols h.toNat)
          fun m => BlockHolds m c.dst c.dstride w.cols h.toNat fun y x =>
            asr ((8 - (mx.toNat : Int)) * S y x + mx.toNat * S y (x + 1) + 4) 3) ∧
      (InterpReady s c w h 0 1 0 0 →
        CompletesWith (exec (.bilinV w h my) s) s c (InBlock c.dst c.dstride w.cols h.toNat)
          fun m => BlockHolds m c.dst c.dstride w.cols h.toNat fun y x =>
            asr ((8 - (my.toNat : Int)) * S y x + my.toNat * S (y + 1) x + 4) 3)

/-- BILIN_HV (R173, R175), for every pair of offsets: two roundings, one per pass. -/
def Obligations.BilinTwoPassCompletes : Prop :=
  ∀ (s : State) (c : InFlight) (w : Width) (h : BitVec 6) (mx my : BitVec 3), InterpReady s c w h 0 1 0 1 →
    let T := fun (y x : Int) =>
      asr ((8 - (mx.toNat : Int)) * srcPx c s.mem y x + mx.toNat * srcPx c s.mem y (x + 1) + 4) 3
    CompletesWith (exec (.bilinHV w h mx my) s) s c (InBlock c.dst c.dstride w.cols h.toNat)
      fun m => BlockHolds m c.dst c.dstride w.cols h.toNat fun y x =>
        asr ((8 - (my.toNat : Int)) * T y x + my.toNat * T (y + 1) x + 4) 3

/-- IDCT_ADD (R184, R183): the 16 residuals added and clamped, the 16 coefficients zeroed. The butterfly `bf` and the transposed
16-bit intermediate are the spec's general knowledge (G2, G8; log 7). -/
def Obligations.IdctAddCompletes : Prop :=
  ∀ (s : State) (c : InFlight), IdctReady s c (InBytes c.aux 32) 4 4 →
    let C := coef c s.mem
    let tmp := fun (i k : Nat) => narrow16 ((bf (C i) (C (4 + i)) (C (8 + i)) (C (12 + i))).get k)
    CompletesWith (exec .idctAdd s) s c (fun a => InBytes c.aux 32 a ∨ InBlock c.dst c.dstride 4 4 a)
      fun m => ZeroBytes m c.aux 32 ∧ BlockHolds m c.dst c.dstride 4 4 fun y x =>
        clipU8 (dstPx c s.mem y x + asr ((bf (tmp 0 y) (tmp 1 y) (tmp 2 y) (tmp 3 y)).get x + 4) 3)

/-- IDCT_DC_ADD (R186, R185, R183): the one DC value added to 16 samples and clamped, coefficient 0 zeroed, the other 15
untouched. -/
def Obligations.IdctDcAddCompletes : Prop :=
  ∀ (s : State) (c : InFlight), IdctReady s c (InBytes c.aux 2) 4 4 →
    CompletesWith (exec .idctDcAdd s) s c (fun a => InBytes c.aux 2 a ∨ InBlock c.dst c.dstride 4 4 a)
      fun m => ZeroBytes m c.aux 2 ∧ BlockHolds m c.dst c.dstride 4 4 fun y x =>
        clipU8 (dstPx c s.mem y x + asr (cf s.mem c.aux + 4) 3)

/-- IDCT_DC_ADD4Y and IDCT_DC_ADD4UV (R187, R188, R185, R183): block `k` takes the DC value at AUX + 32k; the blocks stand side by
side in a 16×4 strip, or in raster order in an 8×8 region (G6; log 7). -/
def Obligations.IdctDcAddFourCompletes : Prop :=
  ∀ (s : State) (c : InFlight),
    let dc := fun (k : Nat) => asr (cf s.mem (c.aux + 32 * (k : Int)) + 4) 3
    (IdctReady s c (InFourDc c) 16 4 →
        CompletesWith (exec .idctDcAdd4y s) s c (fun a => InFourDc c a ∨ InBlock c.dst c.dstride 16 4 a)
          fun m => (∀ k : Nat, k < 4 → ZeroBytes m (c.aux + 32 * k) 2) ∧ BlockHolds m c.dst c.dstride 16 4 fun y x =>
            clipU8 (dstPx c s.mem y x + dc (x / 4))) ∧
      (IdctReady s c (InFourDc c) 8 8 →
        CompletesWith (exec .idctDcAdd4uv s) s c (fun a => InFourDc c a ∨ InBlock c.dst c.dstride 8 8 a)
          fun m => (∀ k : Nat, k < 4 → ZeroBytes m (c.aux + 32 * k) 2) ∧ BlockHolds m c.dst c.dstride 8 8 fun y x =>
            clipU8 (dstPx c s.mem y x + dc (2 * (y / 4) + x / 4)))

/-- WHT (R190, R189, R183): the 16 transformed values in the DC slots, `dc` zeroed. The butterfly is the spec's general knowledge
(G3, G8; log 7). -/
def Obligations.WhtCompletes : Prop :=
  ∀ (s : State) (c : InFlight), WhtReady s c 32 →
    let D := coef c s.mem
    let t := fun (r i : Nat) => narrow16 (
      if r = 0 then D i + D (12 + i) + (D (4 + i) + D (8 + i))
      else if r = 1 then D i - D (12 + i) + (D (4 + i) - D (8 + i))
      else if r = 2 then D i + D (12 + i) - (D (4 + i) + D (8 + i))
      else D i - D (12 + i) - (D (4 + i) - D (8 + i)))
    CompletesWith (exec .wht s) s c (fun a => InBytes c.aux 32 a ∨ InSlots c a)
      fun m => ZeroBytes m c.aux 32 ∧ ∀ i : Nat, i < 4 →
        cf m (c.dst + 32 * (4 * i)) = asr (t i 0 + t i 3 + (t i 1 + t i 2) + 3) 3 ∧
          cf m (c.dst + 32 * (4 * i + 1)) = asr (t i 0 - t i 3 + (t i 1 - t i 2) + 3) 3 ∧
          cf m (c.dst + 32 * (4 * i + 2)) = asr (t i 0 + t i 3 - (t i 1 + t i 2) + 3) 3 ∧
          cf m (c.dst + 32 * (4 * i + 3)) = asr (t i 0 - t i 3 - (t i 1 - t i 2) + 3) 3

/-- WHT_DC (R191, R189, R183): the one value in all 16 DC slots, `dc[0]` zeroed. -/
def Obligations.WhtDcCompletes : Prop :=
  ∀ (s : State) (c : InFlight), WhtReady s c 2 →
    CompletesWith (exec .whtDc s) s c (fun a => InBytes c.aux 2 a ∨ InSlots c a)
      fun m => ZeroBytes m c.aux 2 ∧ ∀ k : Nat, k < 16 → cf m (c.dst + 32 * k) = asr (cf s.mem c.aux + 3) 3

/-- LFS_V, LFS_H (R216, R217, R210, R212): the plane at DST filtered by the simple kind. That DST names q0 is the spec's general
knowledge (G4; log 7). `filterOctet` is stated in FilterOfAPosition. -/
def Obligations.SimpleFilterCompletes : Prop :=
  ∀ (s : State) (c : InFlight) (n : EdgeSpan) (e : Byte),
    (PlaneReady s c .v n.positions c.dst →
        CompletesWith (exec (.lfsV n e) s) s c (InTaps .v c.dst c.dstride n.positions (-1) 0)
          fun m => PlaneFiltered .simple { e, i := 0, hev := 0 } .v n.positions c.dst c.dstride s.mem m) ∧
      (PlaneReady s c .h n.positions c.dst →
        CompletesWith (exec (.lfsH n e) s) s c (InTaps .h c.dst c.dstride n.positions (-1) 0)
          fun m => PlaneFiltered .simple { e, i := 0, hev := 0 } .h n.positions c.dst c.dstride s.mem m)

/-- LFI_V, LFI_H with PAIR = 0 (R218, R219, R210, R212; G4, log 7). -/
def Obligations.InnerFilterCompletes : Prop :=
  ∀ (s : State) (c : InFlight) (n : EdgeSpan) (e i hev : Byte),
    (PlaneReady s c .v n.positions c.dst →
        CompletesWith (exec (.lfiV n false e i hev) s) s c (InTaps .v c.dst c.dstride n.positions (-2) 1)
          fun m => PlaneFiltered .inner { e, i, hev } .v n.positions c.dst c.dstride s.mem m) ∧
      (PlaneReady s c .h n.positions c.dst →
        CompletesWith (exec (.lfiH n false e i hev) s) s c (InTaps .h c.dst c.dstride n.positions (-2) 1)
          fun m => PlaneFiltered .inner { e, i, hev } .h n.positions c.dst c.dstride s.mem m)

/-- LFM_V, LFM_H with PAIR = 0 (R220, R221, R210, R212; G4, G5, log 7). -/
def Obligations.MbFilterCompletes : Prop :=
  ∀ (s : State) (c : InFlight) (n : EdgeSpan) (e i hev : Byte),
    (PlaneReady s c .v n.positions c.dst →
        CompletesWith (exec (.lfmV n false e i hev) s) s c (InTaps .v c.dst c.dstride n.positions (-3) 2)
          fun m => PlaneFiltered .mbEdge { e, i, hev } .v n.positions c.dst c.dstride s.mem m) ∧
      (PlaneReady s c .h n.positions c.dst →
        CompletesWith (exec (.lfmH n false e i hev) s) s c (InTaps .h c.dst c.dstride n.positions (-3) 2)
          fun m => PlaneFiltered .mbEdge { e, i, hev } .h n.positions c.dst c.dstride s.mem m)

/-- LFI and LFM with PAIR = 1 (R215, R218 to R221): the plane at DST, then the plane at AUX in the memory the first left; the planes
may overlap (G4, G5; log 7). -/
def Obligations.TwoPlaneFilterCompletes : Prop :=
  ∀ (s : State) (c : InFlight) (e i hev : Byte),
    let ready := fun (d : Direction) => PlaneReady s c d 8 c.dst ∧ PlaneReady s c d 8 c.aux
    let W := fun (d : Direction) (klo khi a : Int) =>
      InTaps d c.dst c.dstride 8 klo khi a ∨ InTaps d c.aux c.dstride 8 klo khi a
    let R := fun (kind : FilterKind) (d : Direction) (m : Memory) => ∃ u : Memory,
      PlaneFiltered kind { e, i, hev } d 8 c.dst c.dstride s.mem u ∧ PlaneFiltered kind { e, i, hev } d 8 c.aux c.dstride u m
    (ready .v → CompletesWith (exec (.lfiV .n8 true e i hev) s) s c (W .v (-2) 1) (R .inner .v)) ∧
      (ready .h → CompletesWith (exec (.lfiH .n8 true e i hev) s) s c (W .h (-2) 1) (R .inner .h)) ∧
      (ready .v → CompletesWith (exec (.lfmV .n8 true e i hev) s) s c (W .v (-3) 2) (R .mbEdge .v)) ∧
      (ready .h → CompletesWith (exec (.lfmH .n8 true e i hev) s) s c (W .h (-3) 2) (R .mbEdge .h))

/-! ### Arithmetic and properties -/

/-- The functions the result statements name, written out: the clips (R120, R121), the rows of TAPS (R33; rows 2, 3, 4, 6 and the place
of row 5 are general knowledge: G1, log 7), FIR4 and FIR6 (R141), BIL with its range and, by the spec's own derivation, between its
inputs (R170, R131, R176 (d)), the multipliers (R181), the butterfly (R182; G2, log 7), NARROW16 as wrap16 (R128; G8, log 7), the
coefficient in memory, low byte first (R52), the samples and coefficients of a command, and the tap addresses (R201; G4, log 7). -/
def Obligations.ClipsAndKernels : Prop :=
  (∀ v : Int, clipU8 v = (if v < 0 then 0 else if 255 < v then 255 else v) ∧ clipS8 v = clipU8 (v + 128) - 128 ∧
      clipS8 v = (if v < -128 then -128 else if 127 < v then 127 else v)) ∧
    (tapRow 1 = ⟨0, 6, 123, 12, 1, 0⟩ ∧ tapRow 2 = ⟨2, 11, 108, 36, 8, 1⟩ ∧ tapRow 3 = ⟨0, 9, 93, 50, 6, 0⟩ ∧
      tapRow 4 = ⟨3, 16, 77, 77, 16, 3⟩ ∧ tapRow 5 = ⟨0, 6, 50, 93, 9, 0⟩ ∧ tapRow 6 = ⟨1, 8, 36, 108, 11, 2⟩ ∧
      tapRow 7 = ⟨0, 1, 12, 123, 6, 0⟩) ∧
    (∀ (sel : BitVec 3) (v : Int → Int), sel ≠ 0 →
      let F := tapRow sel
      fir4 F v = clipU8 ((F.f2 * v 0 - F.f1 * v (-1) + F.f3 * v 1 - F.f4 * v 2 + 64) / 128) ∧
        fir6 F v = clipU8 ((F.f2 * v 0 - F.f1 * v (-1) + F.f0 * v (-2) + F.f3 * v 1 - F.f4 * v 2 + F.f5 * v 3 + 64) / 128)) ∧
    (∀ (m : BitVec 3) (v0 v1 : Int), 0 ≤ v0 → v0 ≤ 255 → 0 ≤ v1 → v1 ≤ 255 →
      bil m v0 v1 = ((8 - (m.toNat : Int)) * v0 + m.toNat * v1 + 4) / 8 ∧ 0 ≤ bil m v0 v1 ∧ bil m v0 v1 ≤ 255 ∧
        min v0 v1 ≤ bil m v0 v1 ∧ bil m v0 v1 ≤ max v0 v1) ∧
    (∀ x : Int, mul35468 x = x * 35468 / 65536 ∧ mul20091 x = x * 20091 / 65536 + x) ∧
    (∀ i0 i1 i2 i3 : Int,
      let t2 := i1 * 35468 / 65536 - (i3 * 20091 / 65536 + i3)
      let t3 := (i1 * 20091 / 65536 + i1) + i3 * 35468 / 65536
      (bf i0 i1 i2 i3).get 0 = i0 + i2 + t3 ∧ (bf i0 i1 i2 i3).get 1 = i0 - i2 + t2 ∧
        (bf i0 i1 i2 i3).get 2 = i0 - i2 - t2 ∧ (bf i0 i1 i2 i3).get 3 = i0 + i2 - t3) ∧
    (∀ v : Int, -32768 ≤ narrow16 v ∧ narrow16 v ≤ 32767 ∧ narrow16 v % 65536 = v % 65536) ∧
    (∀ (m : Memory) (a : Nat), -32768 ≤ cf m a ∧ cf m a ≤ 32767 ∧
      cf m a % 65536 = ((m.read a).toNat + 256 * (m.read (a + 1)).toNat : Nat)) ∧
    (∀ (c : InFlight) (m : Memory) (y x : Int) (k : Nat),
      srcPx c m y x = ((m.read (c.aux + y * c.sstride + x).toNat).toNat : Int) ∧
        dstPx c m y x = ((m.read (c.dst + y * c.dstride + x).toNat).toNat : Int) ∧ coef c m k = cf m (c.aux + 2 * k) ∧
        c.dst = c.x0.toNat ∧ c.dstride = c.x1.toInt ∧ c.aux = c.x2.toNat ∧ c.sstride = c.x3.toInt) ∧
    ∀ base stride i k : Int,
      tapAddr .v base stride i k = base + i + k * stride ∧ tapAddr .h base stride i k = base + i * stride + k

/-- R203, R204, R205: the three gates; for octets of samples the range of the edge sum, and HEVT at 255. -/
def Obligations.FilterGates : Prop :=
  ∀ (o : Octet) (l e i t : Int),
    (simpleGate o l = true ↔ 2 * |o.p0 - o.q0| + |o.p1 - o.q1| / 2 ≤ l) ∧
      (normalGate o e i = true ↔ simpleGate o e = true ∧ |o.p3 - o.p2| ≤ i ∧ |o.p2 - o.p1| ≤ i ∧ |o.p1 - o.p0| ≤ i ∧
        |o.q3 - o.q2| ≤ i ∧ |o.q2 - o.q1| ≤ i ∧ |o.q1 - o.q0| ≤ i) ∧
      (hevGate o t = true ↔ t < |o.p1 - o.p0| ∨ t < |o.q1 - o.q0|) ∧
      ((∀ k : Int, -4 ≤ k → k ≤ 3 → 0 ≤ o.tap k ∧ o.tap k ≤ 255) →
        0 ≤ 2 * |o.p0 - o.q0| + |o.p1 - o.q1| / 2 ∧ 2 * |o.p0 - o.q0| + |o.p1 - o.q1| / 2 ≤ 637 ∧ hevGate o 255 = false)

/-- R209, R206, R207, R208: what each kind makes of a position, and which samples it is made of (R201, R202; G4, log 7). The signs of the
macroblock-edge filter are the spec's general knowledge (G5; log 7). -/
def Obligations.FilterOfAPosition : Prop :=
  (∀ (th : Thresholds) (o : Octet),
    let normal := normalGate o (th.e.toNat : Int) (th.i.toNat : Int)
    let hev := hevGate o (th.hev.toNat : Int)
    let f1 := fun (a : Int) => min (a + 4) 127 / 8
    let f2 := fun (a : Int) => min (a + 3) 127 / 8
    let a := clipS8 (3 * (o.q0 - o.p0) + clipS8 (o.p1 - o.q1))
    let b := clipS8 (3 * (o.q0 - o.p0))
    let a2 := (f1 b + 1) / 2
    let common := { o with p0 := clipU8 (o.p0 + f2 a), q0 := clipU8 (o.q0 - f1 a) }
    let inner := { o with
      p0 := clipU8 (o.p0 + f2 b), q0 := clipU8 (o.q0 - f1 b), p1 := clipU8 (o.p1 + a2), q1 := clipU8 (o.q1 - a2) }
    let mb := { o with
      p0 := clipU8 (o.p0 + (27 * a + 63) / 128), q0 := clipU8 (o.q0 - (27 * a + 63) / 128)
      p1 := clipU8 (o.p1 + (18 * a + 63) / 128), q1 := clipU8 (o.q1 - (18 * a + 63) / 128)
      p2 := clipU8 (o.p2 + (9 * a + 63) / 128), q2 := clipU8 (o.q2 - (9 * a + 63) / 128) }
    filterOctet .simple th o = (if simpleGate o (th.e.toNat : Int) = true then common else o) ∧
      filterOctet .inner th o = (if normal = true then if hev = true then common else inner else o) ∧
      filterOctet .mbEdge th o = (if normal = true then if hev = true then common else mb else o)) ∧
    (∀ o : Octet, o.tap (-4) = o.p3 ∧ o.tap (-3) = o.p2 ∧ o.tap (-2) = o.p1 ∧ o.tap (-1) = o.p0 ∧
      o.tap 0 = o.q0 ∧ o.tap 1 = o.q1 ∧ o.tap 2 = o.q2 ∧ o.tap 3 = o.q3) ∧
    ∀ (d : Direction) (base stride : Int) (m : Memory) (i k : Int), -4 ≤ k → k ≤ 3 →
      (octetAt d base stride m i).tap k = ((m.read (tapAddr d base stride i k).toNat).toNat : Int)

/-- R213: the corner values of the thresholds, for octets of samples. -/
def Obligations.ThresholdCorners : Prop :=
  ∀ (o : Octet) (th : Thresholds),
    (∀ k : Int, -4 ≤ k → k ≤ 3 → 0 ≤ o.tap k ∧ o.tap k ≤ 255) →
    (th.e = 0 → (simpleGate o 0 = true ↔ o.p0 = o.q0 ∧ |o.p1 - o.q1| ≤ 1) ∧ filterOctet .simple th o = o) ∧
      (th.e = 255 → (simpleGate o (th.e.toNat : Int) = true ↔ 2 * |o.p0 - o.q0| + |o.p1 - o.q1| / 2 ≤ 255)) ∧
      (o.p3 = 0 ∧ o.p2 = 0 ∧ o.p1 = 0 ∧ o.p0 = 0 ∧ o.q0 = 255 ∧ o.q1 = 255 ∧ o.q2 = 255 ∧ o.q3 = 255 →
        ∀ kind, filterOctet kind th o = o) ∧
      (normalGate o (th.e.toNat : Int) 0 = true →
        o.p3 = o.p2 ∧ o.p2 = o.p1 ∧ o.p1 = o.p0 ∧ o.q3 = o.q2 ∧ o.q2 = o.q1 ∧ o.q1 = o.q0) ∧
      normalGate o (th.e.toNat : Int) 255 = simpleGate o (th.e.toNat : Int) ∧
      (hevGate o 0 = true ↔ ¬ (o.p1 = o.p0 ∧ o.q1 = o.q0)) ∧
      (th.hev = 255 → hevGate o (th.hev.toNat : Int) = false ∧ choose .inner th o ≠ .common ∧ choose .mbEdge th o ≠ .common)

/-- R214 (a) to (e): a failed gate changes nothing, p3 and q3 never change, each kind changes at most its own taps and stores
samples, NORMAL implies SIMPLE, and a flat position passes every gate unchanged. -/
def Obligations.FilterProperties : Prop :=
  ∀ (o : Octet) (th : Thresholds) (kind : FilterKind),
    let r := filterOctet kind th o
    (kind ≠ .simple → normalGate o (th.e.toNat : Int) (th.i.toNat : Int) = false → r = o) ∧
      (simpleGate o (th.e.toNat : Int) = false → r = o) ∧
      (r.p3 = o.p3 ∧ r.q3 = o.q3) ∧
      (∀ k : Int, -4 ≤ k → k ≤ 3 → (k < kind.lo ∨ kind.lo + kind.count - 1 < k) → r.tap k = o.tap k) ∧
      (∀ k : Int, -4 ≤ k → k ≤ 3 → r.tap k = o.tap k ∨ 0 ≤ r.tap k ∧ r.tap k ≤ 255) ∧
      (normalGate o (th.e.toNat : Int) (th.i.toNat : Int) = true → simpleGate o (th.e.toNat : Int) = true) ∧
      ∀ v : Int, 0 ≤ v → v ≤ 255 → (∀ k : Int, -4 ≤ k → k ≤ 3 → o.tap k = v) →
        normalGate o (th.e.toNat : Int) (th.i.toNat : Int) = true ∧ r = o

/-- R223, R210: one plane of span 16 is two planes of span 8 on its halves, byte for byte. -/
def Obligations.SpanSixteenIsTwoEights : Prop :=
  ∀ (kind : FilterKind) (th : Thresholds) (base stride : Int) (m : Memory), m.wf = true →
    let halves := fun (d : Direction) (rowWidth : Nat) (half : Int) =>
      StrideCovers stride rowWidth →
      (∀ a, InTaps d base stride 16 (-4) 3 a → 0 ≤ a ∧ a < (Config.addrLimit : Int)) →
      ∀ a : Nat, (filterPlane kind th d 16 base stride m).read a =
        (filterPlane kind th d 8 half stride (filterPlane kind th d 8 base stride m)).read a
    halves .v 16 (base + 8) ∧ halves .h 8 (base + 8 * stride)

/-- R156 (b), (c), R176 (a), R34 (a): a constant source is reproduced by the 6-tap commands for every selector, by a pass of 4 taps for
odd ones, in every one-pass and two-pass command, and by the bilinear commands for every offset, 0 too. The rows of TAPS are general
knowledge (G1; log 7). -/
def Obligations.ConstantsPreserved : Prop :=
  ∀ (s : State) (c : InFlight) (w : Width) (h : BitVec 6) (mx my : BitVec 3) (v : Byte),
    let constant := fun (i : Instr) (top bot left right : Nat) => InterpReady s c w h top bot left right →
      (∀ b : Nat, InWindow c top bot left right w.cols h.toNat b → s.mem.read b = v) →
      CompletesWith (exec i s) s c (InBlock c.dst c.dstride w.cols h.toNat)
        fun m => BlockHolds m c.dst c.dstride w.cols h.toNat fun _ _ => (v.toNat : Int)
    (mx ≠ 0 → constant (.epelH6 w h mx) 0 0 2 3) ∧ (my ≠ 0 → constant (.epelV6 w h my) 2 3 0 0) ∧
      (mx ≠ 0 → my ≠ 0 → constant (.epelH6V6 w h mx my) 2 3 2 3) ∧
      (mx.toNat % 2 = 1 → constant (.epelH4 w h mx) 0 0 1 2) ∧ (my.toNat % 2 = 1 → constant (.epelV4 w h my) 1 2 0 0) ∧
      (mx.toNat % 2 = 1 → my.toNat % 2 = 1 → constant (.epelH4V4 w h mx my) 1 2 1 2) ∧
      (mx.toNat % 2 = 1 → my ≠ 0 → constant (.epelH4V6 w h mx my) 2 3 1 2) ∧
      (mx ≠ 0 → my.toNat % 2 = 1 → constant (.epelH6V4 w h mx my) 1 2 2 3) ∧
      constant (.bilinH w h mx) 0 0 0 1 ∧ constant (.bilinV w h my) 0 1 0 0 ∧ constant (.bilinHV w h mx my) 0 1 0 1

/-- R145 (a), R34 (b): with an odd selector the 6-tap command leaves exactly what the 4-tap command does, where both may run (G1;
log 7). -/
def Obligations.OddSelectorSixTap : Prop :=
  ∀ (s : State) (c : InFlight) (w : Width) (h : BitVec 6) (mx my : BitVec 3), mx.toNat % 2 = 1 → my.toNat % 2 = 1 →
    (InterpReady s c w h 0 0 2 3 → ∃ t, exec (.epelH6 w h mx) s = .next t ∧ exec (.epelH4 w h mx) s = .next t) ∧
      (InterpReady s c w h 2 3 0 0 → ∃ t, exec (.epelV6 w h my) s = .next t ∧ exec (.epelV4 w h my) s = .next t) ∧
      (InterpReady s c w h 2 3 2 3 → ∃ t, exec (.epelH6V6 w h mx my) s = .next t ∧ exec (.epelH4V4 w h mx my) s = .next t ∧
        exec (.epelH6V4 w h mx my) s = .next t ∧ exec (.epelH4V6 w h mx my) s = .next t)

/-- R99: MC.EPEL and MC.BILIN by their table of offsets: no pass for 0, 4 taps for an odd offset, 6 for an even one that is not 0; COPY,
BILIN_H, BILIN_V or BILIN_HV. Both are well formed whenever the height is legal, the selectors of MC.EPEL name rows of TAPS, and it
never drops a non-zero tap: an offset with a 4-tap pass has zero outer taps (G1; log 7). -/
def Obligations.PseudoInstructionChoice : Prop :=
  ∀ (w : Width) (h : BitVec 6) (mx my : BitVec 3),
    let odd := fun (v : BitVec 3) => v.toNat % 2 = 1
    let even := fun (v : BitVec 3) => v ≠ 0 ∧ v.toNat % 2 = 0
    (mx = 0 → my = 0 → mcEpel w h mx my = .copy w h) ∧
      (odd mx → my = 0 → mcEpel w h mx my = .epelH4 w h mx) ∧ (even mx → my = 0 → mcEpel w h mx my = .epelH6 w h mx) ∧
      (mx = 0 → odd my → mcEpel w h mx my = .epelV4 w h my) ∧ (mx = 0 → even my → mcEpel w h mx my = .epelV6 w h my) ∧
      (odd mx → odd my → mcEpel w h mx my = .epelH4V4 w h mx my) ∧
      (odd mx → even my → mcEpel w h mx my = .epelH4V6 w h mx my) ∧
      (even mx → odd my → mcEpel w h mx my = .epelH6V4 w h mx my) ∧
      (even mx → even my → mcEpel w h mx my = .epelH6V6 w h mx my) ∧
      (mx = 0 → my = 0 → mcBilin w h mx my = .copy w h) ∧ (mx ≠ 0 → my = 0 → mcBilin w h mx my = .bilinH w h mx) ∧
      (mx = 0 → my ≠ 0 → mcBilin w h mx my = .bilinV w h my) ∧ (mx ≠ 0 → my ≠ 0 → mcBilin w h mx my = .bilinHV w h mx my) ∧
      (heightLegal h = true → (mcEpel w h mx my).wellFormed = true ∧ (mcBilin w h mx my).wellFormed = true) ∧
      ¬ SelectorZero (mcEpel w h mx my) ∧
      (∀ v, odd v → (tapRow v).f0 = 0 ∧ (tapRow v).f5 = 0)

/-- R192 (a), (b), (c): IDCT_ADD of zero coefficients changes no byte; of a block with only coefficient 0 it leaves what
IDCT_DC_ADD leaves; WHT of an array with only entry 0 leaves what WHT_DC leaves. They rest on the butterflies (G2, G3; log 7). -/
def Obligations.TransformShortcuts : Prop :=
  ∀ (s : State) (c : InFlight),
    (IdctReady s c (InBytes c.aux 32) 4 4 → ZeroBytes s.mem c.aux 32 →
        ∃ m, exec .idctAdd s = .next (s.completedWith c m) ∧ ∀ a : Nat, m.read a = s.mem.read a) ∧
      (IdctReady s c (InBytes c.aux 32) 4 4 → ZeroBytes s.mem (c.aux + 2) 30 →
        ∃ m m', exec .idctAdd s = .next (s.completedWith c m) ∧ exec .idctDcAdd s = .next (s.completedWith c m') ∧
          ∀ a : Nat, m.read a = m'.read a) ∧
      (WhtReady s c 32 → ZeroBytes s.mem (c.aux + 2) 30 →
        ∃ m m', exec .wht s = .next (s.completedWith c m) ∧ exec .whtDc s = .next (s.completedWith c m') ∧
          ∀ a : Nat, m.read a = m'.read a)

/-- R64, R113 (b): FILL, CLR1, CLR24, COPY, EPEL_* and BILIN_* are idempotent: run again from what the first run left, the same
command leaves every byte as it is. -/
def Obligations.SecondRunChangesNothing : Prop :=
  ∀ (i : Instr) (s u : State) (c : InFlight) (m : Memory), Running s c →
    (∀ a, spansHave (planOf i c).rf a = true → spansHave (planOf i c).wf a = false) →
    exec i s = .next (s.completedWith c m) → Running u c → u.memMap = s.memMap → u.mem = m →
    ∃ m', exec i u = .next (u.completedWith c m') ∧ ∀ a : Nat, m'.read a = m.read a
end

