-- ==== Sys2Proof/Laws/Memory.lean ====
section
/-! SUPPORT. The laws of memory: a byte written reads back, every other byte is unchanged, the canonical form is kept, and the
same for a list of stores. -/

namespace Sys2Proof.Machine

theorem Memory.wfFrom_mono {lo lo' : Nat} {m : Memory} (h : Memory.wfFrom lo m = true) (hl : lo' ≤ lo) :
    Memory.wfFrom lo' m = true := by
  cases m with
  | nil => rfl
  | cons p m =>
    obtain ⟨a, v⟩ := p
    simp only [Memory.wfFrom, Bool.and_eq_true, decide_eq_true_eq] at h ⊢
    exact ⟨⟨⟨by omega, h.1.1.2⟩, h.1.2⟩, h.2⟩

/-- Nothing is listed below the lower bound of a canonical list. -/
theorem Memory.read_below {lo a : Nat} {m : Memory} (h : Memory.wfFrom lo m = true) (ha : a < lo) :
    m.read a = Config.unlistedByte := by
  cases m with
  | nil => rfl
  | cons p m =>
    obtain ⟨b, v⟩ := p
    simp only [Memory.wfFrom, Bool.and_eq_true, decide_eq_true_eq] at h
    simp only [Memory.read]
    rw [if_neg (by omega), if_pos (by omega)]

theorem Memory.read_insert_same {lo : Nat} {m : Memory} (h : Memory.wfFrom lo m = true) (a : Nat) (v : Byte) :
    (m.insert a v).read a = v := by
  induction m generalizing lo with
  | nil =>
    simp only [Memory.insert]
    split
    · rename_i hv; rw [hv]; rfl
    · simp [Memory.read]
  | cons p m ih =>
    obtain ⟨b, w⟩ := p
    have h' := h
    simp only [Memory.wfFrom, Bool.and_eq_true, decide_eq_true_eq] at h'
    simp only [Memory.insert]
    split
    · rename_i hab
      split
      · rename_i hv
        simp only [Memory.read]
        rw [if_neg (by omega), if_pos hab, hv]
      · simp [Memory.read]
    · split
      · rename_i hab
        split
        · rename_i hv
          rw [hv]
          exact Memory.read_below h'.2 (by omega)
        · simp [Memory.read]
      · rename_i h1 h2
        simp only [Memory.read]
        rw [if_neg h2, if_neg h1]
        exact ih h'.2

theorem Memory.read_insert_other {lo : Nat} {m : Memory} (h : Memory.wfFrom lo m = true) {a b : Nat} (v : Byte)
    (hne : b ≠ a) : (m.insert a v).read b = m.read b := by
  induction m generalizing lo with
  | nil =>
    simp only [Memory.insert]
    split
    · rfl
    · simp only [Memory.read, if_neg hne]; split <;> rfl
  | cons p m ih =>
    obtain ⟨k, w⟩ := p
    have h' := h
    simp only [Memory.wfFrom, Bool.and_eq_true, decide_eq_true_eq] at h'
    simp only [Memory.insert]
    split
    · rename_i hak
      split
      · rfl
      · rw [Memory.read, if_neg hne]
        split
        · simp only [Memory.read]
          rw [if_neg (by omega), if_pos (by omega)]
        · rfl
    · split
      · rename_i hak
        subst hak
        split
        · rw [Memory.read, if_neg hne]
          split
          · exact Memory.read_below h'.2 (by omega)
          · rfl
        · simp only [Memory.read, if_neg hne]
      · simp only [Memory.read]
        split
        · rfl
        · split
          · rfl
          · exact ih h'.2

theorem Memory.wfFrom_insert {lo : Nat} {m : Memory} (h : Memory.wfFrom lo m = true) {a : Nat} (v : Byte) (hlo : lo ≤ a)
    (ha : a < Config.addrLimit) : Memory.wfFrom lo (m.insert a v) = true := by
  induction m generalizing lo with
  | nil =>
    simp only [Memory.insert]
    split
    · rfl
    · rename_i hv
      simp [Memory.wfFrom, hlo, ha, hv]
  | cons p m ih =>
    obtain ⟨b, w⟩ := p
    have h' := h
    simp only [Memory.wfFrom, Bool.and_eq_true, decide_eq_true_eq] at h'
    simp only [Memory.insert]
    split
    · rename_i hab
      split
      · exact h
      · rename_i hv
        simp only [Memory.wfFrom, Bool.and_eq_true, decide_eq_true_eq]
        exact ⟨⟨⟨hlo, ha⟩, hv⟩, ⟨⟨⟨by omega, h'.1.1.2⟩, h'.1.2⟩, h'.2⟩⟩
    · split
      · rename_i hab
        subst hab
        split
        · exact Memory.wfFrom_mono h'.2 (by omega)
        · rename_i hv
          simp only [Memory.wfFrom, Bool.and_eq_true, decide_eq_true_eq]
          exact ⟨⟨⟨hlo, ha⟩, hv⟩, h'.2⟩
      · simp only [Memory.wfFrom, Bool.and_eq_true, decide_eq_true_eq]
        exact ⟨h'.1, ih h'.2 (by omega)⟩

/-! ### One store -/

/-- A write keeps the canonical form, at any address. -/
theorem Memory.write_wf {m : Memory} (h : m.wf = true) (a : Int) (v : Byte) : (m.write a v).wf = true := by
  cases a with
  | ofNat n =>
    simp only [Memory.write]
    split
    · exact Memory.wfFrom_insert h v (Nat.zero_le _) (by assumption)
    · exact h
  | negSucc n => exact h

/-- A byte written inside the space reads back. -/
theorem Memory.read_write_same {m : Memory} (h : m.wf = true) {a : Nat} (v : Byte) (ha : a < Config.addrLimit) :
    (m.write a v).read a = v := by
  show (m.write (Int.ofNat a) v).read a = v
  simp only [Memory.write, if_pos ha]
  exact Memory.read_insert_same h a v

/-- A write leaves every other byte alone. -/
theorem Memory.read_write_other {m : Memory} (h : m.wf = true) {a : Int} {b : Nat} (v : Byte) (hne : (b : Int) ≠ a) :
    (m.write a v).read b = m.read b := by
  cases a with
  | ofNat n =>
    simp only [Memory.write]
    split
    · exact Memory.read_insert_other h v (fun hb => hne (by rw [hb]; rfl))
    · rfl
  | negSucc n => rfl

/-! ### A list of stores -/

theorem Memory.storeAll_wf {m : Memory} (h : m.wf = true) (l : List Store) : (m.storeAll l).wf = true := by
  induction l generalizing m with
  | nil => exact h
  | cons p l ih => exact ih (Memory.write_wf h _ _)

theorem Memory.storeAll_append (m : Memory) (l k : List Store) : m.storeAll (l ++ k) = (m.storeAll l).storeAll k := by
  induction l generalizing m with
  | nil => rfl
  | cons p l ih => exact ih _

/-- A byte no store names is unchanged. -/
theorem Memory.storeAll_read_other {m : Memory} (h : m.wf = true) {l : List Store} {b : Nat}
    (hb : ∀ p ∈ l, p.1 ≠ (b : Int)) : (m.storeAll l).read b = m.read b := by
  induction l generalizing m with
  | nil => rfl
  | cons p l ih =>
    rw [Memory.storeAll, ih (Memory.write_wf h _ _) (fun q hq => hb q (List.mem_cons_of_mem _ hq)),
      Memory.read_write_other h _ (fun he => hb p (List.mem_cons_self ..) he.symm)]

/-- Where every store to a byte carries the same value and one is made, the byte holds that value afterwards. -/
theorem Memory.storeAll_read_of_mem {m : Memory} (h : m.wf = true) {l : List Store} {b : Nat} {v : Byte}
    (hlim : b < Config.addrLimit) (hmem : ((b : Int), v) ∈ l) (huniq : ∀ p ∈ l, p.1 = (b : Int) → p.2 = v) :
    (m.storeAll l).read b = v := by
  induction l generalizing m with
  | nil => cases hmem
  | cons p l ih =>
    rw [Memory.storeAll]
    by_cases hin : ((b : Int), v) ∈ l
    · exact ih (Memory.write_wf h _ _) hin (fun q hq => huniq q (List.mem_cons_of_mem _ hq))
    · have hp : p = ((b : Int), v) := by
        rcases List.mem_cons.mp hmem with hp | hp
        · exact hp.symm
        · exact absurd hp hin
      have hnone : ∀ q ∈ l, q.1 ≠ (b : Int) := by
        intro q hq he
        apply hin
        have := huniq q (List.mem_cons_of_mem _ hq) he
        rw [← he, ← this]
        exact hq
      rw [Memory.storeAll_read_other (Memory.write_wf h _ _) hnone, hp]
      exact Memory.read_write_same h v hlim

/-- Unspecified bytes keep the canonical form. -/
theorem Memory.havoc_wf {m : Memory} (h : m.wf = true) (l : List Int) (ix : Nat) : (m.havoc l ix).wf = true := by
  induction l generalizing m ix with
  | nil => exact h
  | cons a l ih => exact ih (Memory.write_wf h _ _) _

/-- Bytes outside the addresses made unspecified are unchanged. -/
theorem Memory.havoc_read_other {m : Memory} (h : m.wf = true) {l : List Int} {ix b : Nat} (hb : (b : Int) ∉ l) :
    (m.havoc l ix).read b = m.read b := by
  induction l generalizing m ix with
  | nil => rfl
  | cons a l ih =>
    rw [Memory.havoc, ih (Memory.write_wf h _ _) (fun hm => hb (List.mem_cons_of_mem _ hm)),
      Memory.read_write_other h _ (fun he => hb (he ▸ List.mem_cons_self ..))]

/-- A byte that becomes unspecified reads as one of the free values drawn (R262, R266). -/
theorem Memory.havoc_read_of_mem {m : Memory} (h : m.wf = true) {l : List Int} {ix a : Nat} (ha : (a : Int) ∈ l)
    (hl : a < Config.addrLimit) : ∃ n, ix ≤ n ∧ n < ix + l.length ∧ (m.havoc l ix).read a = Config.freeByte n := by
  induction l generalizing m ix with
  | nil => cases ha
  | cons b l ih =>
    rw [Memory.havoc]
    by_cases hin : (a : Int) ∈ l
    · obtain ⟨n, h1, h2, h3⟩ := ih (Memory.write_wf h b (Config.freeByte ix)) (ix := ix + 1) hin
      exact ⟨n, by omega, by simp; omega, h3⟩
    · refine ⟨ix, le_refl _, by simp, ?_⟩
      rw [Memory.havoc_read_other (Memory.write_wf h _ _) hin]
      have : (a : Int) = b := by simpa [hin] using ha
      rw [← this, Memory.read_write_same h _ hl]

/-! ### Coefficients (R52): the only place where the proofs use the value of `COEF_ENDIAN` -/

@[simp] theorem coefEndian_lowAt : coefEndian.lowAt = 0 := rfl
@[simp] theorem coefEndian_highAt : coefEndian.highAt = 1 := rfl

/-- `CfW` stores the low byte at the lower address. -/
theorem coefStores_eq (a v : Int) : coefStores a v = [(a, byteOf v), (a + 1, byteOf (v / 256))] := by
  simp [coefStores]

/-! ### Stores of a block -/

theorem mem_blockStores {base stride : Int} {w h : Nat} {f : Nat → Nat → Int} {p : Store} :
    p ∈ blockStores base stride w h f ↔
      ∃ y x : Nat, y < h ∧ x < w ∧ p = (base + y * stride + x, byteOf (f y x)) := by
  simp only [blockStores, List.mem_flatMap, List.mem_map, List.mem_range]
  constructor
  · rintro ⟨y, hy, x, hx, rfl⟩; exact ⟨y, x, hy, hx, rfl⟩
  · rintro ⟨y, x, hy, hx, rfl⟩; exact ⟨y, hy, x, hx, rfl⟩

/-- Distinct samples of a written block have distinct addresses when the stride is at least the row width (R57). -/
theorem block_addr_inj {stride : Int} {w : Nat} (hs : (w : Int) ≤ stride ∨ (w : Int) ≤ -stride) {y x y' x' : Nat}
    (hx : x < w) (hx' : x' < w) (he : (y : Int) * stride + x = y' * stride + x') : y = y' ∧ x = x' := by
  have key : ((y : Int) - y') * stride = x' - x := by linarith
  have hy : (y : Int) = y' := by
    by_contra hne
    have h1 : 1 ≤ |(y : Int) - y'| := Int.one_le_abs (by omega)
    have h2 : (w : Int) ≤ |stride| := by
      rcases hs with h | h
      · exact le_trans h (le_abs_self _)
      · exact le_trans h (neg_le_abs _)
    have h3 : |(x' : Int) - x| < w := by rw [abs_lt]; constructor <;> omega
    rw [← key, abs_mul] at h3
    have := mul_le_mul h1 h2 (Int.natCast_nonneg w) (abs_nonneg _)
    linarith
  have hx2 : (x : Int) = x' := by rw [hy] at he; linarith
  omega

/-- After a block is stored, its sample `(y, x)` reads back. -/
theorem blockStores_read {m : Memory} (hm : m.wf = true) {base stride : Int} {w h : Nat} {f : Nat → Nat → Int}
    (hs : (w : Int) ≤ stride ∨ (w : Int) ≤ -stride) {y x : Nat} (hy : y < h) (hx : x < w) {b : Nat}
    (hb : (b : Int) = base + y * stride + x) (hlim : b < Config.addrLimit) :
    (m.storeAll (blockStores base stride w h f)).read b = byteOf (f y x) := by
  refine Memory.storeAll_read_of_mem hm hlim (mem_blockStores.mpr ⟨y, x, hy, hx, by rw [hb]⟩) ?_
  intro p hp he
  obtain ⟨y', x', hy', hx', rfl⟩ := mem_blockStores.mp hp
  have he' : (y' : Int) * stride + x' = y * stride + x := by
    have : base + y' * stride + x' = (b : Int) := he
    rw [hb] at this; linarith
  obtain ⟨rfl, rfl⟩ := block_addr_inj hs hx' hx he'
  rfl

/-! ### Bytes as integers -/

theorem byteOf_toNat {v : Int} (h0 : 0 ≤ v) (h1 : v ≤ 255) : ((byteOf v).toNat : Int) = v := by
  simp only [byteOf, BitVec.toNat_ofInt]
  omega

/-- `byteOf` keeps the residue modulo 256 (R13). -/
theorem byteOf_toNat_emod (v : Int) : ((byteOf v).toNat : Int) = v % 256 := by
  simp only [byteOf, BitVec.toNat_ofInt]
  omega

theorem px_nonneg (m : Memory) (a : Int) : 0 ≤ px m a := by simp [px]

theorem px_le (m : Memory) (a : Int) : px m a ≤ 255 := by
  have := (m.read a.toNat).isLt
  simp only [px]; omega

theorem byteOf_px (m : Memory) (a : Int) : byteOf (px m a) = m.read a.toNat := by
  apply BitVec.eq_of_toNat_eq
  have := byteOf_toNat (px_nonneg m a) (px_le m a)
  simp only [px] at this ⊢
  omega

end Sys2Proof.Machine
end

