-- ==== Sys2Proof/Laws/Arith.lean ====
section
/-! SUPPORT. The arithmetic of 41_clip_arith: shifts as floor division, the clips, 16-bit narrowing, the table's row sums, and the
scratch buffer. -/

namespace Sys2Proof.Machine

/-! ### Shifts (R125) -/

theorem asr_one (v : Int) : asr v 1 = v / 2 := rfl
theorem asr_three (v : Int) : asr v 3 = v / 8 := rfl
theorem asr_seven (v : Int) : asr v 7 = v / 128 := rfl
theorem asr_sixteen (v : Int) : asr v 16 = v / 65536 := rfl

/-! ### Clips (R120, R121, R133) -/

theorem clipU8_nonneg (v : Int) : 0 ≤ clipU8 v := by unfold clipU8; split <;> (try split) <;> omega
theorem clipU8_le (v : Int) : clipU8 v ≤ 255 := by unfold clipU8; split <;> (try split) <;> omega
theorem clipU8_of_mem {v : Int} (h0 : 0 ≤ v) (h1 : v ≤ 255) : clipU8 v = v := by
  rw [clipU8, if_neg (by omega), if_neg (by omega)]
theorem clipS8_ge (v : Int) : -128 ≤ clipS8 v := by unfold clipS8; split <;> (try split) <;> omega
theorem clipS8_le (v : Int) : clipS8 v ≤ 127 := by unfold clipS8; split <;> (try split) <;> omega
theorem clipS8_of_mem {v : Int} (h0 : -128 ≤ v) (h1 : v ≤ 127) : clipS8 v = v := by
  rw [clipS8, if_neg (by omega), if_neg (by omega)]

theorem absDiff_eq_abs (a b : Int) : absDiff a b = |a - b| := by
  unfold absDiff
  split
  · rw [abs_of_neg (by assumption)]; ring
  · rw [abs_of_nonneg (by omega)]

/-- A clamped value is stored exactly. -/
theorem byteOf_clipU8 (v : Int) : ((byteOf (clipU8 v)).toNat : Int) = clipU8 v :=
  byteOf_toNat (clipU8_nonneg v) (clipU8_le v)

/-! ### Narrowing (R11, R128) -/

theorem sext16_eq (v : Int) : sext 16 v = if v % 65536 ≥ 32768 then v % 65536 - 65536 else v % 65536 := rfl

theorem sext16_range (v : Int) : -32768 ≤ sext 16 v ∧ sext 16 v ≤ 32767 := by
  rw [sext16_eq]; split <;> omega

/-- `NARROW16` is the identity on values that fit (R128). -/
theorem narrow16_of_mem {v : Int} (h0 : -32768 ≤ v) (h1 : v ≤ 32767) : narrow16 v = v := by
  show sext 16 v = v
  rw [sext16_eq]; split <;> omega

/-- `Cf` reads the low byte at the lower address. -/
theorem cf_eq (m : Memory) (a : Int) : cf m a = sext 16 (px m a + 256 * px m (a + 1)) := by simp [cf]

theorem cf_range (m : Memory) (a : Int) : -32768 ≤ cf m a ∧ cf m a ≤ 32767 := sext16_range _

/-- A coefficient reads back from the two bytes `CfW` stores (R13, R52). -/
theorem sext16_of_bytes (v : Int) :
    sext 16 (((byteOf v).toNat : Int) + 256 * ((byteOf (v / 256)).toNat : Int)) = sext 16 v := by
  rw [byteOf_toNat_emod, byteOf_toNat_emod, sext16_eq, sext16_eq]
  have : v % 256 + 256 * (v / 256 % 256) = v % 65536 := by omega
  rw [this]
  have : v % 65536 % 65536 = v % 65536 := by omega
  rw [this]

/-- After the two stores of `CfW(a, v)` have been made and nothing else touched them, `Cf(a)` is `v` narrowed. -/
theorem cf_of_reads {m : Memory} {a : Nat} {v : Int} (h0 : m.read a = byteOf v) (h1 : m.read (a + 1) = byteOf (v / 256)) :
    cf m a = sext 16 v := by
  have : ((a : Int) + 1).toNat = a + 1 := by omega
  simp only [cf_eq, px, this, Int.toNat_natCast, h0, h1]
  exact sext16_of_bytes v

/-! ### The tap table (R34) -/

/-- Every row of TAPS sums to 128 with the formula's signs. -/
theorem tapRow_sum {s : BitVec 3} (h : s ≠ 0) :
    (tapRow s).f0 - (tapRow s).f1 + (tapRow s).f2 + (tapRow s).f3 - (tapRow s).f4 + (tapRow s).f5 = 128 := by
  revert h; revert s; decide

/-- Rows with an odd selector have zero outer taps. -/
theorem tapRow_odd {s : BitVec 3} (h : s.toNat % 2 = 1) : (tapRow s).f0 = 0 ∧ (tapRow s).f5 = 0 := by
  revert h; revert s; decide

/-! ### The filters stay in the sample range (R131, R133 (g)) -/

theorem fir4_range (f : TapRow) (v : Int → Int) : 0 ≤ fir4 f v ∧ fir4 f v ≤ 255 := ⟨clipU8_nonneg _, clipU8_le _⟩
theorem fir6_range (f : TapRow) (v : Int → Int) : 0 ≤ fir6 f v ∧ fir6 f v ≤ 255 := ⟨clipU8_nonneg _, clipU8_le _⟩

theorem bil_range (m : BitVec 3) {v0 v1 : Int} (h0 : 0 ≤ v0 ∧ v0 ≤ 255) (h1 : 0 ≤ v1 ∧ v1 ≤ 255) :
    0 ≤ bil m v0 v1 ∧ bil m v0 v1 ≤ 255 := by
  have hm := m.isLt
  have hk : ∀ k : Nat, k < 8 → 0 ≤ (8 - (k : Int)) * v0 + k * v1 + 4 ∧ (8 - (k : Int)) * v0 + k * v1 + 4 ≤ 2044 := by
    intro k hk
    interval_cases k <;> simp <;> omega
  have := hk m.toNat (by omega)
  rw [bil, asr_three]
  omega

theorem srcPx_range (c : InFlight) (m : Memory) (y x : Int) : 0 ≤ srcPx c m y x ∧ srcPx c m y x ≤ 255 :=
  ⟨px_nonneg _ _, px_le _ _⟩

/-- A pass of any tap count answers a sample. -/
theorem firPass_range (t : TapCount) (sel : BitVec 3) {v : Int → Int} (h : 0 ≤ v 0 ∧ v 0 ≤ 255) :
    0 ≤ firPass t sel v ∧ firPass t sel v ≤ 255 := by
  cases t
  · exact h
  · exact h
  · exact fir4_range _ _
  · exact fir6_range _ _

theorem hFilter_range (t : TapCount) (mx : BitVec 3) (c : InFlight) (m : Memory) (y x : Int) :
    0 ≤ hFilter t mx c m y x ∧ hFilter t mx c m y x ≤ 255 := firPass_range t mx (srcPx_range c m y (x + 0))

theorem vFilter_range (t : TapCount) (my : BitVec 3) (c : InFlight) (m : Memory) (y x : Int) :
    0 ≤ vFilter t my c m y x ∧ vFilter t my c m y x ≤ 255 := firPass_range t my (srcPx_range c m (y + 0) x)

/-! ### The scratch buffer (R146) -/

/-- Inside its rows and columns the scratch buffer holds what the first pass computed. -/
theorem scratchAt_scratchRows {lo rows w : Nat} {hp : Int → Int → Int} {y : Int} {x : Nat} (h0 : -(lo : Int) ≤ y)
    (h1 : y < (rows : Int) - lo) (hx : x < w) : scratchAt (scratchRows lo rows w hp) lo y x = hp y x := by
  have hr : (y + lo).toNat < rows := by omega
  have hmax : max (y + (lo : Int)) 0 - lo = y := by omega
  simp [scratchAt, scratchRows, List.getD, hr, hx, hmax]

/-! ### Octets -/

/-- The sample of an octet read from memory at tap `k` is the sample at its address (R202). -/
theorem octetAt_tap (d : Direction) (base stride : Int) (m : Memory) (i : Int) {k : Int} (h0 : -4 ≤ k) (h1 : k ≤ 3) :
    (octetAt d base stride m i).tap k = px m (tapAddr d base stride i k) := by
  obtain rfl | rfl | rfl | rfl | rfl | rfl | rfl | rfl :
    k = -4 ∨ k = -3 ∨ k = -2 ∨ k = -1 ∨ k = 0 ∨ k = 1 ∨ k = 2 ∨ k = 3 := by omega
  all_goals simp [Octet.tap, octetAt]

/-- A correction changes only the taps it stores. -/
theorem Correction.apply_tap_other (cr : Correction) (o : Octet) {k : Int} (h0 : -4 ≤ k) (h1 : k ≤ 3)
    (hk : k ∉ cr.taps) : (cr.apply o).tap k = o.tap k := by
  obtain rfl | rfl | rfl | rfl | rfl | rfl | rfl | rfl :
    k = -4 ∨ k = -3 ∨ k = -2 ∨ k = -1 ∨ k = 0 ∨ k = 1 ∨ k = 2 ∨ k = 3 := by omega
  all_goals cases cr <;> first
    | rfl
    | exact absurd (by simp [Correction.taps]) hk

/-- The taps a kind's corrections store lie in the kind's range (R211). -/
theorem choose_taps_range {kind : FilterKind} {th : Thresholds} {o : Octet} {k : Int} (hk : k ∈ (choose kind th o).taps) :
    kind.lo ≤ k ∧ k ≤ kind.lo + kind.count - 1 := by
  have hc : (kind = .simple → choose kind th o = .untouched ∨ choose kind th o = .common) ∧
      (kind = .inner → choose kind th o = .untouched ∨ choose kind th o = .common ∨ choose kind th o = .inner) := by
    constructor <;> rintro rfl <;> simp only [choose] <;> split <;> (try split) <;> simp
  cases kind <;> cases hcr : choose _ th o <;> rw [hcr] at hk <;> simp [hcr] at hc <;>
    simp [Correction.taps, FilterKind.lo, FilterKind.count] at hk ⊢ <;> omega

/-- What a stored tap of a corrected octet holds is a sample. -/
theorem Correction.apply_tap_range (cr : Correction) (o : Octet) {k : Int} (hk : k ∈ cr.taps) :
    0 ≤ (cr.apply o).tap k ∧ (cr.apply o).tap k ≤ 255 := by
  cases cr with
  | untouched => simp [Correction.taps] at hk
  | common =>
    simp only [Correction.taps, List.mem_cons, List.not_mem_nil, or_false] at hk
    obtain rfl | rfl := hk <;> exact ⟨clipU8_nonneg _, clipU8_le _⟩
  | inner =>
    simp only [Correction.taps, List.mem_cons, List.not_mem_nil, or_false] at hk
    obtain rfl | rfl | rfl | rfl := hk <;> exact ⟨clipU8_nonneg _, clipU8_le _⟩
  | mbEdge =>
    simp only [Correction.taps, List.mem_cons, List.not_mem_nil, or_false] at hk
    obtain rfl | rfl | rfl | rfl | rfl | rfl := hk <;> exact ⟨clipU8_nonneg _, clipU8_le _⟩

end Sys2Proof.Machine
end

