-- ==== Sys2Proof/Laws/Spans.lean ====
section
/-! SUPPORT. Footprints: the spans of each form hold exactly the addresses the spec's sets name, and the checks on spans say
what the rules say about addresses. -/

namespace Sys2Proof.Machine

theorem Span.has_iff (s : Span) (a : Int) : s.has a = true ↔ s.start ≤ a ∧ a < s.start + s.len := by
  simp [Span.has]

theorem Span.mem_bytes (s : Span) (a : Int) : a ∈ s.bytes ↔ s.has a = true := by
  rw [Span.has_iff]
  simp only [Span.bytes, List.mem_map, List.mem_range]
  constructor
  · rintro ⟨k, hk, rfl⟩; omega
  · rintro ⟨h1, h2⟩; exact ⟨(a - s.start).toNat, by omega, by omega⟩

theorem spansHave_iff (l : List Span) (a : Int) : spansHave l a = true ↔ ∃ s ∈ l, s.has a = true := by
  simp [spansHave]

@[simp] theorem spansHave_nil (a : Int) : spansHave [] a = false := rfl

@[simp] theorem spansHave_cons (s : Span) (l : List Span) (a : Int) :
    spansHave (s :: l) a = (s.has a || spansHave l a) := rfl

@[simp] theorem spansHave_append (l k : List Span) (a : Int) :
    spansHave (l ++ k) a = (spansHave l a || spansHave k a) := by
  simp [spansHave]

theorem mem_spansBytes (l : List Span) (a : Int) : a ∈ spansBytes l ↔ spansHave l a = true := by
  rw [spansHave_iff]
  simp only [spansBytes, List.mem_flatMap, Span.mem_bytes]

/-! ### The checks -/

theorem Span.disjoint_iff (s t : Span) : s.disjoint t = true ↔ ∀ a, ¬ (s.has a = true ∧ t.has a = true) := by
  simp only [Span.disjoint, Bool.or_eq_true, decide_eq_true_eq, Span.has_iff]
  constructor
  · intro h a; omega
  · intro h
    by_contra hc
    apply h (max s.start t.start)
    omega

/-- OVERLAP on spans is OVERLAP on addresses (R60). -/
theorem spansDisjoint_iff (l k : List Span) :
    spansDisjoint l k = true ↔ ∀ a, ¬ (spansHave l a = true ∧ spansHave k a = true) := by
  simp only [spansDisjoint, List.all_eq_true, spansHave_iff, Span.disjoint_iff]
  constructor
  · rintro h a ⟨⟨s, hs, hsa⟩, ⟨t, ht, hta⟩⟩
    exact h s hs t ht a ⟨hsa, hta⟩
  · intro h s hs t ht a ⟨hsa, hta⟩
    exact h a ⟨⟨s, hs, hsa⟩, ⟨t, ht, hta⟩⟩

theorem Span.inSpace_iff (s : Span) :
    s.inSpace = true ↔ ∀ a, s.has a = true → 0 ≤ a ∧ a < (Config.addrLimit : Int) := by
  simp only [Span.inSpace, Bool.or_eq_true, Bool.and_eq_true, decide_eq_true_eq, Span.has_iff]
  constructor
  · intro h a ha; omega
  · intro h
    by_contra hc
    have h1 := h s.start
    have h2 := h (s.start + s.len - 1)
    omega

/-- ADDR_RANGE on spans is ADDR_RANGE on addresses (R58). -/
theorem all_inSpace_iff (l : List Span) :
    l.all Span.inSpace = true ↔ ∀ a, spansHave l a = true → 0 ≤ a ∧ a < (Config.addrLimit : Int) := by
  simp only [List.all_eq_true, Span.inSpace_iff, spansHave_iff]
  constructor
  · rintro h a ⟨s, hs, hsa⟩; exact h s hs a hsa
  · intro h s hs a hsa; exact h a ⟨s, hs, hsa⟩

/-- `MEM_VALID`, said once: a region holds the address and the register block does not (R59, R32). -/
theorem memValid_iff (map : MemMap) (a : Int) :
    memValid map a = true ↔ (∃ r ∈ map.regions, (r.base : Int) ≤ a ∧ a < (r.base : Int) + r.size) ∧
      ¬ ((map.mmioBase : Int) ≤ a ∧ a < (map.mmioBase : Int) + 32) := by
  simp only [memValid, MemMap.inRegisterBlock, Bool.and_eq_true, List.any_eq_true, decide_eq_true_eq, Bool.not_eq_true',
    Bool.and_eq_false_imp, decide_eq_false_iff_not, not_and]

/-- BUS on spans is BUS on addresses (R59). -/
theorem mapped_iff (map : MemMap) (l : List Span) :
    mapped map l = true ↔ ∀ a, spansHave l a = true → memValid map a = true := by
  simp only [mapped, List.all_eq_true, Span.mem_bytes, spansHave_iff]
  constructor
  · rintro h a ⟨s, hs, hsa⟩; exact h s hs a hsa
  · intro h s hs a hsa; exact h a ⟨s, hs, hsa⟩

/-- BAD_STRIDE (R57). -/
theorem strideOk_iff (stride : Int) (w : Nat) : strideOk stride (some w) = true ↔ StrideCovers stride w := by
  simp only [strideOk, Bool.or_eq_true, decide_eq_true_eq, StrideCovers, le_abs]

theorem strideCovers_cases {stride : Int} {w : Nat} (h : StrideCovers stride w) :
    (w : Int) ≤ stride ∨ (w : Int) ≤ -stride := le_abs.mp h

/-! ### The forms -/

theorem spansHave_rect (base stride y0 : Int) (rows : Nat) (x0 : Int) (width : Nat) (a : Int) :
    spansHave (rectSpans base stride y0 rows x0 width) a = true ↔
      ∃ r x : Nat, r < rows ∧ x < width ∧ a = base + (y0 + r) * stride + (x0 + x) := by
  simp only [spansHave_iff, rectSpans, List.mem_map, List.mem_range, Span.has_iff]
  constructor
  · rintro ⟨_, ⟨r, hr, rfl⟩, h1, h2⟩
    dsimp only at h1 h2
    exact ⟨r, (a - (base + (y0 + r) * stride + x0)).toNat, hr, by omega, by omega⟩
  · rintro ⟨r, x, hr, hx, rfl⟩
    exact ⟨_, ⟨r, hr, rfl⟩, by dsimp only; omega, by dsimp only; omega⟩

theorem spansHave_block (base stride : Int) (w h : Nat) (a : Int) :
    spansHave (rectSpans base stride 0 h 0 w) a = true ↔ InBlock base stride w h a := by
  rw [spansHave_rect]
  constructor
  · rintro ⟨y, x, hy, hx, rfl⟩; exact ⟨y, x, hy, hx, by ring⟩
  · rintro ⟨y, x, hy, hx, rfl⟩; exact ⟨y, x, hy, hx, by ring⟩

theorem spansHave_source (ht vt : TapCount) (w h : Nat) (c : InFlight) (a : Int) :
    spansHave (sourceSpans ht vt w h c) a = true ↔ InWindow c vt.lo vt.hi ht.lo ht.hi w h a := by
  rw [sourceSpans, spansHave_rect]
  constructor
  · rintro ⟨r, x, hr, hx, rfl⟩
    exact ⟨-(vt.lo : Int) + r, -(ht.lo : Int) + x, by omega, by omega, by omega, by omega, by ring⟩
  · rintro ⟨y, x, h1, h2, h3, h4, rfl⟩
    refine ⟨(y + vt.lo).toNat, (x + ht.lo).toNat, by omega, by omega, ?_⟩
    rw [Int.toNat_of_nonneg (by omega), Int.toNat_of_nonneg (by omega)]
    ring

theorem spansHave_bytes (base : Int) (n : Nat) (a : Int) :
    spansHave [{ start := base, len := n }] a = true ↔ InBytes base n a := by
  simp [Span.has_iff, InBytes]

theorem spansHave_fourDc (c : InFlight) (a : Int) : spansHave (fourDcSpans c) a = true ↔ InFourDc c a := by
  simp only [spansHave_iff, fourDcSpans, List.mem_map, List.mem_range, Span.has_iff, InFourDc, InBytes]
  constructor
  · rintro ⟨_, ⟨k, hk, rfl⟩, h⟩; exact ⟨k, hk, h⟩
  · rintro ⟨k, hk, h⟩; exact ⟨_, ⟨k, hk, rfl⟩, h⟩

theorem spansHave_slots (c : InFlight) (a : Int) : spansHave (slotSpans c) a = true ↔ InSlots c a := by
  simp only [spansHave_iff, slotSpans, List.mem_map, List.mem_range, Span.has_iff, InSlots, InBytes]
  constructor
  · rintro ⟨_, ⟨k, hk, rfl⟩, h⟩; exact ⟨k, hk, h⟩
  · rintro ⟨k, hk, h⟩; exact ⟨_, ⟨k, hk, rfl⟩, h⟩

theorem spansHave_taps (d : Direction) (n : Nat) (base stride klo : Int) (cnt : Nat) (a : Int) :
    spansHave (tapSpans d n base stride klo cnt) a = true ↔ InTaps d base stride n klo (klo + cnt - 1) a := by
  cases d with
  | v =>
    simp only [spansHave_iff, tapSpans, List.mem_map, List.mem_range, Span.has_iff, InTaps, tapAddr]
    constructor
    · rintro ⟨_, ⟨j, hj, rfl⟩, h1, h2⟩
      dsimp only at h1 h2
      exact ⟨(a - (base + 0 + (klo + j) * stride)).toNat, klo + j, by omega, by omega, by omega, by omega⟩
    · rintro ⟨i, k, hi, h1, h2, rfl⟩
      refine ⟨_, ⟨(k - klo).toNat, by omega, rfl⟩, ?_⟩
      have : klo + ((k - klo).toNat : Int) = k := by omega
      dsimp only
      rw [this]
      omega
  | h =>
    simp only [spansHave_iff, tapSpans, List.mem_map, List.mem_range, Span.has_iff, InTaps, tapAddr]
    constructor
    · rintro ⟨_, ⟨i, hi, rfl⟩, h1, h2⟩
      dsimp only at h1 h2
      exact ⟨i, a - (base + i * stride), hi, by omega, by omega, by omega⟩
    · rintro ⟨i, k, hi, h1, h2, rfl⟩
      exact ⟨_, ⟨i, hi, rfl⟩, by dsimp only; omega, by dsimp only; omega⟩

end Sys2Proof.Machine
end

