-- ==== Sys2Proof/Laws/Checks.lean ====
section
/-! SUPPORT. When the seven checks pass (60_exceptions R233), for each form, in terms of the spec's sets of addresses. -/

namespace Sys2Proof.Machine

/-- All seven checks pass exactly when none of the seven conditions of R231 holds. -/
theorem Plan.firstFault_none_iff (p : Plan) (stride : Int) (map : MemMap) :
    p.firstFault stride map = none ↔
      p.legal = true ∧ (∀ sel ∈ p.selectors, sel ≠ 0) ∧ (∀ a ∈ p.coefs, a.toNat % 2 = 0) ∧
        strideOk stride p.rowWidth = true ∧
        (∀ a, ¬ (spansHave p.partA a = true ∧ spansHave p.partB a = true)) ∧
        (∀ a, spansHave (p.rf ++ p.wf) a = true → 0 ≤ a ∧ a < (Config.addrLimit : Int)) ∧
        (∀ a, spansHave (p.rf ++ p.wf) a = true → memValid map a = true) := by
  rw [← spansDisjoint_iff, ← all_inSpace_iff, ← mapped_iff]
  have hs : p.selectors.any (fun s => decide (s = 0)) = false ↔ ∀ sel ∈ p.selectors, sel ≠ 0 := by simp
  have hc : p.coefs.any (fun a => decide (a.toNat % 2 = 1)) = false ↔ ∀ a ∈ p.coefs, a.toNat % 2 = 0 := by simp
  rw [← hs, ← hc, Plan.firstFault]
  cases p.legal <;> cases p.selectors.any (fun s => decide (s = 0)) <;>
    cases p.coefs.any (fun a => decide (a.toNat % 2 = 1)) <;> cases strideOk stride p.rowWidth <;>
    cases spansDisjoint p.partA p.partB <;> cases (p.rf ++ p.wf).all Span.inSpace <;>
    cases mapped map (p.rf ++ p.wf) <;> simp

/-! ### The checks as conditions on addresses -/

/-- A plan's first check is the well-formedness of its command. -/
theorem planOf_legal (i : Instr) (c : InFlight) : (planOf i c).legal = i.wellFormed := by cases i <;> rfl

/-- The selectors of a plan are the offsets R234 has checked. -/
theorem selectorZero_iff (i : Instr) (c : InFlight) :
    SelectorZero i ↔ (planOf i c).selectors.any (fun s => decide (s = 0)) = true := by
  cases i <;> simp [SelectorZero, planOf, fillPlan, clearPlan, interpPlan, idctPlan, whtPlan, filterPlan]

/-- The coefficient pointers of a plan are the ones R234 has checked. -/
theorem pointerOdd_iff (i : Instr) (c : InFlight) :
    PointerOdd c i ↔ (planOf i c).coefs.any (fun a => decide (a.toNat % 2 = 1)) = true := by
  cases i <;> simp [PointerOdd, planOf, fillPlan, clearPlan, interpPlan, idctPlan, whtPlan, filterPlan]

/-- The written row width of a plan is the one R234 names. -/
theorem strideShort_iff (i : Instr) (c : InFlight) :
    StrideShort c i ↔ strideOk c.dstride (planOf i c).rowWidth = false := by
  have h : ∀ w : Nat, strideOk c.dstride (some w) = false ↔ |c.dstride| < w := fun w => by
    rw [← Bool.not_eq_true, strideOk_iff, StrideCovers, not_le]
  cases i <;> simp only [planOf, fillPlan, clearPlan, interpPlan, idctPlan, whtPlan, filterPlan, h] <;>
    simp [StrideShort, strideOk]

theorem meet_iff {l k : List Span} {A B : Int → Prop} (hA : ∀ a, spansHave l a = true ↔ A a)
    (hB : ∀ a, spansHave k a = true ↔ B a) : Meet A B ↔ spansDisjoint l k = false := by
  rw [← Bool.not_eq_true, spansDisjoint_iff]
  simp [Meet, hA, hB]

/-- The parts of a plan are the sets R60 and R234 name. -/
theorem partsMeet_iff (i : Instr) (c : InFlight) :
    PartsMeet c i ↔ spansDisjoint (planOf i c).partA (planOf i c).partB = false := by
  cases i with
  | fill | clr1 | clr24 | lfsV | lfsH | lfiV | lfiH | lfmV | lfmH => exact iff_of_false id fun h => nomatch (show true = false from h)
  | idctAdd | idctDcAdd => exact meet_iff (fun _ => spansHave_bytes ..) (fun _ => spansHave_block ..)
  | idctDcAdd4y | idctDcAdd4uv => exact meet_iff (spansHave_fourDc c) (fun _ => spansHave_block ..)
  | wht | whtDc => exact meet_iff (fun _ => spansHave_bytes ..) (spansHave_slots c)
  | copy | epelV4 | epelV6 | epelH4 | epelH4V4 | epelH4V6 | epelH6 | epelH6V4 | epelH6V6 | bilinV | bilinH | bilinHV =>
    exact meet_iff (fun _ => spansHave_source ..) (fun _ => spansHave_block ..)

/-- Each condition of `CheckFails` is the corresponding test of `Plan.firstFault`. -/
theorem checkFails_iff (s : State) (c : InFlight) (i : Instr) :
    (CheckFails s c i .illegalCmd ↔ (planOf i c).legal = false) ∧
      (CheckFails s c i .badSelector ↔ (planOf i c).selectors.any (fun s => decide (s = 0)) = true) ∧
      (CheckFails s c i .misaligned ↔ (planOf i c).coefs.any (fun a => decide (a.toNat % 2 = 1)) = true) ∧
      (CheckFails s c i .badStride ↔ strideOk c.dstride (planOf i c).rowWidth = false) ∧
      (CheckFails s c i .overlap ↔ spansDisjoint (planOf i c).partA (planOf i c).partB = false) ∧
      (CheckFails s c i .addrRange ↔ ((planOf i c).rf ++ (planOf i c).wf).all Span.inSpace = false) ∧
      (CheckFails s c i .bus ↔ mapped s.memMap ((planOf i c).rf ++ (planOf i c).wf) = false) := by
  refine ⟨?_, ?_, ?_, ?_, ?_, ?_, ?_⟩
  · rw [planOf_legal]; rfl
  · exact selectorZero_iff i c
  · exact pointerOdd_iff i c
  · exact strideShort_iff i c
  · exact partsMeet_iff i c
  · rw [← Bool.not_eq_true, all_inSpace_iff]
    simp only [CheckFails, InFootprint, spansHave_append, Bool.or_eq_true]; push Not; simp
  · rw [← Bool.not_eq_true, mapped_iff]
    simp only [CheckFails, InFootprint, spansHave_append, Bool.or_eq_true]; push Not; simp

/-- Everything `Plan.firstFault` can answer: the fault of the first test that fails. -/
theorem Plan.firstFault_cases (p : Plan) (stride : Int) (map : MemMap) :
    p.firstFault stride map =
      match p.legal, p.selectors.any (fun s => decide (s = 0)), p.coefs.any (fun a => decide (a.toNat % 2 = 1)),
          strideOk stride p.rowWidth, spansDisjoint p.partA p.partB, (p.rf ++ p.wf).all Span.inSpace,
          mapped map (p.rf ++ p.wf) with
      | false, _, _, _, _, _, _ => some .illegalCmd
      | true, true, _, _, _, _, _ => some .badSelector
      | true, false, true, _, _, _, _ => some .misaligned
      | true, false, false, false, _, _, _ => some .badStride
      | true, false, false, true, false, _, _ => some .overlap
      | true, false, false, true, true, false, _ => some .addrRange
      | true, false, false, true, true, true, false => some .bus
      | true, false, false, true, true, true, true => none := by
  rw [Plan.firstFault]
  cases p.legal <;> cases p.selectors.any (fun s => decide (s = 0)) <;>
    cases p.coefs.any (fun a => decide (a.toNat % 2 = 1)) <;> cases strideOk stride p.rowWidth <;>
    cases spansDisjoint p.partA p.partB <;> cases (p.rf ++ p.wf).all Span.inSpace <;>
    cases mapped map (p.rf ++ p.wf) <;> rfl

/-! ### The forms -/

/-- What a footprint needs, said once: every address accessible. -/
theorem footprint_ok {s : State} {p : Plan} (h : ∀ a, spansHave (p.rf ++ p.wf) a = true → Accessible s a) :
    (∀ a, spansHave (p.rf ++ p.wf) a = true → 0 ≤ a ∧ a < (Config.addrLimit : Int)) ∧
      (∀ a, spansHave (p.rf ++ p.wf) a = true → memValid s.memMap a = true) :=
  ⟨fun a ha => ⟨(h a ha).1, (h a ha).2.1⟩, fun a ha => (h a ha).2.2⟩

theorem heightLegal_iff (h : BitVec 6) : heightLegal h = true ↔ 1 ≤ h.toNat ∧ h.toNat ≤ 32 := by
  rw [heightLegal, Bool.and_eq_true, decide_eq_true_eq, decide_eq_true_eq]; rfl

theorem fillPlan_passes {s : State} {c : InFlight} {legal : Bool} {w h : Nat} (hl : legal = true)
    (hs : StrideCovers c.dstride w) (ha : ∀ a, InBlock c.dst c.dstride w h a → Accessible s a) :
    (fillPlan legal w h c).firstFault c.dstride s.memMap = none := by
  rw [Plan.firstFault_none_iff]
  refine ⟨hl, by simp [fillPlan], by simp [fillPlan], (strideOk_iff _ _).mpr hs, by simp [fillPlan], ?_⟩
  exact footprint_ok fun a h => ha a ((spansHave_block ..).mp h)

theorem clearPlan_passes {s : State} {c : InFlight} {n : Nat} (he : c.x2.toNat % 2 = 0)
    (ha : ∀ a, InBytes c.aux n a → Accessible s a) : (clearPlan n c).firstFault c.dstride s.memMap = none := by
  rw [Plan.firstFault_none_iff]
  refine ⟨rfl, by simp [clearPlan], by simpa [clearPlan] using he, rfl, by simp [clearPlan], ?_⟩
  exact footprint_ok fun a h => ha a ((spansHave_bytes ..).mp h)

theorem interpPlan_passes {s : State} {c : InFlight} {legal : Bool} {sels : List (BitVec 3)} {ht vt : TapCount} {w : Width}
    {h : BitVec 6} (hl : legal = true) (hsel : ∀ sel ∈ sels, sel ≠ 0)
    (hr : InterpReady s c w h vt.lo vt.hi ht.lo ht.hi) :
    (interpPlan legal sels ht vt w.cols h.toNat c).firstFault c.dstride s.memMap = none := by
  rw [Plan.firstFault_none_iff]
  refine ⟨hl, hsel, by simp [interpPlan], (strideOk_iff _ _).mpr hr.stride, ?_, ?_⟩
  · rintro a ⟨h1, h2⟩
    exact hr.apart a ((spansHave_source ..).mp h1) ((spansHave_block ..).mp h2)
  · refine footprint_ok fun a h => ?_
    rw [spansHave_append, Bool.or_eq_true] at h
    exact h.elim (fun h => hr.source a ((spansHave_source ..).mp h)) fun h => hr.dest a ((spansHave_block ..).mp h)

theorem idctPlan_passes {s : State} {c : InFlight} {coefs : List Span} {C : Int → Prop} {w h : Nat}
    (hC : ∀ a, spansHave coefs a = true ↔ C a) (hr : IdctReady s c C w h) :
    (idctPlan coefs w h c).firstFault c.dstride s.memMap = none := by
  rw [Plan.firstFault_none_iff]
  refine ⟨rfl, by simp [idctPlan], by simpa [idctPlan] using hr.aligned, (strideOk_iff _ _).mpr hr.stride, ?_, ?_⟩
  · rintro a ⟨h1, h2⟩
    exact hr.apart a ((hC a).mp h1) ((spansHave_block ..).mp h2)
  · refine footprint_ok fun a hf => ?_
    have h' : spansHave coefs a = true ∨ spansHave (rectSpans c.dst c.dstride 0 h 0 w) a = true := by
      simp only [idctPlan, spansHave_append, Bool.or_eq_true] at hf
      tauto
    exact h'.elim (fun h => hr.coefs a ((hC a).mp h)) fun h => hr.pixels a ((spansHave_block ..).mp h)

theorem whtPlan_passes {s : State} {c : InFlight} {n : Nat} (hr : WhtReady s c n) :
    (whtPlan n c).firstFault c.dstride s.memMap = none := by
  rw [Plan.firstFault_none_iff]
  refine ⟨rfl, by simp [whtPlan], by simpa [whtPlan] using hr.aligned, rfl, ?_, ?_⟩
  · rintro a ⟨h1, h2⟩
    exact hr.apart a ((spansHave_bytes ..).mp h1) ((spansHave_slots ..).mp h2)
  · refine footprint_ok fun a h => ?_
    have h' : InBytes c.aux n a ∨ InSlots c a := by
      rw [← spansHave_bytes, ← spansHave_slots]
      simp only [whtPlan, spansHave_append, spansHave_cons, Bool.or_eq_true, spansHave_nil] at h ⊢
      tauto
    exact h'.elim (hr.coefs a) (hr.slots a)

/-- The planes a loop filter treats, each ready (R212). -/
theorem filterPlan_passes {s : State} {c : InFlight} {legal : Bool} {kind : FilterKind} {d : Direction} {n : Nat}
    {pair : Bool} (hl : legal = true) (hr : ∀ b ∈ planeBases pair c, PlaneReady s c d n b) :
    (filterPlan legal kind d n pair c).firstFault c.dstride s.memMap = none := by
  have hd : PlaneReady s c d n c.dst := hr _ (by cases pair <;> simp [planeBases])
  rw [Plan.firstFault_none_iff]
  refine ⟨hl, by simp [filterPlan], by simp [filterPlan], (strideOk_iff _ _).mpr hd.stride, by simp [filterPlan], ?_⟩
  refine footprint_ok fun a h => ?_
  rw [spansHave_append, Bool.or_eq_true] at h
  rcases h with h | h
  · simp only [filterPlan, spansHave_iff] at h
    obtain ⟨sp, hsp, hsa⟩ := h
    obtain ⟨b, hb, hsp⟩ := List.mem_flatMap.mp hsp
    refine (hr b hb).taps a ?_
    have := (spansHave_taps d n b c.dstride (-4) 8 a).mp ((spansHave_iff ..).mpr ⟨sp, hsp, hsa⟩)
    exact this
  · simp only [filterPlan, spansHave_iff] at h
    obtain ⟨sp, hsp, hsa⟩ := h
    obtain ⟨b, hb, hsp⟩ := List.mem_flatMap.mp hsp
    refine (hr b hb).taps a ?_
    obtain ⟨i, k, hi, h1, h2, he⟩ :=
      (spansHave_taps d n b c.dstride kind.lo kind.count a).mp ((spansHave_iff ..).mpr ⟨sp, hsp, hsa⟩)
    refine ⟨i, k, hi, ?_, ?_, he⟩ <;> cases kind <;> simp [FilterKind.lo, FilterKind.count] at h1 h2 <;> omega

end Sys2Proof.Machine
end

