-- ==== Sys2Proof/Laws/State.lean ====
section
/-! SUPPORT. One lemma per field per update of State, so that no proof unfolds a record update. -/

namespace Sys2Proof.Machine

/-! ### Acceptance (R26) -/

@[simp] theorem State.accept_x0 (s : State) (w : Word) : (s.accept w).x0 = s.x0 := rfl
@[simp] theorem State.accept_x1 (s : State) (w : Word) : (s.accept w).x1 = s.x1 := rfl
@[simp] theorem State.accept_x2 (s : State) (w : Word) : (s.accept w).x2 = s.x2 := rfl
@[simp] theorem State.accept_x3 (s : State) (w : Word) : (s.accept w).x3 = s.x3 := rfl
@[simp] theorem State.accept_cmd (s : State) (w : Word) : (s.accept w).cmd = w := rfl
@[simp] theorem State.accept_status (s : State) (w : Word) : (s.accept w).status = { s.status with busy := true, done := false } := rfl
@[simp] theorem State.accept_ctrl (s : State) (w : Word) : (s.accept w).ctrl = s.ctrl := rfl
@[simp] theorem State.accept_errinfo (s : State) (w : Word) : (s.accept w).errinfo = s.errinfo := rfl
@[simp] theorem State.accept_cur (s : State) (w : Word) : (s.accept w).cur = some { word := w, x0 := s.x0, x1 := s.x1, x2 := s.x2, x3 := s.x3 } := rfl
@[simp] theorem State.accept_mem (s : State) (w : Word) : (s.accept w).mem = s.mem := rfl
@[simp] theorem State.accept_host (s : State) (w : Word) : (s.accept w).host = s.host := rfl
@[simp] theorem State.accept_memMap (s : State) (w : Word) : (s.accept w).memMap = s.memMap := rfl
@[simp] theorem State.accept_turns (s : State) (w : Word) : (s.accept w).turns = s.turns := rfl
@[simp] theorem State.accept_hostReads (s : State) (w : Word) : (s.accept w).hostReads = s.hostReads := rfl
@[simp] theorem State.accept_duties (s : State) (w : Word) : (s.accept w).duties = s.duties := rfl
@[simp] theorem State.accept_breached (s : State) (w : Word) : (s.accept w).breached = false := rfl
@[simp] theorem State.accept_freeIx (s : State) (w : Word) : (s.accept w).freeIx = s.freeIx := rfl

/-! ### Unspecified bytes (R262, R266) -/

@[simp] theorem State.havoc_x0 (s : State) (wf : List Span) : (s.havoc wf).x0 = s.x0 := rfl
@[simp] theorem State.havoc_x1 (s : State) (wf : List Span) : (s.havoc wf).x1 = s.x1 := rfl
@[simp] theorem State.havoc_x2 (s : State) (wf : List Span) : (s.havoc wf).x2 = s.x2 := rfl
@[simp] theorem State.havoc_x3 (s : State) (wf : List Span) : (s.havoc wf).x3 = s.x3 := rfl
@[simp] theorem State.havoc_cmd (s : State) (wf : List Span) : (s.havoc wf).cmd = s.cmd := rfl
@[simp] theorem State.havoc_status (s : State) (wf : List Span) : (s.havoc wf).status = s.status := rfl
@[simp] theorem State.havoc_ctrl (s : State) (wf : List Span) : (s.havoc wf).ctrl = s.ctrl := rfl
@[simp] theorem State.havoc_errinfo (s : State) (wf : List Span) : (s.havoc wf).errinfo = s.errinfo := rfl
@[simp] theorem State.havoc_cur (s : State) (wf : List Span) : (s.havoc wf).cur = s.cur := rfl
@[simp] theorem State.havoc_mem (s : State) (wf : List Span) : (s.havoc wf).mem = s.mem.havoc (spansBytes wf) s.freeIx := rfl
@[simp] theorem State.havoc_host (s : State) (wf : List Span) : (s.havoc wf).host = s.host := rfl
@[simp] theorem State.havoc_memMap (s : State) (wf : List Span) : (s.havoc wf).memMap = s.memMap := rfl
@[simp] theorem State.havoc_turns (s : State) (wf : List Span) : (s.havoc wf).turns = s.turns := rfl
@[simp] theorem State.havoc_hostReads (s : State) (wf : List Span) : (s.havoc wf).hostReads = s.hostReads := rfl
@[simp] theorem State.havoc_duties (s : State) (wf : List Span) : (s.havoc wf).duties = s.duties := rfl
@[simp] theorem State.havoc_breached (s : State) (wf : List Span) : (s.havoc wf).breached = s.breached := rfl
@[simp] theorem State.havoc_freeIx (s : State) (wf : List Span) : (s.havoc wf).freeIx = s.freeIx + (spansBytes wf).length := rfl

/-! ### Completion (R44) and faults (R232) -/

@[simp] theorem State.retire_x0 (s : State) (c : InFlight) (wf : List Span) (m : Memory) : (s.retire c wf m).x0 = s.x0 := by
  rw [State.retire]; cases s.breached <;> rfl
@[simp] theorem State.retire_x1 (s : State) (c : InFlight) (wf : List Span) (m : Memory) : (s.retire c wf m).x1 = s.x1 := by
  rw [State.retire]; cases s.breached <;> rfl
@[simp] theorem State.retire_x2 (s : State) (c : InFlight) (wf : List Span) (m : Memory) : (s.retire c wf m).x2 = s.x2 := by
  rw [State.retire]; cases s.breached <;> rfl
@[simp] theorem State.retire_x3 (s : State) (c : InFlight) (wf : List Span) (m : Memory) : (s.retire c wf m).x3 = s.x3 := by
  rw [State.retire]; cases s.breached <;> rfl
@[simp] theorem State.retire_cmd (s : State) (c : InFlight) (wf : List Span) (m : Memory) : (s.retire c wf m).cmd = s.cmd := by
  rw [State.retire]; cases s.breached <;> rfl
@[simp] theorem State.retire_status (s : State) (c : InFlight) (wf : List Span) (m : Memory) : (s.retire c wf m).status = s.status := by
  rw [State.retire]; cases s.breached <;> rfl
@[simp] theorem State.retire_ctrl (s : State) (c : InFlight) (wf : List Span) (m : Memory) : (s.retire c wf m).ctrl = s.ctrl := by
  rw [State.retire]; cases s.breached <;> rfl
@[simp] theorem State.retire_errinfo (s : State) (c : InFlight) (wf : List Span) (m : Memory) : (s.retire c wf m).errinfo = s.errinfo := by
  rw [State.retire]; cases s.breached <;> rfl
@[simp] theorem State.retire_cur (s : State) (c : InFlight) (wf : List Span) (m : Memory) : (s.retire c wf m).cur = none := rfl
@[simp] theorem State.retire_mem (s : State) (c : InFlight) (wf : List Span) (m : Memory) : (s.retire c wf m).mem = if s.breached then s.mem.havoc (spansBytes wf) s.freeIx else m := by
  rw [State.retire]; cases s.breached <;> rfl
@[simp] theorem State.retire_host (s : State) (c : InFlight) (wf : List Span) (m : Memory) : (s.retire c wf m).host = s.host := by
  rw [State.retire]; cases s.breached <;> rfl
@[simp] theorem State.retire_memMap (s : State) (c : InFlight) (wf : List Span) (m : Memory) : (s.retire c wf m).memMap = s.memMap := by
  rw [State.retire]; cases s.breached <;> rfl
@[simp] theorem State.retire_turns (s : State) (c : InFlight) (wf : List Span) (m : Memory) : (s.retire c wf m).turns = s.turns := by
  rw [State.retire]; cases s.breached <;> rfl
@[simp] theorem State.retire_hostReads (s : State) (c : InFlight) (wf : List Span) (m : Memory) : (s.retire c wf m).hostReads = s.hostReads := by
  rw [State.retire]; cases s.breached <;> rfl
@[simp] theorem State.retire_duties (s : State) (c : InFlight) (wf : List Span) (m : Memory) : (s.retire c wf m).duties = c :: s.duties := rfl
@[simp] theorem State.retire_breached (s : State) (c : InFlight) (wf : List Span) (m : Memory) : (s.retire c wf m).breached = false := rfl
@[simp] theorem State.retire_freeIx (s : State) (c : InFlight) (wf : List Span) (m : Memory) : (s.retire c wf m).freeIx = if s.breached then s.freeIx + (spansBytes wf).length else s.freeIx := by
  rw [State.retire]; cases s.breached <;> rfl

@[simp] theorem State.finish_x0 (s : State) (c : InFlight) (wf : List Span) (m : Memory) : (s.finish c wf m).x0 = s.x0 := by
  simp [State.finish]
@[simp] theorem State.finish_x1 (s : State) (c : InFlight) (wf : List Span) (m : Memory) : (s.finish c wf m).x1 = s.x1 := by
  simp [State.finish]
@[simp] theorem State.finish_x2 (s : State) (c : InFlight) (wf : List Span) (m : Memory) : (s.finish c wf m).x2 = s.x2 := by
  simp [State.finish]
@[simp] theorem State.finish_x3 (s : State) (c : InFlight) (wf : List Span) (m : Memory) : (s.finish c wf m).x3 = s.x3 := by
  simp [State.finish]
@[simp] theorem State.finish_cmd (s : State) (c : InFlight) (wf : List Span) (m : Memory) : (s.finish c wf m).cmd = s.cmd := by
  simp [State.finish]
@[simp] theorem State.finish_status (s : State) (c : InFlight) (wf : List Span) (m : Memory) : (s.finish c wf m).status = { s.status with busy := false, done := true } := by
  simp [State.finish]
@[simp] theorem State.finish_ctrl (s : State) (c : InFlight) (wf : List Span) (m : Memory) : (s.finish c wf m).ctrl = s.ctrl := by
  simp [State.finish]
@[simp] theorem State.finish_errinfo (s : State) (c : InFlight) (wf : List Span) (m : Memory) : (s.finish c wf m).errinfo = s.errinfo := by
  simp [State.finish]
@[simp] theorem State.finish_cur (s : State) (c : InFlight) (wf : List Span) (m : Memory) : (s.finish c wf m).cur = none := by
  simp [State.finish]
@[simp] theorem State.finish_mem (s : State) (c : InFlight) (wf : List Span) (m : Memory) : (s.finish c wf m).mem = if s.breached then s.mem.havoc (spansBytes wf) s.freeIx else m := by
  simp [State.finish]
@[simp] theorem State.finish_host (s : State) (c : InFlight) (wf : List Span) (m : Memory) : (s.finish c wf m).host = s.host := by
  simp [State.finish]
@[simp] theorem State.finish_memMap (s : State) (c : InFlight) (wf : List Span) (m : Memory) : (s.finish c wf m).memMap = s.memMap := by
  simp [State.finish]
@[simp] theorem State.finish_turns (s : State) (c : InFlight) (wf : List Span) (m : Memory) : (s.finish c wf m).turns = s.turns := by
  simp [State.finish]
@[simp] theorem State.finish_hostReads (s : State) (c : InFlight) (wf : List Span) (m : Memory) : (s.finish c wf m).hostReads = s.hostReads := by
  simp [State.finish]
@[simp] theorem State.finish_duties (s : State) (c : InFlight) (wf : List Span) (m : Memory) : (s.finish c wf m).duties = c :: s.duties := by
  simp [State.finish]
@[simp] theorem State.finish_breached (s : State) (c : InFlight) (wf : List Span) (m : Memory) : (s.finish c wf m).breached = false := by
  simp [State.finish]
@[simp] theorem State.finish_freeIx (s : State) (c : InFlight) (wf : List Span) (m : Memory) : (s.finish c wf m).freeIx = if s.breached then s.freeIx + (spansBytes wf).length else s.freeIx := by
  simp [State.finish]

@[simp] theorem State.takeFault_x0 (s : State) (c : InFlight) (wf : List Span) (k : FaultCause) : (s.takeFault c wf k).x0 = s.x0 := by
  simp [State.takeFault]
@[simp] theorem State.takeFault_x1 (s : State) (c : InFlight) (wf : List Span) (k : FaultCause) : (s.takeFault c wf k).x1 = s.x1 := by
  simp [State.takeFault]
@[simp] theorem State.takeFault_x2 (s : State) (c : InFlight) (wf : List Span) (k : FaultCause) : (s.takeFault c wf k).x2 = s.x2 := by
  simp [State.takeFault]
@[simp] theorem State.takeFault_x3 (s : State) (c : InFlight) (wf : List Span) (k : FaultCause) : (s.takeFault c wf k).x3 = s.x3 := by
  simp [State.takeFault]
@[simp] theorem State.takeFault_cmd (s : State) (c : InFlight) (wf : List Span) (k : FaultCause) : (s.takeFault c wf k).cmd = s.cmd := by
  simp [State.takeFault]
@[simp] theorem State.takeFault_status (s : State) (c : InFlight) (wf : List Span) (k : FaultCause) : (s.takeFault c wf k).status = { s.status with busy := false, err := true, cause := some k } := by
  simp [State.takeFault]
@[simp] theorem State.takeFault_ctrl (s : State) (c : InFlight) (wf : List Span) (k : FaultCause) : (s.takeFault c wf k).ctrl = s.ctrl := by
  simp [State.takeFault]
@[simp] theorem State.takeFault_errinfo (s : State) (c : InFlight) (wf : List Span) (k : FaultCause) : (s.takeFault c wf k).errinfo = c.word := by
  simp [State.takeFault]
@[simp] theorem State.takeFault_cur (s : State) (c : InFlight) (wf : List Span) (k : FaultCause) : (s.takeFault c wf k).cur = none := by
  simp [State.takeFault]
@[simp] theorem State.takeFault_mem (s : State) (c : InFlight) (wf : List Span) (k : FaultCause) : (s.takeFault c wf k).mem = if s.breached then s.mem.havoc (spansBytes wf) s.freeIx else s.mem := by
  simp [State.takeFault]
@[simp] theorem State.takeFault_host (s : State) (c : InFlight) (wf : List Span) (k : FaultCause) : (s.takeFault c wf k).host = s.host := by
  simp [State.takeFault]
@[simp] theorem State.takeFault_memMap (s : State) (c : InFlight) (wf : List Span) (k : FaultCause) : (s.takeFault c wf k).memMap = s.memMap := by
  simp [State.takeFault]
@[simp] theorem State.takeFault_turns (s : State) (c : InFlight) (wf : List Span) (k : FaultCause) : (s.takeFault c wf k).turns = s.turns := by
  simp [State.takeFault]
@[simp] theorem State.takeFault_hostReads (s : State) (c : InFlight) (wf : List Span) (k : FaultCause) : (s.takeFault c wf k).hostReads = s.hostReads := by
  simp [State.takeFault]
@[simp] theorem State.takeFault_duties (s : State) (c : InFlight) (wf : List Span) (k : FaultCause) : (s.takeFault c wf k).duties = c :: s.duties := by
  simp [State.takeFault]
@[simp] theorem State.takeFault_breached (s : State) (c : InFlight) (wf : List Span) (k : FaultCause) : (s.takeFault c wf k).breached = false := by
  simp [State.takeFault]
@[simp] theorem State.takeFault_freeIx (s : State) (c : InFlight) (wf : List Span) (k : FaultCause) : (s.takeFault c wf k).freeIx = if s.breached then s.freeIx + (spansBytes wf).length else s.freeIx := by
  simp [State.takeFault]

/-! ### Reset (R39) -/

@[simp] theorem State.resetEngine_x0 (s : State) : (s.resetEngine).x0 = 0 := rfl
@[simp] theorem State.resetEngine_x1 (s : State) : (s.resetEngine).x1 = 0 := rfl
@[simp] theorem State.resetEngine_x2 (s : State) : (s.resetEngine).x2 = 0 := rfl
@[simp] theorem State.resetEngine_x3 (s : State) : (s.resetEngine).x3 = 0 := rfl
@[simp] theorem State.resetEngine_cmd (s : State) : (s.resetEngine).cmd = 0 := rfl
@[simp] theorem State.resetEngine_status (s : State) : (s.resetEngine).status = Status.reset := rfl
@[simp] theorem State.resetEngine_ctrl (s : State) : (s.resetEngine).ctrl = Ctrl.reset := rfl
@[simp] theorem State.resetEngine_errinfo (s : State) : (s.resetEngine).errinfo = 0 := rfl
@[simp] theorem State.resetEngine_cur (s : State) : (s.resetEngine).cur = none := rfl
@[simp] theorem State.resetEngine_mem (s : State) : (s.resetEngine).mem = s.mem.havoc (spansBytes s.abortedFootprint) s.freeIx := rfl
@[simp] theorem State.resetEngine_host (s : State) : (s.resetEngine).host = s.host := rfl
@[simp] theorem State.resetEngine_memMap (s : State) : (s.resetEngine).memMap = s.memMap := rfl
@[simp] theorem State.resetEngine_turns (s : State) : (s.resetEngine).turns = s.turns := rfl
@[simp] theorem State.resetEngine_hostReads (s : State) : (s.resetEngine).hostReads = s.hostReads := rfl
@[simp] theorem State.resetEngine_duties (s : State) : (s.resetEngine).duties = [] := rfl
@[simp] theorem State.resetEngine_breached (s : State) : (s.resetEngine).breached = false := rfl
@[simp] theorem State.resetEngine_freeIx (s : State) : (s.resetEngine).freeIx = s.freeIx + (spansBytes s.abortedFootprint).length := rfl

/-! ### The states of Safety.lean -/

@[simp] theorem State.completedWith_x0 (s : State) (c : InFlight) (m : Memory) : (s.completedWith c m).x0 = s.x0 := rfl
@[simp] theorem State.completedWith_x1 (s : State) (c : InFlight) (m : Memory) : (s.completedWith c m).x1 = s.x1 := rfl
@[simp] theorem State.completedWith_x2 (s : State) (c : InFlight) (m : Memory) : (s.completedWith c m).x2 = s.x2 := rfl
@[simp] theorem State.completedWith_x3 (s : State) (c : InFlight) (m : Memory) : (s.completedWith c m).x3 = s.x3 := rfl
@[simp] theorem State.completedWith_cmd (s : State) (c : InFlight) (m : Memory) : (s.completedWith c m).cmd = s.cmd := rfl
@[simp] theorem State.completedWith_status (s : State) (c : InFlight) (m : Memory) : (s.completedWith c m).status = { s.status with busy := false, done := true } := rfl
@[simp] theorem State.completedWith_ctrl (s : State) (c : InFlight) (m : Memory) : (s.completedWith c m).ctrl = s.ctrl := rfl
@[simp] theorem State.completedWith_errinfo (s : State) (c : InFlight) (m : Memory) : (s.completedWith c m).errinfo = s.errinfo := rfl
@[simp] theorem State.completedWith_cur (s : State) (c : InFlight) (m : Memory) : (s.completedWith c m).cur = none := rfl
@[simp] theorem State.completedWith_mem (s : State) (c : InFlight) (m : Memory) : (s.completedWith c m).mem = m := rfl
@[simp] theorem State.completedWith_host (s : State) (c : InFlight) (m : Memory) : (s.completedWith c m).host = s.host := rfl
@[simp] theorem State.completedWith_memMap (s : State) (c : InFlight) (m : Memory) : (s.completedWith c m).memMap = s.memMap := rfl
@[simp] theorem State.completedWith_turns (s : State) (c : InFlight) (m : Memory) : (s.completedWith c m).turns = s.turns := rfl
@[simp] theorem State.completedWith_hostReads (s : State) (c : InFlight) (m : Memory) : (s.completedWith c m).hostReads = s.hostReads := rfl
@[simp] theorem State.completedWith_duties (s : State) (c : InFlight) (m : Memory) : (s.completedWith c m).duties = c :: s.duties := rfl
@[simp] theorem State.completedWith_breached (s : State) (c : InFlight) (m : Memory) : (s.completedWith c m).breached = s.breached := rfl
@[simp] theorem State.completedWith_freeIx (s : State) (c : InFlight) (m : Memory) : (s.completedWith c m).freeIx = s.freeIx := rfl

@[simp] theorem State.faultedWith_x0 (s : State) (c : InFlight) (k : FaultCause) : (s.faultedWith c k).x0 = s.x0 := rfl
@[simp] theorem State.faultedWith_x1 (s : State) (c : InFlight) (k : FaultCause) : (s.faultedWith c k).x1 = s.x1 := rfl
@[simp] theorem State.faultedWith_x2 (s : State) (c : InFlight) (k : FaultCause) : (s.faultedWith c k).x2 = s.x2 := rfl
@[simp] theorem State.faultedWith_x3 (s : State) (c : InFlight) (k : FaultCause) : (s.faultedWith c k).x3 = s.x3 := rfl
@[simp] theorem State.faultedWith_cmd (s : State) (c : InFlight) (k : FaultCause) : (s.faultedWith c k).cmd = s.cmd := rfl
@[simp] theorem State.faultedWith_status (s : State) (c : InFlight) (k : FaultCause) : (s.faultedWith c k).status = { s.status with busy := false, err := true, cause := some k } := rfl
@[simp] theorem State.faultedWith_ctrl (s : State) (c : InFlight) (k : FaultCause) : (s.faultedWith c k).ctrl = s.ctrl := rfl
@[simp] theorem State.faultedWith_errinfo (s : State) (c : InFlight) (k : FaultCause) : (s.faultedWith c k).errinfo = c.word := rfl
@[simp] theorem State.faultedWith_cur (s : State) (c : InFlight) (k : FaultCause) : (s.faultedWith c k).cur = none := rfl
@[simp] theorem State.faultedWith_mem (s : State) (c : InFlight) (k : FaultCause) : (s.faultedWith c k).mem = s.mem := rfl
@[simp] theorem State.faultedWith_host (s : State) (c : InFlight) (k : FaultCause) : (s.faultedWith c k).host = s.host := rfl
@[simp] theorem State.faultedWith_memMap (s : State) (c : InFlight) (k : FaultCause) : (s.faultedWith c k).memMap = s.memMap := rfl
@[simp] theorem State.faultedWith_turns (s : State) (c : InFlight) (k : FaultCause) : (s.faultedWith c k).turns = s.turns := rfl
@[simp] theorem State.faultedWith_hostReads (s : State) (c : InFlight) (k : FaultCause) : (s.faultedWith c k).hostReads = s.hostReads := rfl
@[simp] theorem State.faultedWith_duties (s : State) (c : InFlight) (k : FaultCause) : (s.faultedWith c k).duties = c :: s.duties := rfl
@[simp] theorem State.faultedWith_breached (s : State) (c : InFlight) (k : FaultCause) : (s.faultedWith c k).breached = s.breached := rfl
@[simp] theorem State.faultedWith_freeIx (s : State) (c : InFlight) (k : FaultCause) : (s.faultedWith c k).freeIx = s.freeIx := rfl

/-! ### Completion and faults of a host that kept its duty -/

theorem State.finish_of_kept {s : State} (h : s.breached = false) (c : InFlight) (wf : List Span) (m : Memory) :
    s.finish c wf m = s.completedWith c m := by
  simp [State.finish, State.retire, State.completedWith, h]

theorem State.takeFault_of_kept {s : State} (h : s.breached = false) (c : InFlight) (wf : List Span) (k : FaultCause) :
    s.takeFault c wf k = s.faultedWith c k := by
  simp [State.takeFault, State.retire, State.faultedWith, h]

end Sys2Proof.Machine
end

