-- ==== Sys2Proof/Laws/Run.lean ====
section
/-! SUPPORT. What the frame of every command (`runCommand`) can do, and how each command's meaning runs in it. -/

namespace Sys2Proof.Machine

/-- The memory effect of each command, as its meaning gives it to `runCommand`. -/
def effectOf : Instr → InFlight → Memory → Memory
  | .fill w h val => fun c m => m.storeAll (fillStores w.cols h.toNat val c)
  | .clr1 => fun c m => m.storeAll (clearStores 16 c)
  | .clr24 => fun c m => m.storeAll (clearStores 384 c)
  | .copy w h => fun c m => m.storeAll (copyStores w.cols h.toNat c m)
  | .epelV4 w h my => fun c m => m.storeAll (vStores .four w.cols h.toNat my c m)
  | .epelV6 w h my => fun c m => m.storeAll (vStores .six w.cols h.toNat my c m)
  | .epelH4 w h mx => fun c m => m.storeAll (hStores .four w.cols h.toNat mx c m)
  | .epelH4V4 w h mx my => fun c m => m.storeAll (hvStores .four .four w.cols h.toNat mx my c m)
  | .epelH4V6 w h mx my => fun c m => m.storeAll (hvStores .four .six w.cols h.toNat mx my c m)
  | .epelH6 w h mx => fun c m => m.storeAll (hStores .six w.cols h.toNat mx c m)
  | .epelH6V4 w h mx my => fun c m => m.storeAll (hvStores .six .four w.cols h.toNat mx my c m)
  | .epelH6V6 w h mx my => fun c m => m.storeAll (hvStores .six .six w.cols h.toNat mx my c m)
  | .bilinV w h my => fun c m =>
    m.storeAll (blockStores c.dst c.dstride w.cols h.toNat fun y x => bilV my c m y x)
  | .bilinH w h mx => fun c m =>
    m.storeAll (blockStores c.dst c.dstride w.cols h.toNat fun y x => bilH mx c m y x)
  | .bilinHV w h mx my => fun c m => m.storeAll (bilinHVStores w.cols h.toNat mx my c m)
  | .idctAdd => fun c m => m.storeAll (idctAddStores c m)
  | .idctDcAdd => fun c m => m.storeAll (dcAddStores m c.dst c.dstride c.aux)
  | .idctDcAdd4y => fun c m => m.storeAll ((List.range 4).flatMap fun (k : Nat) =>
    dcAddStores m (c.dst + 4 * k) c.dstride (c.aux + 32 * k))
  | .idctDcAdd4uv => fun c m => m.storeAll ((List.range 4).flatMap fun (k : Nat) =>
    dcAddStores m (c.dst + 4 * ((k / 2 : Nat) : Int) * c.dstride + 4 * ((k % 2 : Nat) : Int)) c.dstride (c.aux + 32 * k))
  | .wht => fun c m => m.storeAll (whtStores c m)
  | .whtDc => fun c m => m.storeAll (whtDcStores c m)
  | .lfsV n e => filterPlanes .simple { e, i := 0, hev := 0 } .v n.positions false
  | .lfsH n e => filterPlanes .simple { e, i := 0, hev := 0 } .h n.positions false
  | .lfiV n pair e i hev => filterPlanes .inner { e, i, hev } .v n.positions pair
  | .lfiH n pair e i hev => filterPlanes .inner { e, i, hev } .h n.positions pair
  | .lfmV n pair e i hev => filterPlanes .mbEdge { e, i, hev } .v n.positions pair
  | .lfmH n pair e i hev => filterPlanes .mbEdge { e, i, hev } .h n.positions pair

/-- Every meaning runs in the one frame. -/
theorem exec_eq_runCommand (i : Instr) (s : State) : exec i s = runCommand i (effectOf i) s := by
  cases i <;> rfl

/-- Everything `runCommand` can do with a command in flight: take the first fault, or complete. -/
theorem runCommand_cases {i : Instr} {f : InFlight → Memory → Memory} {s : State} {c : InFlight} (hc : s.cur = some c) :
    (∃ k, (planOf i c).firstFault c.dstride s.memMap = some k ∧
        runCommand i f s = .next (s.takeFault c (planOf i c).wf k)) ∨
      ((planOf i c).firstFault c.dstride s.memMap = none ∧
        runCommand i f s = .next (s.finish c (planOf i c).wf (f c s.mem))) := by
  simp only [runCommand, hc]
  cases hk : (planOf i c).firstFault c.dstride s.memMap with
  | some k => exact .inl ⟨k, rfl, rfl⟩
  | none => exact .inr ⟨rfl, rfl⟩

/-- `runCommand` answers a next state only with a command in flight. -/
theorem runCommand_next_cur {i : Instr} {f : InFlight → Memory → Memory} {s t : State} (h : runCommand i f s = .next t) :
    ∃ c, s.cur = some c := by
  cases hc : s.cur with
  | none => simp [runCommand, hc] at h
  | some c => exact ⟨c, rfl⟩

/-- A command whose checks pass completes (R44). -/
theorem runCommand_completes {i : Instr} {f : InFlight → Memory → Memory} {s : State} {c : InFlight} (hr : Running s c)
    (hk : (planOf i c).firstFault c.dstride s.memMap = none) :
    runCommand i f s = .next (s.completedWith c (f c s.mem)) := by
  simp only [runCommand, hr.1, hk, State.finish_of_kept hr.2.1]

/-- A command whose first failing check is `k` takes that fault (R232). -/
theorem runCommand_faults {i : Instr} {f : InFlight → Memory → Memory} {s : State} {c : InFlight} {k : FaultCause}
    (hr : Running s c) (hk : (planOf i c).firstFault c.dstride s.memMap = some k) :
    runCommand i f s = .next (s.faultedWith c k) := by
  simp only [runCommand, hr.1, hk, State.takeFault_of_kept hr.2.1]

/-- A command whose checks pass and whose effect is a list of stores completes; the stores' addresses bound what changes. -/
theorem runCommand_stores {i : Instr} {f : InFlight → Memory → List Store} {s : State} {c : InFlight} (hr : Running s c)
    (hk : (planOf i c).firstFault c.dstride s.memMap = none) {W : Int → Prop} {R : Memory → Prop}
    (hW : ∀ p ∈ f c s.mem, W p.1) (hR : R (s.mem.storeAll (f c s.mem))) :
    CompletesWith (runCommand i (fun c m => m.storeAll (f c m)) s) s c W R :=
  ⟨_, runCommand_completes hr hk, Memory.storeAll_wf hr.2.2 _, hR, fun _ ha =>
    Memory.storeAll_read_other hr.2.2 fun p hp he => ha (he ▸ hW p hp)⟩

end Sys2Proof.Machine
end

