-- ==== Sys2Proof/Laws/Effects.lean ====
section
/-! SUPPORT. What the effect of each command can do to memory: it keeps the canonical form, and it stores only inside the write
footprint (00_scope R15). -/

namespace Sys2Proof.Machine

/-! ### Addresses of stores -/

theorem addr_blockStores {base stride : Int} {w h : Nat} {f : Nat → Nat → Int} {p : Store}
    (hp : p ∈ blockStores base stride w h f) : InBlock base stride w h p.1 := by
  obtain ⟨y, x, hy, hx, rfl⟩ := mem_blockStores.mp hp
  exact ⟨y, x, hy, hx, rfl⟩

theorem addr_coefStores {a v : Int} {p : Store} (hp : p ∈ coefStores a v) : InBytes a 2 p.1 := by
  simp only [coefStores_eq, List.mem_cons, List.not_mem_nil, or_false] at hp
  rcases hp with rfl | rfl <;> simp only [InBytes] <;> omega

/-- The stores of `n` zero coefficients from `base` on. -/
theorem addr_zeroStores {base : Int} {n : Nat} {p : Store}
    (hp : p ∈ (List.range n).flatMap fun (i : Nat) => coefStores (base + 2 * i) 0) : InBytes base (2 * n) p.1 := by
  obtain ⟨i, hi, hp⟩ := List.mem_flatMap.mp hp
  have hi := List.mem_range.mp hi
  have := addr_coefStores hp
  simp only [InBytes] at this ⊢
  omega

theorem addr_dcAddStores {m : Memory} {base stride ca : Int} {p : Store} (hp : p ∈ dcAddStores m base stride ca) :
    InBlock base stride 4 4 p.1 ∨ InBytes ca 2 p.1 := by
  rcases List.mem_append.mp hp with hp | hp
  · exact .inl (addr_blockStores hp)
  · exact .inr (addr_coefStores hp)

theorem addr_slotStores {c : InFlight} {f : Nat → Nat → Int} {p : Store} (hp : p ∈ slotStores c f) : InSlots c p.1 := by
  obtain ⟨i, hi, hp⟩ := List.mem_flatMap.mp hp
  obtain ⟨j, hj, hp⟩ := List.mem_flatMap.mp hp
  have hi := List.mem_range.mp hi
  have hj := List.mem_range.mp hj
  have := addr_coefStores hp
  refine ⟨4 * i + j, by omega, ?_⟩
  simp only [InBytes, slotAddr] at this ⊢
  push_cast at this ⊢
  exact this

theorem addr_positionStores {kind : FilterKind} {th : Thresholds} {d : Direction} {base stride : Int} {m : Memory} {i : Nat}
    {p : Store} (hp : p ∈ positionStores kind th d base stride m i) :
    ∃ k : Int, kind.lo ≤ k ∧ k ≤ kind.lo + kind.count - 1 ∧ p.1 = tapAddr d base stride i k := by
  obtain ⟨k, hk, rfl⟩ := List.mem_map.mp hp
  have := choose_taps_range hk
  exact ⟨k, this.1, this.2, rfl⟩

theorem addr_planeStores {kind : FilterKind} {th : Thresholds} {d : Direction} {n : Nat} {base stride : Int} {m : Memory}
    {p : Store} (hp : p ∈ (List.range n).flatMap fun (i : Nat) => positionStores kind th d base stride m i) :
    InTaps d base stride n kind.lo (kind.lo + kind.count - 1) p.1 := by
  obtain ⟨i, hi, hp⟩ := List.mem_flatMap.mp hp
  obtain ⟨k, h1, h2, he⟩ := addr_positionStores hp
  exact ⟨i, k, List.mem_range.mp hi, h1, h2, he⟩

/-! ### Sub-blocks of the DC commands -/

/-- The four 4×4 sub-blocks of IDCT_DC_ADD4Y lie in the 16×4 strip (R187). -/
theorem inBlock_4y {base stride a : Int} {k : Nat} (hk : k < 4) (h : InBlock (base + 4 * k) stride 4 4 a) :
    InBlock base stride 16 4 a := by
  obtain ⟨y, x, hy, hx, rfl⟩ := h
  exact ⟨y, 4 * k + x, hy, by omega, by push_cast; ring⟩

/-- The four 4×4 sub-blocks of IDCT_DC_ADD4UV lie in the 8×8 region (R188). -/
theorem inBlock_4uv {base stride a : Int} {k : Nat} (hk : k < 4)
    (h : InBlock (base + 4 * ((k / 2 : Nat) : Int) * stride + 4 * ((k % 2 : Nat) : Int)) stride 4 4 a) :
    InBlock base stride 8 8 a := by
  obtain ⟨y, x, hy, hx, rfl⟩ := h
  exact ⟨4 * (k / 2) + y, 4 * (k % 2) + x, by omega, by omega, by push_cast; ring⟩

/-! ### One plane -/

theorem filterPlane_wf {kind : FilterKind} {th : Thresholds} {d : Direction} {n : Nat} {base stride : Int} {m : Memory}
    (hm : m.wf = true) : (filterPlane kind th d n base stride m).wf = true :=
  Memory.storeAll_wf hm _

theorem filterPlane_read_other {kind : FilterKind} {th : Thresholds} {d : Direction} {n : Nat} {base stride : Int}
    {m : Memory} (hm : m.wf = true) {a : Nat}
    (ha : ¬ InTaps d base stride n kind.lo (kind.lo + kind.count - 1) a) :
    (filterPlane kind th d n base stride m).read a = m.read a :=
  Memory.storeAll_read_other hm fun _ hp he => ha (he ▸ addr_planeStores hp)

theorem filterPlanes_wf {kind : FilterKind} {th : Thresholds} {d : Direction} {n : Nat} {pair : Bool} {c : InFlight}
    {m : Memory} (hm : m.wf = true) : (filterPlanes kind th d n pair c m).wf = true := by
  cases pair
  · exact filterPlane_wf hm
  · exact filterPlane_wf (filterPlane_wf hm)

theorem filterPlanes_read_other {kind : FilterKind} {th : Thresholds} {d : Direction} {n : Nat} {pair legal : Bool}
    {c : InFlight} {m : Memory} (hm : m.wf = true) {a : Nat}
    (ha : spansHave (filterPlan legal kind d n pair c).wf a = false) :
    (filterPlanes kind th d n pair c m).read a = m.read a := by
  have key : ∀ b ∈ planeBases pair c, ¬ InTaps d b c.dstride n kind.lo (kind.lo + kind.count - 1) a := by
    intro b hb ht
    have := (spansHave_taps d n b c.dstride kind.lo kind.count a).mpr ht
    obtain ⟨sp, hsp, hsa⟩ := (spansHave_iff ..).mp this
    have : spansHave (filterPlan legal kind d n pair c).wf a = true :=
      (spansHave_iff ..).mpr ⟨sp, List.mem_flatMap.mpr ⟨b, hb, hsp⟩, hsa⟩
    simp [this] at ha
  cases pair
  · exact filterPlane_read_other hm (key _ (by simp [planeBases]))
  · show (filterPlane _ _ _ _ _ _ (filterPlane ..)).read a = _
    rw [filterPlane_read_other (filterPlane_wf hm) (key _ (by simp [planeBases])),
      filterPlane_read_other hm (key _ (by simp [planeBases]))]

/-! ### Every command -/

/-- A command keeps memory canonical. -/
theorem effectOf_wf (i : Instr) (c : InFlight) {m : Memory} (hm : m.wf = true) : (effectOf i c m).wf = true := by
  cases i <;> first
    | exact Memory.storeAll_wf hm _
    | exact filterPlanes_wf hm

theorem not_of_spansHave_false {l : List Span} {a : Int} (h : spansHave l a = false) : ¬ spansHave l a = true := by
  rw [h]; exact Bool.false_ne_true

/-- A command changes no byte outside its write footprint (R15, R62). -/
theorem effectOf_read_other (i : Instr) (c : InFlight) {m : Memory} (hm : m.wf = true) {a : Nat}
    (ha : spansHave (planOf i c).wf a = false) : (effectOf i c m).read a = m.read a := by
  have hn := not_of_spansHave_false ha
  cases i with
  | fill w h val =>
    exact Memory.storeAll_read_other hm fun p hp he => hn ((spansHave_block ..).mpr (he ▸ addr_blockStores hp))
  | clr1 =>
    exact Memory.storeAll_read_other hm fun p hp he => hn ((spansHave_bytes ..).mpr (he ▸ addr_zeroStores hp))
  | clr24 =>
    exact Memory.storeAll_read_other hm fun p hp he => hn ((spansHave_bytes ..).mpr (he ▸ addr_zeroStores hp))
  | idctAdd =>
    refine Memory.storeAll_read_other hm fun p hp he => hn ?_
    simp only [planOf, idctPlan, spansHave_append, Bool.or_eq_true, spansHave_bytes, spansHave_block]
    rcases List.mem_append.mp hp with hp | hp
    · exact .inr (he ▸ addr_blockStores hp)
    · exact .inl (he ▸ addr_zeroStores hp)
  | idctDcAdd =>
    refine Memory.storeAll_read_other hm fun p hp he => hn ?_
    simp only [planOf, idctPlan, spansHave_append, Bool.or_eq_true, spansHave_bytes, spansHave_block]
    exact (he ▸ addr_dcAddStores hp).symm
  | idctDcAdd4y =>
    refine Memory.storeAll_read_other hm fun p hp he => hn ?_
    simp only [planOf, idctPlan, spansHave_append, Bool.or_eq_true, spansHave_fourDc, spansHave_block]
    obtain ⟨k, hk, hp⟩ := List.mem_flatMap.mp hp
    have hk := List.mem_range.mp hk
    rcases he ▸ addr_dcAddStores hp with h | h
    · exact .inr (inBlock_4y hk h)
    · exact .inl ⟨k, hk, h⟩
  | idctDcAdd4uv =>
    refine Memory.storeAll_read_other hm fun p hp he => hn ?_
    simp only [planOf, idctPlan, spansHave_append, Bool.or_eq_true, spansHave_fourDc, spansHave_block]
    obtain ⟨k, hk, hp⟩ := List.mem_flatMap.mp hp
    have hk := List.mem_range.mp hk
    rcases he ▸ addr_dcAddStores hp with h | h
    · exact .inr (inBlock_4uv hk h)
    · exact .inl ⟨k, hk, h⟩
  | wht =>
    refine Memory.storeAll_read_other hm fun p hp he => hn ?_
    have : InBytes c.aux 32 (a : Int) ∨ InSlots c a := by
      rcases List.mem_append.mp hp with hp | hp
      · exact .inr (he ▸ addr_slotStores hp)
      · exact .inl (he ▸ addr_zeroStores hp)
    rw [← spansHave_bytes, ← spansHave_slots] at this
    simp only [planOf, whtPlan, spansHave_cons, Bool.or_eq_true, spansHave_nil] at this ⊢
    tauto
  | whtDc =>
    refine Memory.storeAll_read_other hm fun p hp he => hn ?_
    have : InBytes c.aux 2 (a : Int) ∨ InSlots c a := by
      rcases List.mem_append.mp hp with hp | hp
      · exact .inr (he ▸ addr_slotStores hp)
      · exact .inl (he ▸ addr_coefStores hp)
    rw [← spansHave_bytes, ← spansHave_slots] at this
    simp only [planOf, whtPlan, spansHave_cons, Bool.or_eq_true, spansHave_nil] at this ⊢
    tauto
  | lfsV n e => exact filterPlanes_read_other hm ha
  | lfsH n e => exact filterPlanes_read_other hm ha
  | lfiV n pair e i hev => exact filterPlanes_read_other hm ha
  | lfiH n pair e i hev => exact filterPlanes_read_other hm ha
  | lfmV n pair e i hev => exact filterPlanes_read_other hm ha
  | lfmH n pair e i hev => exact filterPlanes_read_other hm ha
  | _ =>
    exact Memory.storeAll_read_other hm fun p hp he => hn ((spansHave_block ..).mpr (he ▸ addr_blockStores hp))

end Sys2Proof.Machine
end

