-- ==== Sys2Proof/Laws/Results.lean ====
section
/-! SUPPORT. What memory holds after the stores of each form: blocks of samples, zeroed coefficients, DC slots, filtered planes. -/

namespace Sys2Proof.Machine

/-- The address of a sample as a Nat reads as the sample. -/
theorem read_toNat_eq_px (m : Memory) (b : Nat) : ((m.read b).toNat : Int) = px m b := by simp [px]

/-! ### Blocks -/

theorem blockStores_holds {m : Memory} (hm : m.wf = true) {base stride : Int} {w h : Nat} (hs : StrideCovers stride w)
    (ha : ∀ a, InBlock base stride w h a → a < (Config.addrLimit : Int)) {f : Nat → Nat → Int}
    (hf : ∀ y x, 0 ≤ f y x ∧ f y x ≤ 255) :
    BlockHolds (m.storeAll (blockStores base stride w h f)) base stride w h f := by
  intro y x b hy hx hb
  rw [blockStores_read hm (strideCovers_cases hs) hy hx hb
    (by have := ha b ⟨y, x, hy, hx, hb⟩; omega)]
  exact byteOf_toNat (hf y x).1 (hf y x).2

/-- Two functions that agree inside a block describe the same block. -/
theorem BlockHolds.congr {m : Memory} {base stride : Int} {w h : Nat} {f g : Nat → Nat → Int}
    (hb : BlockHolds m base stride w h f) (hfg : ∀ y x, y < h → x < w → f y x = g y x) : BlockHolds m base stride w h g :=
  fun y x b hy hx he => by rw [hb y x b hy hx he, hfg y x hy hx]

/-- A command whose effect is one block of samples completes and leaves exactly that block. -/
theorem runCommand_block {i : Instr} {s : State} {c : InFlight} {w h : Nat} {f : InFlight → Memory → Nat → Nat → Int}
    (hr : Running s c) (hk : (planOf i c).firstFault c.dstride s.memMap = none) (hs : StrideCovers c.dstride w)
    (ha : ∀ a, InBlock c.dst c.dstride w h a → Accessible s a) (hf : ∀ y x, 0 ≤ f c s.mem y x ∧ f c s.mem y x ≤ 255) :
    CompletesWith (runCommand i (fun c m => m.storeAll (blockStores c.dst c.dstride w h (f c m))) s) s c
      (InBlock c.dst c.dstride w h) fun m => BlockHolds m c.dst c.dstride w h (f c s.mem) :=
  runCommand_stores hr hk (fun _ hp => addr_blockStores hp)
    (blockStores_holds hr.2.2 hs (fun a h => (ha a h).2.1) hf)

/-! ### Zeroed coefficients -/

theorem value_coefZero {a : Int} {p : Store} (hp : p ∈ coefStores a 0) : p.2 = 0 := by
  simp only [coefStores_eq, List.mem_cons, List.not_mem_nil, or_false] at hp
  rcases hp with rfl | rfl
  · show byteOf 0 = 0; decide
  · show byteOf (0 / 256) = 0; decide

theorem value_zeroStores {base : Int} {n : Nat} {p : Store}
    (hp : p ∈ (List.range n).flatMap fun (i : Nat) => coefStores (base + 2 * i) 0) : p.2 = 0 := by
  obtain ⟨i, _, hp⟩ := List.mem_flatMap.mp hp
  exact value_coefZero hp

theorem mem_zeroStores {base a : Int} {n : Nat} (ha : InBytes base (2 * n) a) :
    (a, (0 : Byte)) ∈ (List.range n).flatMap fun (i : Nat) => coefStores (base + 2 * i) 0 := by
  simp only [InBytes] at ha
  refine List.mem_flatMap.mpr ⟨((a - base) / 2).toNat, List.mem_range.mpr (by omega), ?_⟩
  have hz : (byteOf 0 : Byte) = 0 := by decide
  have hz' : (byteOf (0 / 256) : Byte) = 0 := by decide
  simp only [coefStores_eq, List.mem_cons, List.not_mem_nil, or_false, Prod.mk.injEq, hz, hz', and_true]
  omega

/-- Making zero stores after any others leaves their bytes zero. -/
theorem zeroStores_holds {m : Memory} (hm : m.wf = true) {base : Int} {n : Nat}
    (ha : ∀ a, InBytes base (2 * n) a → a < (Config.addrLimit : Int)) :
    ZeroBytes (m.storeAll ((List.range n).flatMap fun (i : Nat) => coefStores (base + 2 * i) 0)) base (2 * n) := by
  intro b hb
  refine Memory.storeAll_read_of_mem hm ?_ (mem_zeroStores hb) fun p hp _ => value_zeroStores hp
  have := ha b hb
  omega

/-- One zero coefficient. -/
theorem coefZero_holds {m : Memory} (hm : m.wf = true) {a : Int} (ha : ∀ b, InBytes a 2 b → b < (Config.addrLimit : Int)) :
    ZeroBytes (m.storeAll (coefStores a 0)) a 2 := by
  have h := zeroStores_holds (n := 1) (base := a) hm (by simpa using ha)
  simpa using h

/-- Zero bytes that later stores do not touch stay zero. -/
theorem ZeroBytes.storeAll {m : Memory} (hm : m.wf = true) {base : Int} {n : Nat} (h : ZeroBytes m base n) {l : List Store}
    (hl : ∀ p ∈ l, ¬ InBytes base n p.1) : ZeroBytes (m.storeAll l) base n := fun b hb => by
  rw [Memory.storeAll_read_other hm fun p hp he => hl p hp (he ▸ hb)]
  exact h b hb

/-- A block that later stores do not touch stays. -/
theorem BlockHolds.storeAll {m : Memory} (hm : m.wf = true) {base stride : Int} {w h : Nat} {f : Nat → Nat → Int}
    (hb : BlockHolds m base stride w h f) {l : List Store} (hl : ∀ p ∈ l, ¬ InBlock base stride w h p.1) :
    BlockHolds (m.storeAll l) base stride w h f := fun y x b hy hx he => by
  rw [Memory.storeAll_read_other hm fun p hp hpe => hl p hp (hpe ▸ ⟨y, x, hy, hx, he⟩)]
  exact hb y x b hy hx he

/-! ### The DC commands over several sub-blocks (R185, R187, R188) -/

/-- The pixel and coefficient stores of a list of DC adds, told apart. -/
theorem mem_dcAdds {m : Memory} {n : Nat} {base ca : Nat → Int} {stride : Int} {p : Store} :
    (p ∈ (List.range n).flatMap fun (k : Nat) => dcAddStores m (base k) stride (ca k)) ↔
      ∃ k < n, (∃ y x : Nat, y < 4 ∧ x < 4 ∧ p = (base k + y * stride + x,
          byteOf (clipU8 (px m (base k + y * stride + x) + asr (cf m (ca k) + 4) 3)))) ∨ p ∈ coefStores (ca k) 0 := by
  simp only [List.mem_flatMap, List.mem_range, dcAddStores, List.mem_append, mem_blockStores]

/-- A DC add over sub-blocks of one larger block: sample `(y, x)` of the larger block belongs to sub-block `sub y x`. -/
theorem dcAdds_block {m : Memory} (hm : m.wf = true) {n w h : Nat} {base0 stride : Int} {base ca : Nat → Int}
    {row col : Nat → Nat} (hbase : ∀ k, base k = base0 + row k * stride + col k) (hs : StrideCovers stride w)
    (hfit : ∀ k, k < n → row k + 4 ≤ h ∧ col k + 4 ≤ w)
    (ha : ∀ a, InBlock base0 stride w h a → a < (Config.addrLimit : Int))
    (hapart : ∀ k < n, ∀ a, InBytes (ca k) 2 a → ¬ InBlock base0 stride w h a)
    (hsep : ∀ k < n, ∀ j < n, ∀ y x y' x' : Nat, y < 4 → x < 4 → y' < 4 → x' < 4 →
      row k + y = row j + y' → col k + x = col j + x' → k = j)
    {k y x b : Nat} (hk : k < n) (hy : y < 4) (hx : x < 4) (hb : (b : Int) = base k + y * stride + x) :
    (((m.storeAll ((List.range n).flatMap fun (k : Nat) => dcAddStores m (base k) stride (ca k))).read b).toNat : Int) =
      clipU8 (px m b + asr (cf m (ca k) + 4) 3) := by
  have hfk := hfit k hk
  have hin : InBlock base0 stride w h (b : Int) :=
    ⟨row k + y, col k + x, by omega, by omega, by rw [hb, hbase]; push_cast; ring⟩
  rw [Memory.storeAll_read_of_mem (v := byteOf (clipU8 (px m b + asr (cf m (ca k) + 4) 3))) hm
    (by have := ha b hin; omega)
    (mem_dcAdds.mpr ⟨k, hk, .inl ⟨y, x, hy, hx, by rw [hb]⟩⟩) ?_]
  · exact byteOf_clipU8 _
  · intro p hp he
    obtain ⟨j, hj, ⟨y', x', hy', hx', rfl⟩ | hp⟩ := mem_dcAdds.mp hp
    · have hfj := hfit j hj
      have he' : base j + y' * stride + x' = (b : Int) := he
      have heq : ((row j + y' : Nat) : Int) * stride + ((col j + x' : Nat) : Int) =
          ((row k + y : Nat) : Int) * stride + ((col k + x : Nat) : Int) := by
        rw [hb, hbase, hbase] at he'
        push_cast
        linarith
      obtain ⟨h1, h2⟩ := block_addr_inj (strideCovers_cases hs) (by omega) (by omega) heq
      obtain rfl := hsep j hj k hk y' x' y x hy' hx' hy hx h1 h2
      simp only [he']
    · exact absurd (he ▸ hin) (hapart j hj p.1 (addr_coefStores hp))

/-- The coefficients a list of DC adds reads are zero afterwards. -/
theorem dcAdds_zero {m : Memory} (hm : m.wf = true) {n : Nat} {stride : Int} {base ca : Nat → Int}
    (ha : ∀ k < n, ∀ a, InBytes (ca k) 2 a → a < (Config.addrLimit : Int))
    (hapart : ∀ k < n, ∀ j < n, ∀ a, InBytes (ca k) 2 a → ¬ InBlock (base j) stride 4 4 a) {k : Nat} (hk : k < n) :
    ZeroBytes (m.storeAll ((List.range n).flatMap fun (k : Nat) => dcAddStores m (base k) stride (ca k))) (ca k) 2 := by
  intro b hb
  refine Memory.storeAll_read_of_mem hm (by have := ha k hk b hb; omega) (mem_dcAdds.mpr ⟨k, hk, .inr ?_⟩) ?_
  · have h0 : (byteOf 0 : Byte) = 0 := by decide
    have h1 : (byteOf (0 / 256) : Byte) = 0 := by decide
    simp only [InBytes] at hb
    simp only [coefStores_eq, List.mem_cons, List.not_mem_nil, or_false, Prod.mk.injEq, h0, h1, and_true]
    omega
  · intro p hp he
    obtain ⟨j, hj, ⟨y', x', hy', hx', rfl⟩ | hp⟩ := mem_dcAdds.mp hp
    · exact absurd ⟨y', x', hy', hx', he.symm⟩ (hapart k hk j hj b hb)
    · exact value_coefZero hp

/-! ### DC slots (R189) -/

theorem mem_slotStores {c : InFlight} {f : Nat → Nat → Int} {p : Store} :
    p ∈ slotStores c f ↔ ∃ i < 4, ∃ j < 4, p ∈ coefStores (slotAddr c i j) (f i j) := by
  simp only [slotStores, List.mem_flatMap, List.mem_range]

/-- After the slot stores, slot `(i, j)` reads as the value stored, narrowed to 16 bits. -/
theorem slotStores_cf {m : Memory} (hm : m.wf = true) {c : InFlight}
    (ha : ∀ a, InSlots c a → 0 ≤ a ∧ a < (Config.addrLimit : Int)) {f : Nat → Nat → Int} {i j : Nat} (hi : i < 4) (hj : j < 4) :
    cf (m.storeAll (slotStores c f)) (slotAddr c i j) = sext 16 (f i j) := by
  have hlo := ha (slotAddr c i j) ⟨4 * i + j, by omega, by simp only [InBytes, slotAddr]; push_cast; omega⟩
  have hhi := ha (slotAddr c i j + 1) ⟨4 * i + j, by omega, by simp only [InBytes, slotAddr]; push_cast; omega⟩
  obtain ⟨b, hb⟩ : ∃ b : Nat, slotAddr c i j = b := ⟨(slotAddr c i j).toNat, by omega⟩
  have huniq : ∀ p ∈ slotStores c f, ∀ e : Nat, e < 2 → p.1 = ((b + e : Nat) : Int) →
      p.2 = if e = 0 then byteOf (f i j) else byteOf (f i j / 256) := by
    intro p hp e he hpe
    obtain ⟨i', hi', j', hj', hp⟩ := mem_slotStores.mp hp
    have hin := addr_coefStores hp
    have hsame : i' = i ∧ j' = j := by
      simp only [InBytes, slotAddr] at hin hb
      rw [hpe] at hin
      push_cast at hin
      omega
    obtain ⟨rfl, rfl⟩ := hsame
    simp only [coefStores_eq, List.mem_cons, List.not_mem_nil, or_false] at hp
    rcases hp with rfl | rfl
    · have : e = 0 := by simp only [hb] at hpe; push_cast at hpe; omega
      simp [this]
    · have : e = 1 := by simp only [hb] at hpe; push_cast at hpe; omega
      simp [this]
  have hmem : ∀ e : Nat, e < 2 → (((b + e : Nat) : Int), if e = 0 then byteOf (f i j) else byteOf (f i j / 256)) ∈
      slotStores c f := by
    intro e he
    refine mem_slotStores.mpr ⟨i, hi, j, hj, ?_⟩
    obtain rfl | rfl : e = 0 ∨ e = 1 := by omega
    · simp [coefStores_eq, hb]
    · simp [coefStores_eq, hb]
  rw [hb]
  refine cf_of_reads ?_ ?_
  · have := Memory.storeAll_read_of_mem hm (by omega) (hmem 0 (by omega)) (fun p hp he => huniq p hp 0 (by omega) he)
    simpa using this
  · have := Memory.storeAll_read_of_mem hm (by rw [hb] at hhi; omega) (hmem 1 (by omega))
      (fun p hp he => huniq p hp 1 (by omega) he)
    simpa using this

/-- A coefficient reads the same in memories that agree on its two bytes. -/
theorem cf_congr {m m' : Memory} {a : Int} (h : 0 ≤ a) (h0 : ∀ b : Nat, InBytes a 2 b → m.read b = m'.read b) :
    cf m a = cf m' a := by
  have e1 := h0 a.toNat (by simp only [InBytes]; omega)
  have e2 := h0 (a + 1).toNat (by simp only [InBytes]; omega)
  simp only [cf_eq, px, e1, e2]

/-! ### Filtered planes (R210) -/

/-- The taps of a plane have distinct addresses (R212 (2)). -/
theorem tapAddr_inj {d : Direction} {n : Nat} {base stride : Int} (hs : StrideCovers stride (match d with | .v => n | .h => 8))
    {i j : Nat} {k l : Int} (hi : i < n) (hj : j < n) (hk : -4 ≤ k ∧ k ≤ 3) (hl : -4 ≤ l ∧ l ≤ 3)
    (he : tapAddr d base stride i k = tapAddr d base stride j l) : i = j ∧ k = l := by
  cases d with
  | v =>
    simp only [tapAddr] at he
    have := block_addr_inj (strideCovers_cases hs) (y := (k + 4).toNat) (y' := (l + 4).toNat) hi hj (by
      rw [Int.toNat_of_nonneg (by omega), Int.toNat_of_nonneg (by omega)]; linarith)
    omega
  | h =>
    simp only [tapAddr] at he
    have hs : StrideCovers stride 8 := hs
    have := block_addr_inj (strideCovers_cases hs) (y := i) (y' := j) (x := (k + 4).toNat) (x' := (l + 4).toNat)
      (by omega) (by omega) (by
        rw [Int.toNat_of_nonneg (by omega), Int.toNat_of_nonneg (by omega)]; linarith)
    omega

/-- A plane filtered is what R209 and R210 say of it, tap by tap. -/
theorem filterPlane_filtered {kind : FilterKind} {th : Thresholds} {d : Direction} {n : Nat} {base stride : Int} {m : Memory}
    (hm : m.wf = true) (hs : StrideCovers stride (match d with | .v => n | .h => 8))
    (ha : ∀ a, InTaps d base stride n (-4) 3 a → 0 ≤ a ∧ a < (Config.addrLimit : Int)) :
    PlaneFiltered kind th d n base stride m (filterPlane kind th d n base stride m) := by
  refine ⟨fun i k b hi h1 h2 hb => ?_, fun a hn => filterPlane_read_other hm hn⟩
  have hlim := ha b ⟨i, k, hi, h1, h2, hb⟩
  by_cases hk : k ∈ (choose kind th (octetAt d base stride m i)).taps
  · rw [filterPlane, Memory.storeAll_read_of_mem
      (v := byteOf ((filterOctet kind th (octetAt d base stride m i)).tap k)) hm (by omega)]
    · exact byteOf_toNat (Correction.apply_tap_range _ _ hk).1 (Correction.apply_tap_range _ _ hk).2
    · refine List.mem_flatMap.mpr ⟨i, List.mem_range.mpr hi, List.mem_map.mpr ⟨k, hk, ?_⟩⟩
      rw [hb]
    · intro p hp he
      obtain ⟨j, hj, hp⟩ := List.mem_flatMap.mp hp
      obtain ⟨l, hl, rfl⟩ := List.mem_map.mp hp
      have hr := choose_taps_range hl
      have hlr : -4 ≤ l ∧ l ≤ 3 := by cases kind <;> simp [FilterKind.lo, FilterKind.count] at hr <;> omega
      obtain ⟨rfl, rfl⟩ := tapAddr_inj hs (List.mem_range.mp hj) hi hlr ⟨h1, h2⟩ (by rw [← hb]; exact he)
      rfl
  · rw [filterOctet, Correction.apply_tap_other _ _ h1 h2 hk, octetAt_tap _ _ _ _ _ h1 h2, ← hb, ← read_toNat_eq_px,
      filterPlane, Memory.storeAll_read_other hm]
    intro p hp he
    obtain ⟨j, hj, hp⟩ := List.mem_flatMap.mp hp
    obtain ⟨l, hl, rfl⟩ := List.mem_map.mp hp
    have hr := choose_taps_range hl
    have hlr : -4 ≤ l ∧ l ≤ 3 := by cases kind <;> simp [FilterKind.lo, FilterKind.count] at hr <;> omega
    obtain ⟨rfl, rfl⟩ := tapAddr_inj hs (List.mem_range.mp hj) hi hlr ⟨h1, h2⟩ (by rw [← hb]; exact he)
    exact hk hl

end Sys2Proof.Machine
end

