-- ==== Sys2Proof/Laws/Agree.lean ====
section
/-! SUPPORT. What an operation reads: on two memories that agree on those bytes it answers the same (10_state R43). -/

namespace Sys2Proof.Machine

/-- The same stores make two memories agree at every address they agreed at or that is stored to. -/
theorem Memory.storeAll_agree {m m' : Memory} (hm : m.wf = true) (hm' : m'.wf = true) (l : List Store) {a : Nat}
    (ha : a < Config.addrLimit) (h : m.read a = m'.read a ∨ ∃ p ∈ l, p.1 = (a : Int)) :
    (m.storeAll l).read a = (m'.storeAll l).read a := by
  induction l generalizing m m' with
  | nil => simpa [Memory.storeAll] using h
  | cons p l ih =>
    refine ih (Memory.write_wf hm _ _) (Memory.write_wf hm' _ _) ?_
    by_cases hp : p.1 = (a : Int)
    · left; rw [hp, Memory.read_write_same hm _ ha, Memory.read_write_same hm' _ ha]
    · rcases h with h | ⟨q, hq, he⟩
      · left
        rw [Memory.read_write_other hm _ fun h => hp h.symm, Memory.read_write_other hm' _ fun h => hp h.symm, h]
      · rcases List.mem_cons.mp hq with rfl | hq
        · exact absurd he hp
        · exact .inr ⟨q, hq, he⟩

theorem blockStores_congr {base stride : Int} {w h : Nat} {f g : Nat → Nat → Int}
    (hfg : ∀ y x, y < h → x < w → f y x = g y x) : blockStores base stride w h f = blockStores base stride w h g := by
  unfold blockStores
  rw [List.flatMap_congr]
  intro y hy
  apply List.map_congr_left
  intro x hx
  rw [hfg y x (List.mem_range.mp hy) (List.mem_range.mp hx)]

theorem px_agree {m m' : Memory} {l : List Span} (hag : AgreeOn m m' l) {a : Int} (h0 : 0 ≤ a) (ha : spansHave l a = true) :
    px m a = px m' a := by
  unfold px
  rw [hag a.toNat (by rw [Int.toNat_of_nonneg h0]; exact ha)]

theorem cf_agree {m m' : Memory} {l : List Span} (hag : AgreeOn m m' l) {a : Int} (h0 : 0 ≤ a) (ha : spansHave l a = true)
    (hb : spansHave l (a + 1) = true) : cf m a = cf m' a := by
  rw [cf_eq, cf_eq]
  rw [px_agree hag h0 ha, px_agree hag (by omega) hb]

/-- A source sample inside the window of the command. -/
theorem srcPx_agree {m m' : Memory} {c : InFlight} {ht vt : TapCount} {w h : Nat} (hag : AgreeOn m m' (sourceSpans ht vt w h c))
    (h0 : ∀ a, spansHave (sourceSpans ht vt w h c) a = true → 0 ≤ a) {y x : Int} (h1 : -(vt.lo : Int) ≤ y)
    (h2 : y < h + vt.hi) (h3 : -(ht.lo : Int) ≤ x) (h4 : x < w + ht.hi) : srcPx c m y x = srcPx c m' y x := by
  have hin : spansHave (sourceSpans ht vt w h c) (c.aux + y * c.sstride + x) = true :=
    (spansHave_source ..).mpr ⟨y, x, h1, h2, h3, h4, rfl⟩
  exact px_agree hag (h0 _ hin) hin

/-- A pass looks at its taps only (R141, R143). -/
theorem firPass_congr {t : TapCount} {sel : BitVec 3} {v v' : Int → Int}
    (h : ∀ k : Int, -(t.lo : Int) ≤ k → k ≤ t.hi → v k = v' k) : firPass t sel v = firPass t sel v' := by
  cases t <;> simp only [TapCount.lo, TapCount.hi] at h <;> simp only [firPass, fir4, fir6]
  · exact h 0 (by omega) (by omega)
  · exact h 0 (by omega) (by omega)
  · rw [h 0 (by omega) (by omega), h (-1) (by omega) (by omega), h 1 (by omega) (by omega), h 2 (by omega) (by omega)]
  · rw [h 0 (by omega) (by omega), h (-1) (by omega) (by omega), h 1 (by omega) (by omega), h 2 (by omega) (by omega),
      h (-2) (by omega) (by omega), h 3 (by omega) (by omega)]

/-- An octet is read from its eight taps (R202). -/
theorem octetAt_congr {d : Direction} {base stride : Int} {m m' : Memory} {i : Int}
    (h : ∀ k : Int, -4 ≤ k → k ≤ 3 → px m (tapAddr d base stride i k) = px m' (tapAddr d base stride i k)) :
    octetAt d base stride m i = octetAt d base stride m' i := by
  simp only [octetAt, h (-4) (by omega) (by omega), h (-3) (by omega) (by omega), h (-2) (by omega) (by omega),
    h (-1) (by omega) (by omega), h 0 (by omega) (by omega), h 1 (by omega) (by omega), h 2 (by omega) (by omega),
    h 3 (by omega) (by omega)]

/-- One plane depends on its taps only (R210). -/
theorem filterPlane_agree {m m' : Memory} (hm : m.wf = true) (hm' : m'.wf = true) {kind : FilterKind} {th : Thresholds}
    {d : Direction} {n : Nat} {base stride : Int} {a : Nat} (hl : a < Config.addrLimit)
    (hag : ∀ b : Nat, InTaps d base stride n (-4) 3 b → m.read b = m'.read b)
    (h0 : ∀ b, InTaps d base stride n (-4) 3 b → 0 ≤ b) (ha : m.read a = m'.read a) :
    (filterPlane kind th d n base stride m).read a = (filterPlane kind th d n base stride m').read a := by
  have hs : ((List.range n).flatMap fun (i : Nat) => positionStores kind th d base stride m i) =
      (List.range n).flatMap fun (i : Nat) => positionStores kind th d base stride m' i := by
    rw [List.flatMap_congr]
    intro i hi
    have ho : octetAt d base stride m i = octetAt d base stride m' i := octetAt_congr fun k h1 h2 => by
      have hin : InTaps d base stride n (-4) 3 (tapAddr d base stride i k) := ⟨i, k, List.mem_range.mp hi, h1, h2, rfl⟩
      unfold px
      rw [hag _ (by rw [Int.toNat_of_nonneg (h0 _ hin)]; exact hin)]
    simp only [positionStores, ho]
  unfold filterPlane
  rw [hs]
  exact Memory.storeAll_agree hm hm' _ hl (.inl ha)

end Sys2Proof.Machine
end

