-- ==== Sys2Proof/Laws/Encoding.lean ====
section
/-! SUPPORT. The bits of encoded words as numbers, and the fields the decoder reads from them (30_encoding R81 to R84). -/

namespace Sys2Proof

theorem append_toNat {n k : Nat} (x : BitVec n) (y : BitVec k) : (x ++ y).toNat = x.toNat * 2 ^ k + y.toNat := by
  rw [BitVec.toNat_append, ← Nat.shiftLeft_add_eq_or_of_lt y.isLt, Nat.shiftLeft_eq]

theorem encodeP_toNat (opc : BitVec 6) (w : Width) (h : BitVec 6) (mx my : BitVec 3) (val : Byte) :
    (encodeP opc w h mx my val).toNat =
      opc.toNat * 2 ^ 26 + w.sel.toNat * 2 ^ 24 + h.toNat * 2 ^ 18 + mx.toNat * 2 ^ 15 + my.toNat * 2 ^ 12 + val.toNat := by
  simp only [encodeP, append_toNat]
  simp
  omega

theorem encodeT_toNat (opc : BitVec 6) : (encodeT opc).toNat = opc.toNat * 2 ^ 26 := by
  simp only [encodeT, append_toNat]
  simp

theorem encodeL_toNat (opc : BitVec 6) (n : EdgeSpan) (pair : Bool) (e i hev : Byte) :
    (encodeL opc n pair e i hev).toNat =
      opc.toNat * 2 ^ 26 + n.sel.toNat * 2 ^ 25 + pair.toNat * 2 ^ 24 + e.toNat * 2 ^ 16 + i.toNat * 2 ^ 8 + hev.toNat := by
  simp only [encodeL, append_toNat, BitVec.toNat_ofBool]
  omega

/-- A field of a word, as a number. -/
theorem field_toNat (w : Word) (lo len : Nat) : (w.extractLsb' lo len).toNat = w.toNat / 2 ^ lo % 2 ^ len := by
  rw [BitVec.extractLsb'_toNat, Nat.shiftRight_eq_div_pow]

theorem widthOf_sel (w : Width) : widthOf w.sel = some w := by cases w <;> decide
theorem spanOf_sel (n : EdgeSpan) : spanOf n.sel = n := by cases n <;> decide

/-- What `widthOf` answers, it reads from the selector of that width. -/
theorem widthOf_some {s : BitVec 2} {w : Width} (h : widthOf s = some w) : w.sel = s := by
  revert h; revert s; cases w <;> decide

theorem sel_spanOf (s : BitVec 1) : (spanOf s).sel = s := by revert s; decide

section encodeP
variable (opc : BitVec 6) (w : Width) (h : BitVec 6) (mx my : BitVec 3) (val : Byte)

theorem encodeP_fields :
    opcOf (encodeP opc w h mx my val) = opc ∧ wselOf (encodeP opc w h mx my val) = w.sel ∧
      heightOf (encodeP opc w h mx my val) = h ∧ mxOf (encodeP opc w h mx my val) = mx ∧
      myOf (encodeP opc w h mx my val) = my ∧ z4Of (encodeP opc w h mx my val) = 0 ∧
      valOf (encodeP opc w h mx my val) = val := by
  have h1 := opc.isLt
  have h2 := w.sel.isLt
  have h3 := h.isLt
  have h4 := mx.isLt
  have h5 := my.isLt
  have h6 := val.isLt
  refine ⟨?_, ?_, ?_, ?_, ?_, ?_, ?_⟩ <;> apply BitVec.eq_of_toNat_eq <;>
    simp only [opcOf, wselOf, heightOf, mxOf, myOf, z4Of, valOf, field_toNat, encodeP_toNat, BitVec.ofNat_eq_ofNat, BitVec.toNat_ofNat] <;> omega

end encodeP

theorem encodeT_fields (opc : BitVec 6) : opcOf (encodeT opc) = opc ∧ z26Of (encodeT opc) = 0 := by
  have h1 := opc.isLt
  refine ⟨?_, ?_⟩ <;> apply BitVec.eq_of_toNat_eq <;>
    simp only [opcOf, z26Of, field_toNat, encodeT_toNat, BitVec.ofNat_eq_ofNat, BitVec.toNat_ofNat] <;> omega

theorem encodeL_fields (opc : BitVec 6) (n : EdgeSpan) (pair : Bool) (e i hev : Byte) :
    opcOf (encodeL opc n pair e i hev) = opc ∧ nselOf (encodeL opc n pair e i hev) = n.sel ∧
      pairOf (encodeL opc n pair e i hev) = BitVec.ofBool pair ∧ eOf (encodeL opc n pair e i hev) = e ∧
      iOf (encodeL opc n pair e i hev) = i ∧ hevOf (encodeL opc n pair e i hev) = hev := by
  have h1 := opc.isLt
  have h2 := n.sel.isLt
  have h3 : pair.toNat < 2 := pair.toNat_lt
  have h4 := e.isLt
  have h5 := i.isLt
  have h6 := hev.isLt
  refine ⟨?_, ?_, ?_, ?_, ?_, ?_⟩ <;> apply BitVec.eq_of_toNat_eq <;>
    simp only [opcOf, nselOf, pairOf, eOf, iOf, hevOf, field_toNat, encodeL_toNat, BitVec.toNat_ofBool] <;> omega

/-- A word is the format-P word of its own fields where `Z4` is zero. -/
theorem encodeP_of_fields {w : Word} {wd : Width} (hw : widthOf (wselOf w) = some wd) (hz : z4Of w = 0) :
    encodeP (opcOf w) wd (heightOf w) (mxOf w) (myOf w) (valOf w) = w := by
  have hs := congrArg BitVec.toNat (widthOf_some hw)
  have hz := congrArg BitVec.toNat hz
  apply BitVec.eq_of_toNat_eq
  have hl := w.isLt
  simp only [encodeP_toNat, opcOf, heightOf, mxOf, myOf, valOf, wselOf, z4Of, field_toNat, BitVec.ofNat_eq_ofNat, BitVec.toNat_ofNat] at hs hz ⊢
  omega

/-- A word is the format-T word of its opcode where `Z26` is zero. -/
theorem encodeT_of_fields {w : Word} (hz : z26Of w = 0) : encodeT (opcOf w) = w := by
  have hz := congrArg BitVec.toNat hz
  apply BitVec.eq_of_toNat_eq
  have hl := w.isLt
  simp only [encodeT_toNat, opcOf, z26Of, field_toNat, BitVec.ofNat_eq_ofNat, BitVec.toNat_ofNat] at hz ⊢
  omega

/-- A word is the format-L word of its own fields. -/
theorem encodeL_of_fields (w : Word) :
    encodeL (opcOf w) (spanOf (nselOf w)) (decide (pairOf w = 1)) (eOf w) (iOf w) (hevOf w) = w := by
  have hs := congrArg BitVec.toNat (sel_spanOf (nselOf w))
  have hp : (decide (pairOf w = 1)).toNat = (pairOf w).toNat := by
    have := (pairOf w).isLt
    by_cases h : pairOf w = 1
    · rw [decide_eq_true h, h]; rfl
    · have : (pairOf w).toNat ≠ 1 := fun hc => h (BitVec.eq_of_toNat_eq hc)
      rw [decide_eq_false h]
      show 0 = _
      omega
  apply BitVec.eq_of_toNat_eq
  have hl := w.isLt
  rw [encodeL_toNat, hp, hs]
  simp only [opcOf, nselOf, pairOf, eOf, iOf, hevOf, field_toNat]
  omega

end Sys2Proof
end

