-- ==== Sys2Proof/Laws/Host.lean ====
section
/-! SUPPORT. What the host's accesses change (20_memory R63, 70_reset_and_hazards R266): a store only memory, `breached` and
`freeIx`; a load only `hostReads` and `freeIx`; a register write what the rules of 10_state say. -/

namespace Sys2Proof.Machine

/-- The unspecified bytes of broken duties keep whatever a single `havoc` keeps. -/
theorem foldl_havoc_keeps {β : Type} (g : State → β) (hg : ∀ u wf, g (State.havoc u wf) = g u)
    (a : Int) (l : List InFlight) (t : State) :
    g (l.foldl (fun u d => if spansHave d.footprint a then u.havoc d.wf else u) t) = g t := by
  induction l generalizing t with
  | nil => rfl
  | cons d l ih =>
    rw [List.foldl_cons, ih]
    split
    · exact hg _ _
    · rfl

/-- Broken duties keep memory canonical. -/
theorem foldl_havoc_wf (a : Int) (l : List InFlight) {t : State} (ht : t.mem.wf = true) :
    (l.foldl (fun u d => if spansHave d.footprint a then u.havoc d.wf else u) t).mem.wf = true := by
  induction l generalizing t with
  | nil => exact ht
  | cons d l ih =>
    rw [List.foldl_cons]
    apply ih
    split
    · exact Memory.havoc_wf ht _ _
    · exact ht

/-- The write footprint is part of the footprint (R15). -/
theorem InFlight.footprint_of_wf {c : InFlight} {a : Int} (h : spansHave c.wf a = true) : spansHave c.footprint a = true := by
  unfold InFlight.wf at h
  unfold InFlight.footprint
  split <;> simp_all

/-! ### A stored byte -/

@[simp] theorem State.storeByte_x0 (s : State) (a : Int) (v : Byte) : (s.storeByte a v).x0 = s.x0 :=
  foldl_havoc_keeps (fun u => u.x0) (fun _ _ => rfl) a s.duties _
@[simp] theorem State.storeByte_x1 (s : State) (a : Int) (v : Byte) : (s.storeByte a v).x1 = s.x1 :=
  foldl_havoc_keeps (fun u => u.x1) (fun _ _ => rfl) a s.duties _
@[simp] theorem State.storeByte_x2 (s : State) (a : Int) (v : Byte) : (s.storeByte a v).x2 = s.x2 :=
  foldl_havoc_keeps (fun u => u.x2) (fun _ _ => rfl) a s.duties _
@[simp] theorem State.storeByte_x3 (s : State) (a : Int) (v : Byte) : (s.storeByte a v).x3 = s.x3 :=
  foldl_havoc_keeps (fun u => u.x3) (fun _ _ => rfl) a s.duties _
@[simp] theorem State.storeByte_cmd (s : State) (a : Int) (v : Byte) : (s.storeByte a v).cmd = s.cmd :=
  foldl_havoc_keeps (fun u => u.cmd) (fun _ _ => rfl) a s.duties _
@[simp] theorem State.storeByte_status (s : State) (a : Int) (v : Byte) : (s.storeByte a v).status = s.status :=
  foldl_havoc_keeps (fun u => u.status) (fun _ _ => rfl) a s.duties _
@[simp] theorem State.storeByte_ctrl (s : State) (a : Int) (v : Byte) : (s.storeByte a v).ctrl = s.ctrl :=
  foldl_havoc_keeps (fun u => u.ctrl) (fun _ _ => rfl) a s.duties _
@[simp] theorem State.storeByte_errinfo (s : State) (a : Int) (v : Byte) : (s.storeByte a v).errinfo = s.errinfo :=
  foldl_havoc_keeps (fun u => u.errinfo) (fun _ _ => rfl) a s.duties _
@[simp] theorem State.storeByte_cur (s : State) (a : Int) (v : Byte) : (s.storeByte a v).cur = s.cur :=
  foldl_havoc_keeps (fun u => u.cur) (fun _ _ => rfl) a s.duties _
@[simp] theorem State.storeByte_host (s : State) (a : Int) (v : Byte) : (s.storeByte a v).host = s.host :=
  foldl_havoc_keeps (fun u => u.host) (fun _ _ => rfl) a s.duties _
@[simp] theorem State.storeByte_memMap (s : State) (a : Int) (v : Byte) : (s.storeByte a v).memMap = s.memMap :=
  foldl_havoc_keeps (fun u => u.memMap) (fun _ _ => rfl) a s.duties _
@[simp] theorem State.storeByte_turns (s : State) (a : Int) (v : Byte) : (s.storeByte a v).turns = s.turns :=
  foldl_havoc_keeps (fun u => u.turns) (fun _ _ => rfl) a s.duties _
@[simp] theorem State.storeByte_hostReads (s : State) (a : Int) (v : Byte) : (s.storeByte a v).hostReads = s.hostReads :=
  foldl_havoc_keeps (fun u => u.hostReads) (fun _ _ => rfl) a s.duties _
@[simp] theorem State.storeByte_duties (s : State) (a : Int) (v : Byte) : (s.storeByte a v).duties = s.duties :=
  foldl_havoc_keeps (fun u => u.duties) (fun _ _ => rfl) a s.duties _
@[simp] theorem State.storeByte_breached (s : State) (a : Int) (v : Byte) :
    (s.storeByte a v).breached = (s.breached || s.inFlightFootprint a) :=
  foldl_havoc_keeps (fun u => u.breached) (fun _ _ => rfl) a s.duties _

theorem State.storeByte_wf {s : State} (h : s.mem.wf = true) (a : Int) (v : Byte) : (s.storeByte a v).mem.wf = true :=
  foldl_havoc_wf a s.duties (Memory.write_wf h a v)

/-- Bytes outside the write footprints that broken duties make unspecified are unchanged. -/
theorem foldl_havoc_read_other {a : Int} {l : List InFlight} {t : State} (ht : t.mem.wf = true) {b : Nat}
    (hb : ∀ d ∈ l, spansHave d.footprint a = true → spansHave d.wf b = false) :
    (l.foldl (fun u d => if spansHave d.footprint a then u.havoc d.wf else u) t).mem.read b = t.mem.read b := by
  induction l generalizing t with
  | nil => rfl
  | cons d l ih =>
    rw [List.foldl_cons]
    split
    · rename_i hd
      rw [ih (Memory.havoc_wf ht _ _) fun e he => hb e (List.mem_cons_of_mem _ he)]
      refine Memory.havoc_read_other ht fun hm => ?_
      rw [mem_spansBytes, hb d (List.mem_cons_self ..) hd] at hm
      exact Bool.false_ne_true hm
    · exact ih ht fun e he => hb e (List.mem_cons_of_mem _ he)

/-- Broken duties only draw free values. -/
theorem foldl_havoc_freeIx (a : Int) (l : List InFlight) (t : State) :
    t.freeIx ≤ (l.foldl (fun u d => if spansHave d.footprint a then u.havoc d.wf else u) t).freeIx := by
  induction l generalizing t with
  | nil => exact le_refl _
  | cons d l ih =>
    rw [List.foldl_cons]
    refine le_trans ?_ (ih _)
    split
    · exact Nat.le_add_right ..
    · exact le_refl _

/-- A byte of a write footprint that broken duties make unspecified reads as one of the free values drawn (R266). -/
theorem foldl_havoc_read_of_mem {a : Int} {l : List InFlight} {t : State} (ht : t.mem.wf = true) {b : Nat}
    (hl : b < Config.addrLimit) (hb : ∃ d ∈ l, spansHave d.footprint a = true ∧ spansHave d.wf b = true) :
    ∃ n, t.freeIx ≤ n ∧ n < (l.foldl (fun u d => if spansHave d.footprint a then u.havoc d.wf else u) t).freeIx ∧
      (l.foldl (fun u d => if spansHave d.footprint a then u.havoc d.wf else u) t).mem.read b = Config.freeByte n := by
  induction l generalizing t with
  | nil => obtain ⟨d, hd, _⟩ := hb; cases hd
  | cons d l ih =>
    rw [List.foldl_cons]
    by_cases hin : ∃ e ∈ l, spansHave e.footprint a = true ∧ spansHave e.wf b = true
    · split
      · obtain ⟨n, h1, h2, h3⟩ := ih (t := t.havoc d.wf) (Memory.havoc_wf ht _ _) hin
        exact ⟨n, le_trans (Nat.le_add_right ..) h1, h2, h3⟩
      · exact ih ht hin
    · obtain ⟨e, he, hf, hw⟩ := hb
      obtain rfl : e = d := (List.mem_cons.mp he).resolve_right fun h => hin ⟨e, h, hf, hw⟩
      rw [if_pos hf]
      obtain ⟨n, h1, h2, h3⟩ := Memory.havoc_read_of_mem ht (ix := t.freeIx) ((mem_spansBytes ..).mpr hw) hl
      refine ⟨n, h1, lt_of_lt_of_le h2 (foldl_havoc_freeIx a l (t.havoc e.wf)), ?_⟩
      rw [foldl_havoc_read_other (t := t.havoc e.wf) (Memory.havoc_wf ht _ _) fun g hg hgf => ?_]
      · exact h3
      · exact Bool.eq_false_iff.mpr fun h => hin ⟨g, hg, hgf, h⟩

/-- A store only draws free values. -/
theorem State.storeByte_freeIx (s : State) (a : Int) (v : Byte) : s.freeIx ≤ (s.storeByte a v).freeIx :=
  foldl_havoc_freeIx a s.duties { s with mem := s.mem.write a v, breached := s.breached || s.inFlightFootprint a }

/-- Where a store breaks no footprint duty of a completed command over byte `b`, `b` holds what the store left (R63). -/
theorem State.storeByte_read {s : State} (hm : s.mem.wf = true) {a b : Nat} (ha : a < Config.addrLimit) (v : Byte)
    (hb : ∀ d ∈ s.duties, spansHave d.footprint a = true → spansHave d.wf b = false) :
    (s.storeByte a v).mem.read b = if b = a then v else s.mem.read b := by
  rw [State.storeByte]
  refine (foldl_havoc_read_other (Memory.write_wf hm a v) hb).trans ?_
  split
  · rename_i h; subst h; exact Memory.read_write_same hm v ha
  · rename_i h; exact Memory.read_write_other hm v fun he : (b : Int) = a => h (by exact_mod_cast he)

/-- Where a store breaks the footprint duty of a completed command, every byte of its write footprint is a free value (R266). -/
theorem State.storeByte_broken {s : State} (hm : s.mem.wf = true) {a b : Nat} (v : Byte) (hl : b < Config.addrLimit)
    (hb : ∃ d ∈ s.duties, spansHave d.footprint a = true ∧ spansHave d.wf b = true) :
    ∃ n, s.freeIx ≤ n ∧ n < (s.storeByte a v).freeIx ∧ (s.storeByte a v).mem.read b = Config.freeByte n :=
  foldl_havoc_read_of_mem (t := { s with mem := s.mem.write a v, breached := s.breached || s.inFlightFootprint a })
    (Memory.write_wf hm a v) hl hb

/-- With no completion unread, a store changes memory and `breached` only. -/
theorem State.storeByte_of_no_duty {s : State} (h : s.duties = []) (a : Int) (v : Byte) :
    s.storeByte a v = { s with mem := s.mem.write a v, breached := s.breached || s.inFlightFootprint a } := by
  simp [State.storeByte, h]

/-- A byte is in the footprint of the command in flight only while BUSY = 1. -/
theorem State.inFlightFootprint_idle {s : State} (h : s.status.busy = false) (a : Int) : s.inFlightFootprint a = false := by
  simp [State.inFlightFootprint, h]

/-! ### A loaded byte -/

/-- A load of one byte changes at most `freeIx`. -/
theorem State.loadByte_state (s : State) (a : Int) : ∃ n, (s.loadByte a).2 = { s with freeIx := n } := by
  unfold State.loadByte
  split
  · exact ⟨s.freeIx + 1, rfl⟩
  · exact ⟨s.freeIx, rfl⟩

/-- The bytes a load finds unspecified are the pending ones (R266). -/
theorem State.byteUnspecified_iff (s : State) (a : Int) : s.byteUnspecified a = true ↔ s.Pending a := by
  simp only [State.byteUnspecified, State.Pending, Bool.or_eq_true, Bool.and_eq_true, List.any_eq_true]
  refine or_congr ?_ Iff.rfl
  cases s.cur <;> simp

/-- A load of a pending byte draws a free value. -/
theorem State.loadByte_pending {s : State} {a : Int} (h : s.Pending a) :
    s.loadByte a = (Config.freeByte s.freeIx, { s with freeIx := s.freeIx + 1 }) := by
  rw [State.loadByte, if_pos ((s.byteUnspecified_iff a).mpr h)]

/-- A load of any other byte reads memory. -/
theorem State.loadByte_settled {s : State} {a : Int} (h : ¬ s.Pending a) : s.loadByte a = (s.mem.read a.toNat, s) := by
  rw [State.loadByte, if_neg fun hp => h ((s.byteUnspecified_iff a).mp hp)]

/-- With no command in flight and no completion unread, a load reads memory. -/
theorem State.loadByte_idle {s : State} (hb : s.status.busy = false) (hd : s.duties = []) (a : Int) :
    s.loadByte a = (s.mem.read a.toNat, s) := by
  simp [State.loadByte, State.byteUnspecified, hb, hd]

/-- LD8 changes at most `hostReads` and `freeIx`. -/
theorem State.hostLoad8_state (s : State) (a : Word) : ∃ r n, s.hostLoad8 a = { s with hostReads := r, freeIx := n } := by
  obtain ⟨n, hn⟩ := s.loadByte_state a.toNat
  exact ⟨(s.loadByte a.toNat).1.setWidth 32 :: s.hostReads, n, by simp only [State.hostLoad8, hn]⟩

/-- LD16 changes at most `hostReads` and `freeIx`. -/
theorem State.hostLoad16_state (s : State) (a : Word) : ∃ r n, s.hostLoad16 a = { s with hostReads := r, freeIx := n } := by
  obtain ⟨n, hn⟩ := s.loadByte_state (a.toNat + coefEndian.lowAt)
  obtain ⟨k, hk⟩ := State.loadByte_state { s with freeIx := n } ((a.toNat : Int) + coefEndian.highAt)
  refine ⟨(s.hostLoad16 a).hostReads, k, ?_⟩
  unfold State.hostLoad16
  dsimp only
  rw [hn, hk]

/-! ### Memory accesses (R63, R32) -/

/-- A memory access that is not refused leaves the state it was given. -/
theorem memoryAccess_next {map : MemMap} {a : Word} {size : Nat} {t u : State} (h : memoryAccess map a size t = .next u) :
    u = t := by
  unfold memoryAccess at h
  split at h
  · cases h
  · split at h <;> cases h
    rfl

/-- An access of one byte outside the register block takes place. -/
theorem memoryAccess_one {map : MemMap} {a : Word} (h : map.inRegisterBlock a.toNat = false) (t : State) :
    memoryAccess map a 1 t = .next t := by
  simp [memoryAccess, h, Nat.mod_one]

/-- An access of two bytes at an even address outside the register block takes place. -/
theorem memoryAccess_two {map : MemMap} {a : Word} (he : a.toNat % 2 = 0) (h : map.inRegisterBlock a.toNat = false)
    (h' : map.inRegisterBlock (a.toNat + 1) = false) (t : State) : memoryAccess map a 2 t = .next t := by
  simp [memoryAccess, he, h, h']

/-! ### Registers -/

/-- A register read changes at most `hostReads` and `duties`. -/
theorem State.hostReadReg_state (s : State) (r : HostReg) :
    ∃ d, s.hostReadReg r = { s with hostReads := s.readReg r :: s.hostReads, duties := d } := by
  cases r
  case status =>
    simp only [State.hostReadReg, State.sawStatus]
    split
    · exact ⟨s.duties, rfl⟩
    · exact ⟨[], rfl⟩
  all_goals exact ⟨s.duties, rfl⟩

/-- Seeing STATUS changes at most `duties`. -/
theorem State.sawStatus_state (s : State) : ∃ d, s.sawStatus = { s with duties := d } := by
  unfold State.sawStatus
  split
  · exact ⟨s.duties, rfl⟩
  · exact ⟨[], rfl⟩

/-- Everything an action of the host can do: a register write, a store, or a change of the host's own fields alone. -/
theorem hostAction_cases {act : HostAction} {again s t : State} (h : hostAction act again s = .next t) :
    (∃ r v, t = s.writeReg r v ∧ (act = .wr r v ∨ ∃ o, regAt o 4 = some r ∧ act = .mmio o 4 (some v))) ∨
      (∃ a v, t = s.storeByte a v) ∨ (∃ a b v w, t = (s.storeByte a v).storeByte b w) ∨
      (∃ r d n, t = { s with hostReads := r, duties := d, freeIx := n }) ∨ t = again := by
  cases act with
  | wr r v => cases h; exact .inl ⟨r, v, rfl, .inl rfl⟩
  | rd r =>
    cases h
    obtain ⟨d, hd⟩ := s.hostReadReg_state r
    exact .inr (.inr (.inr (.inl ⟨_, d, s.freeIx, hd⟩)))
  | mmio offset size write =>
    simp only [hostAction] at h
    split at h
    · cases h
    · rename_i r hr
      have h4 : size = 4 := by
        unfold regAt at hr
        split at hr
        · assumption
        · cases hr
      subst h4
      split at h <;> cases h
      · exact .inl ⟨r, _, rfl, .inr ⟨offset, hr, rfl⟩⟩
      · obtain ⟨d, hd⟩ := s.hostReadReg_state r
        exact .inr (.inr (.inr (.inl ⟨_, d, s.freeIx, hd⟩)))
  | wait =>
    simp only [hostAction, Host.Outcome.next.injEq] at h
    split at h
    · exact .inr (.inr (.inr (.inr h.symm)))
    · obtain ⟨d, hd⟩ := s.sawStatus_state
      exact .inr (.inr (.inr (.inl ⟨s.hostReads, d, s.freeIx, h.symm.trans hd⟩)))
  | waitIrq =>
    simp only [hostAction, Host.Outcome.next.injEq] at h
    split at h
    · exact .inr (.inr (.inr (.inl ⟨s.hostReads, s.duties, s.freeIx, h.symm⟩)))
    · exact .inr (.inr (.inr (.inr h.symm)))
  | st8 a v => exact .inr (.inl ⟨_, v, memoryAccess_next h⟩)
  | st16 a v => exact .inr (.inr (.inl ⟨_, _, _, _, memoryAccess_next h⟩))
  | ld8 a =>
    obtain ⟨r, n, hn⟩ := s.hostLoad8_state a
    exact .inr (.inr (.inr (.inl ⟨r, s.duties, n, (memoryAccess_next h).trans hn⟩)))
  | ld16 a =>
    obtain ⟨r, n, hn⟩ := s.hostLoad16_state a
    exact .inr (.inr (.inr (.inl ⟨r, s.duties, n, (memoryAccess_next h).trans hn⟩)))

end Sys2Proof.Machine
end

