-- ==== Sys2Proof/Laws/PerInstr.lean ====
section
/-! SUPPORT. A statement about every instruction as syntax, one lemma per constructor: the word of an instruction carries the
opcode the table gives its mnemonic (30_encoding R86, R101). -/

namespace Sys2Proof.Laws

/-- The word of `i` has the opcode of the row of spec/opcode_table.json that bears its mnemonic (R86, R101). -/
def EncodedOpcode.Statement (i : Instr) : Prop :=
  ∃ r ∈ opcodeTable, r.mnemonic = i.mnemonic ∧ opcOf (encode i) = opcOf r.pattern

theorem encodedOpcode_of_row {i : Instr} {opc : BitVec 6} (k : Fin 27) (he : opcOf (encode i) = opc)
    (hm : (opcodeTable.get k).mnemonic = i.mnemonic) (ho : opc = opcOf (opcodeTable.get k).pattern) :
    EncodedOpcode.Statement i :=
  ⟨opcodeTable.get k, List.get_mem _ _, hm, he.trans ho⟩

theorem EncodedOpcode.fill (w : Width) (h : BitVec 6) (val : Byte) : EncodedOpcode.Statement (.fill w h val) :=
  encodedOpcode_of_row 0 (encodeP_fields ..).1 rfl (by decide)

theorem EncodedOpcode.clr1 : EncodedOpcode.Statement .clr1 :=
  encodedOpcode_of_row 1 (encodeT_fields _).1 rfl (by decide)

theorem EncodedOpcode.clr24 : EncodedOpcode.Statement .clr24 :=
  encodedOpcode_of_row 2 (encodeT_fields _).1 rfl (by decide)

theorem EncodedOpcode.copy (w : Width) (h : BitVec 6) : EncodedOpcode.Statement (.copy w h) :=
  encodedOpcode_of_row 3 (encodeP_fields ..).1 rfl (by decide)

theorem EncodedOpcode.epelV4 (w : Width) (h : BitVec 6) (my : BitVec 3) : EncodedOpcode.Statement (.epelV4 w h my) :=
  encodedOpcode_of_row 4 (encodeP_fields ..).1 rfl (by decide)

theorem EncodedOpcode.epelV6 (w : Width) (h : BitVec 6) (my : BitVec 3) : EncodedOpcode.Statement (.epelV6 w h my) :=
  encodedOpcode_of_row 5 (encodeP_fields ..).1 rfl (by decide)

theorem EncodedOpcode.epelH4 (w : Width) (h : BitVec 6) (mx : BitVec 3) : EncodedOpcode.Statement (.epelH4 w h mx) :=
  encodedOpcode_of_row 6 (encodeP_fields ..).1 rfl (by decide)

theorem EncodedOpcode.epelH4V4 (w : Width) (h : BitVec 6) (mx my : BitVec 3) : EncodedOpcode.Statement (.epelH4V4 w h mx my) :=
  encodedOpcode_of_row 7 (encodeP_fields ..).1 rfl (by decide)

theorem EncodedOpcode.epelH4V6 (w : Width) (h : BitVec 6) (mx my : BitVec 3) : EncodedOpcode.Statement (.epelH4V6 w h mx my) :=
  encodedOpcode_of_row 8 (encodeP_fields ..).1 rfl (by decide)

theorem EncodedOpcode.epelH6 (w : Width) (h : BitVec 6) (mx : BitVec 3) : EncodedOpcode.Statement (.epelH6 w h mx) :=
  encodedOpcode_of_row 9 (encodeP_fields ..).1 rfl (by decide)

theorem EncodedOpcode.epelH6V4 (w : Width) (h : BitVec 6) (mx my : BitVec 3) : EncodedOpcode.Statement (.epelH6V4 w h mx my) :=
  encodedOpcode_of_row 10 (encodeP_fields ..).1 rfl (by decide)

theorem EncodedOpcode.epelH6V6 (w : Width) (h : BitVec 6) (mx my : BitVec 3) : EncodedOpcode.Statement (.epelH6V6 w h mx my) :=
  encodedOpcode_of_row 11 (encodeP_fields ..).1 rfl (by decide)

theorem EncodedOpcode.bilinV (w : Width) (h : BitVec 6) (my : BitVec 3) : EncodedOpcode.Statement (.bilinV w h my) :=
  encodedOpcode_of_row 12 (encodeP_fields ..).1 rfl (by decide)

theorem EncodedOpcode.bilinH (w : Width) (h : BitVec 6) (mx : BitVec 3) : EncodedOpcode.Statement (.bilinH w h mx) :=
  encodedOpcode_of_row 13 (encodeP_fields ..).1 rfl (by decide)

theorem EncodedOpcode.bilinHV (w : Width) (h : BitVec 6) (mx my : BitVec 3) : EncodedOpcode.Statement (.bilinHV w h mx my) :=
  encodedOpcode_of_row 14 (encodeP_fields ..).1 rfl (by decide)

theorem EncodedOpcode.idctAdd : EncodedOpcode.Statement .idctAdd :=
  encodedOpcode_of_row 15 (encodeT_fields _).1 rfl (by decide)

theorem EncodedOpcode.idctDcAdd : EncodedOpcode.Statement .idctDcAdd :=
  encodedOpcode_of_row 16 (encodeT_fields _).1 rfl (by decide)

theorem EncodedOpcode.idctDcAdd4y : EncodedOpcode.Statement .idctDcAdd4y :=
  encodedOpcode_of_row 17 (encodeT_fields _).1 rfl (by decide)

theorem EncodedOpcode.idctDcAdd4uv : EncodedOpcode.Statement .idctDcAdd4uv :=
  encodedOpcode_of_row 18 (encodeT_fields _).1 rfl (by decide)

theorem EncodedOpcode.wht : EncodedOpcode.Statement .wht :=
  encodedOpcode_of_row 19 (encodeT_fields _).1 rfl (by decide)

theorem EncodedOpcode.whtDc : EncodedOpcode.Statement .whtDc :=
  encodedOpcode_of_row 20 (encodeT_fields _).1 rfl (by decide)

theorem EncodedOpcode.lfsV (n : EdgeSpan) (e : Byte) : EncodedOpcode.Statement (.lfsV n e) :=
  encodedOpcode_of_row 21 (encodeL_fields ..).1 rfl (by decide)

theorem EncodedOpcode.lfsH (n : EdgeSpan) (e : Byte) : EncodedOpcode.Statement (.lfsH n e) :=
  encodedOpcode_of_row 22 (encodeL_fields ..).1 rfl (by decide)

theorem EncodedOpcode.lfiV (n : EdgeSpan) (pair : Bool) (e i hev : Byte) : EncodedOpcode.Statement (.lfiV n pair e i hev) :=
  encodedOpcode_of_row 23 (encodeL_fields ..).1 rfl (by decide)

theorem EncodedOpcode.lfiH (n : EdgeSpan) (pair : Bool) (e i hev : Byte) : EncodedOpcode.Statement (.lfiH n pair e i hev) :=
  encodedOpcode_of_row 24 (encodeL_fields ..).1 rfl (by decide)

theorem EncodedOpcode.lfmV (n : EdgeSpan) (pair : Bool) (e i hev : Byte) : EncodedOpcode.Statement (.lfmV n pair e i hev) :=
  encodedOpcode_of_row 25 (encodeL_fields ..).1 rfl (by decide)

theorem EncodedOpcode.lfmH (n : EdgeSpan) (pair : Bool) (e i hev : Byte) : EncodedOpcode.Statement (.lfmH n pair e i hev) :=
  encodedOpcode_of_row 26 (encodeL_fields ..).1 rfl (by decide)

end Sys2Proof.Laws
end

