-- ==== Sys2Proof/Tests/Slice0.lean ====
section
/-! SUPPORT. Tests: the checks of WellFormed, the decoding of words written out from the spec, one small step per command with the
expected values of the spec's worked examples, and for every statement with hypotheses a witness that meets them. Every expected
value stands in the spec, at the rule or vector named. -/

namespace Sys2Proof.Tests

open Sys2Proof Sys2Proof.Machine

set_option Elab.async false

/-! ### WellFormed: an ill-formed term for each check -/

theorem test_fill_width4_illformed : (Instr.fill .w4 8 0x7F).wellFormed = false := by decide
theorem test_height_zero_illformed : (Instr.copy .w8 0).wellFormed = false := by decide
theorem test_height_33_illformed : (Instr.fill .w8 33 1).wellFormed = false := by decide
theorem test_pair_span16_illformed : (Instr.lfmV .n16 true 10 10 1).wellFormed = false := by decide
theorem test_edges_wellformed : (Instr.fill .w8 32 1).wellFormed = true ∧ (Instr.bilinHV .w4 1 0 0).wellFormed = true ∧
    (Instr.epelH6 .w4 1 0).wellFormed = true ∧ (Instr.lfiV .n8 true 0 0 0).wellFormed = true := by decide

/-! ### Decoding: words from R100, and from the formats R81 to R83 bit by bit -/

theorem test_decode_fill : decode 0x0520007F = .ok (.fill .w8 8 0x7F) := by decide
theorem test_decode_clr1 : decode 0x08000000 = .ok .clr1 := by decide
theorem test_decode_clr24 : decode 0x0C000000 = .ok .clr24 := by decide
theorem test_decode_copy : decode 0x42800000 = .ok (.copy .w16 32) := by decide
theorem test_decode_epelV4 : decode 0x44101000 = .ok (.epelV4 .w4 4 1) := by decide
theorem test_decode_epelV6 : decode 0x49202000 = .ok (.epelV6 .w8 8 2) := by decide
theorem test_decode_epelH4 : decode 0x50108000 = .ok (.epelH4 .w4 4 1) := by decide
theorem test_decode_epelH4V4 : decode 0b01010100000100001011000000000000 = .ok (.epelH4V4 .w4 4 1 3) := by decide
theorem test_decode_epelH4V6 : decode 0x5911E000 = .ok (.epelH4V6 .w8 4 3 6) := by decide
theorem test_decode_epelH6 : decode 0x61048000 = .ok (.epelH6 .w8 1 1) := by decide
theorem test_decode_epelH6V4 : decode 0b01100100000100100101000000000000 = .ok (.epelH6V4 .w4 4 4 5) := by decide
theorem test_decode_epelH6V6 : decode 0x6A424000 = .ok (.epelH6V6 .w16 16 4 4) := by decide
theorem test_decode_bilinV : decode 0x84105000 = .ok (.bilinV .w4 4 5) := by decide
theorem test_decode_bilinH : decode 0x89218000 = .ok (.bilinH .w8 8 3) := by decide
theorem test_decode_bilinHV : decode 0x8E439000 = .ok (.bilinHV .w16 16 7 1) := by decide
theorem test_decode_idctAdd : decode 0xC0000000 = .ok .idctAdd := by decide
theorem test_decode_idctDcAdd : decode 0xC4000000 = .ok .idctDcAdd := by decide
theorem test_decode_idctDcAdd4y : decode 0xC8000000 = .ok .idctDcAdd4y := by decide
theorem test_decode_idctDcAdd4uv : decode 0xCC000000 = .ok .idctDcAdd4uv := by decide
theorem test_decode_wht : decode 0xD0000000 = .ok .wht := by decide
theorem test_decode_whtDc : decode 0xD4000000 = .ok .whtDc := by decide
theorem test_decode_lfsV : decode 0xE20A0000 = .ok (.lfsV .n16 10) := by decide
theorem test_decode_lfsH : decode 0xE6140000 = .ok (.lfsH .n16 20) := by decide
theorem test_decode_lfiV : decode 0xE91E0A02 = .ok (.lfiV .n8 true 30 10 2) := by decide
theorem test_decode_lfiH : decode 0b11101110001001000000100100000000 = .ok (.lfiH .n16 false 36 9 0) := by decide
theorem test_decode_lfmV : decode 0xF1280C01 = .ok (.lfmV .n8 true 40 12 1) := by decide
theorem test_decode_lfmH : decode 0b11110110110000010011111100000100 = .ok (.lfmH .n16 false 193 63 4) := by decide

/-- V13: the words that are no command, each for its own reason. -/
theorem test_decode_rejects :
    decode 0x00000000 = .error .reservedOpcode ∧ decode 0xFFFFFFFF = .error .reservedOpcode ∧
      decode 0x4C100000 = .error .reservedOpcode ∧ decode 0x0410007F = .error .illegalWidth ∧
      decode 0x05000000 = .error .illegalHeight ∧ decode 0x05840000 = .error .illegalHeight ∧
      decode 0x43100000 = .error .illegalWidth ∧ decode 0x40100001 = .error .nonzeroReserved ∧
      decode 0x40108000 = .error .nonzeroReserved ∧ decode 0x60111000 = .error .nonzeroReserved ∧
      decode 0x44109000 = .error .nonzeroReserved ∧ decode 0x88118100 = .error .nonzeroReserved := by decide
theorem test_decode_rejects_more :
    decode 0xC0000001 = .error .nonzeroReserved ∧ decode 0xE10A0000 = .error .nonzeroReserved ∧
      decode 0xE00A0100 = .error .nonzeroReserved ∧ decode 0xE40A0001 = .error .nonzeroReserved ∧
      decode 0xF30A0A01 = .error .pairWithSpan16 := by decide

/-! ### One step on a small state -/

/-- Memory with the bytes of `l` row by row, row `y` at `base + stride * y`. -/
def rows (base stride : Nat) (l : List (List Nat)) : Memory :=
  (l.zipIdx.flatMap fun r => r.1.zipIdx.map fun v => (base + stride * r.2 + v.2, BitVec.ofNat 8 v.1)).filter fun p => p.2 ≠ 0

/-- The bytes of 16-bit entries, low byte first. -/
def halves (l : List Int) : List Nat := l.flatMap fun v => [(v % 256).toNat, (v / 256 % 256).toNat]

/-- Reset, with memory `m` and the four operands. -/
def withRegs (m : Memory) (dst dstride aux sstride : Nat) : State :=
  { State.reset with
    mem := m, x0 := BitVec.ofNat 32 dst, x1 := BitVec.ofNat 32 dstride, x2 := BitVec.ofNat 32 aux
    x3 := BitVec.ofNat 32 sstride }

/-- What `f` sees after the command word `w` has run. -/
def after {α : Type} (w : Nat) (s : State) (f : State → α) : Option α :=
  match step (s.withFetchWord 32 w) with
  | .next t => some (f t)
  | _ => none

/-- `rows × cols` bytes of memory. -/
def block (base stride rows cols : Nat) (s : State) : List (List Nat) :=
  (List.range rows).map fun y => (List.range cols).map fun x => (s.mem.read (base + stride * y + x)).toNat

/-- `n` coefficients, `step` bytes apart. -/
def coefs (base step n : Nat) (s : State) : List Int := (List.range n).map fun k => cf s.mem (base + step * k : Nat)

/-- The STATUS word. -/
def status (s : State) : Nat := (s.readReg .status).toNat

/-- V15: FILL.16 3 with DSTRIDE = -32 fills three rows downwards and leaves the gaps. -/
theorem test_fill_negative_stride :
    after 0x060C00AB (withRegs [] 0x1100 0xFFFFFFE0 0 0) (fun t => (status t, block 0x10C0 16 5 2 t)) =
      some (2, [[0xAB, 0xAB], [0, 0], [0xAB, 0xAB], [0, 0], [0xAB, 0xAB]]) := by decide +kernel
/-- V16: the stride check holds even for one row. -/
theorem test_fill_bad_stride : after 0x05040009 (withRegs [] 0x1000 0 0 0) status = some 0x404 := by decide +kernel

/-- V9: 32 bytes are cleared, the next coefficient is kept. -/
theorem test_clr1 :
    after 0x08000000 (withRegs (rows 0x3000 34 [halves [1, -2, 3, -4, 5, -6, 7, -8, 9, -10, 11, -12, 13, -14, 15, -16, 77]]) 0 0 0x3000 0)
      (coefs 0x301C 2 3) = some [0, 0, 77] := by decide +kernel
/-- V17: CLR24 up to the last valid byte, and past it. -/
theorem test_clr24 :
    after 0x0C000000 (withRegs [(0xFCFF, 1), (0xFD00, 1), (0xFFFF, 1)] 0 0 0xFD00 0) (fun t => (status t, t.mem)) =
      some (2, [(0xFCFF, 1)]) := by decide +kernel
theorem test_clr24_bus : after 0x0C000000 (withRegs [] 0 0 0xFE82 0) status = some 0x704 := by decide +kernel

/-- The 10 × 10 source of V20, rows -2 to 7 and columns -2 to 7 around `0x2000`. -/
def source : Memory := rows 0x1FDE 16 [
  [216, 219, 222, 60, 63, 66, 160, 163, 166, 169], [207, 223, 239, 90, 106, 122, 138, 154, 170, 186],
  [198, 227, 0, 29, 58, 87, 116, 145, 174, 203], [24, 66, 17, 59, 101, 143, 185, 227, 13, 220],
  [15, 70, 34, 89, 144, 199, 163, 218, 17, 237], [6, 74, 51, 119, 187, 164, 232, 209, 21, 254],
  [88, 78, 68, 149, 139, 220, 210, 35, 25, 15], [79, 82, 85, 179, 182, 185, 23, 26, 29, 32],
  [70, 86, 102, 209, 225, 241, 1, 17, 33, 49], [61, 90, 119, 148, 177, 206, 235, 8, 37, 66]]

/-- The 4 × 4 result of a command on `source` with the registers of V20. -/
def onSource (w : Nat) : Option (List (List Nat)) := after w (withRegs source 0x1000 8 0x2000 16) (block 0x1000 8 4 4)

theorem test_copy : onSource 0x40100000 =
    some [[0, 29, 58, 87], [17, 59, 101, 143], [34, 89, 144, 199], [51, 119, 187, 164]] := by decide +kernel
/-- V34: source and destination rows interleave without a shared byte; DST = AUX overlaps. -/
theorem test_copy_interleaved :
    after 0x40100000 (withRegs source 0x2004 16 0x2000 16) status = some 2 ∧
      after 0x40100000 (withRegs source 0x2000 16 0x2000 16) status = some 0x504 := by decide +kernel
theorem test_epelH6 : onSource 0x60110000 =
    some [[0, 40, 65, 94], [20, 70, 111, 151], [40, 103, 162, 189], [60, 141, 182, 177]] := by decide +kernel
theorem test_epelV6 : onSource 0x48104000 =
    some [[0, 35, 70, 104], [32, 76, 123, 182], [43, 104, 175, 179], [60, 134, 163, 192]] := by decide +kernel
theorem test_epelH4V4 : onSource 0x5410B000 =
    some [[0, 39, 72, 106], [25, 76, 123, 171], [44, 108, 170, 189], [62, 137, 174, 188]] := by decide +kernel
theorem test_epelH4V6 : after 0x5811E000 (withRegs source 0x1000 8 0x2000 16) (block 0x1000 8 4 4) =
    some [[8, 62, 99, 140], [45, 101, 158, 185], [65, 142, 182, 184], [90, 147, 170, 228]] := by decide +kernel
theorem test_epelH6V4 : onSource 0x64125000 =
    some [[10, 67, 99, 136], [44, 103, 164, 171], [65, 151, 178, 184], [98, 150, 172, 235]] := by decide +kernel
theorem test_epelH6V6 : onSource 0x68114000 =
    some [[0, 48, 77, 114], [35, 87, 140, 179], [49, 125, 180, 178], [74, 145, 167, 212]] := by decide +kernel
theorem test_bilinHV : onSource 0x8C11D000 =
    some [[25, 62, 99, 136], [47, 97, 147, 176], [69, 132, 173, 189], [90, 145, 172, 206]] := by decide +kernel

/-- R157: one row through the clamp, `128 255 243 255`. -/
theorem test_epelH6_clamps :
    after 0x60060000 (withRegs (rows 0x1FFE 0 [[0, 0, 0, 255, 255, 255, 255, 0, 0]]) 0x1000 4 0x2000 0) (block 0x1000 4 1 4) =
      some [[128, 255, 243, 255]] := by decide +kernel
/-- R157, R145 (b): the 4-tap command drops the outer taps of an even row, `33 43 52 62`. -/
theorem test_epelH4_even :
    after 0x50060000 (withRegs (rows 0x1FFE 0 [[10, 20, 30, 40, 50, 60, 70, 80, 90]]) 0x1000 4 0x2000 0) (block 0x1000 4 1 4) =
      some [[33, 43, 52, 62]] := by decide +kernel
/-- R157: `EPEL_H4.4 1, 1`, `31 41 51 61`. -/
theorem test_epelH4 :
    after 0x50048000 (withRegs (rows 0x1FFE 0 [[10, 20, 30, 40, 50, 60, 70, 80, 90]]) 0x1000 4 0x2000 0) (block 0x1000 4 1 4) =
      some [[31, 41, 51, 61]] := by decide +kernel
/-- V19: the vertical ramp, `21 31 41 51`. -/
theorem test_epelV4 :
    after 0x44101000 (withRegs (rows 0x1FE0 16 [[0], [10], [20], [30], [40], [50], [60], [70], [80], [90]]) 0x1000 16 0x2000 16)
      (block 0x1000 16 4 1) = some [[21], [31], [41], [51]] := by decide +kernel
/-- V34: row -1 alone is needed by the 4-tap filter, row -2 by the 6-tap one. -/
theorem test_epelV_margins :
    after 0x44101000 (withRegs [] 0x1000 16 0x10 16) status = some 2 ∧
      after 0x48102000 (withRegs [] 0x1000 16 0x10 16) status = some 0x604 := by decide +kernel
/-- V34: the selector is checked before the stride. -/
theorem test_selector_zero : after 0x60100000 (withRegs [] 0x1000 0 0x2000 16) status = some 0x204 := by decide +kernel

/-- The three rows of R177. -/
def bilinRows : State := withRegs (rows 0x2000 16 [[10, 20, 30, 40, 50], [50, 60, 70, 80, 90], [0, 255, 0, 255, 0]]) 0x1000 4 0x2000 16

theorem test_bilinH : after 0x88098000 bilinRows (block 0x1000 4 2 4) = some [[14, 24, 34, 44], [54, 64, 74, 84]] := by decide +kernel
theorem test_bilinV : after 0x84085000 bilinRows (block 0x1000 4 2 4) = some [[35, 45, 55, 65], [19, 182, 26, 189]] := by decide +kernel
theorem test_bilinHV_two_roundings :
    after 0x8C09D000 bilinRows (block 0x1000 4 2 4) = some [[39, 49, 59, 69], [80, 123, 88, 131]] := by decide +kernel

/-- Pixels at 0x1000 row by row, four wide, and coefficients at 0x3000. -/
def pixelsAndCoefs (p : List (List Nat)) (c : List Int) : State :=
  withRegs (rows 0x1000 4 p ++ rows 0x3000 0 [halves c]) 0x1000 4 0x3000 0

/-- R193: the mixed block on pixels all 128. -/
theorem test_idctAdd :
    after 0xC0000000 (pixelsAndCoefs (List.replicate 4 [128, 128, 128, 128]) [64, -24, 0, 8, 16, 0, 0, 0, 0, 0, 0, 0, -8, 0, 0, 0])
      (fun t => (block 0x1000 4 4 4 t, coefs 0x3000 2 4 t)) =
      some ([[134, 135, 141, 141], [135, 136, 141, 142], [130, 131, 137, 137], [131, 131, 137, 138]], [0, 0, 0, 0]) := by
  decide +kernel
/-- V45: the intermediate wraps at 16 bits. -/
theorem test_idctAdd_wraps :
    after 0xC0000000 (pixelsAndCoefs (List.replicate 4 [128, 128, 128, 128]) (List.replicate 16 32767)) (block 0x1000 4 4 4) =
      some [[0, 255, 0, 33], [0, 255, 0, 0], [255, 0, 255, 255], [255, 0, 255, 223]] := by decide +kernel
/-- V6, U18: one DC value added and clamped; the other coefficients keep their values. -/
theorem test_idctDcAdd :
    after 0xC4000000 (pixelsAndCoefs [[0, 5, 250, 255], [128, 128, 128, 128], [1, 2, 3, 4], [255, 0, 255, 0]] [80, 7])
      (fun t => (block 0x1000 4 4 4 t, coefs 0x3000 2 2 t)) =
      some ([[10, 15, 255, 255], [138, 138, 138, 138], [11, 12, 13, 14], [255, 10, 255, 10]], [0, 7]) := by decide +kernel
/-- V47: pixels that share one byte with `c[0]`, and pixels beside it. -/
theorem test_idctDcAdd_overlap :
    after 0xC4000000 (withRegs [] 0x3001 4 0x3000 0) status = some 0x504 ∧
      after 0xC4000000 (withRegs [] 0x3002 4 0x3000 0) status = some 2 := by decide +kernel

/-- The four DC entries of V41 and V42, 32 bytes apart at 0x3000. -/
def fourDc (a b c d : Int) : Memory := rows 0x3000 32 [halves [a], halves [b], halves [c], halves [d]]

/-- V41. -/
theorem test_idctDcAdd4y :
    after 0xC8000000 (withRegs (rows 0x1000 32 [[100, 101, 102, 103, 104, 105, 106, 107, 108, 109, 110, 111, 112, 113, 114, 115]] ++
        fourDc 80 (-80) 7 2000) 0x1000 32 0x3000 0) (fun t => (block 0x1000 32 1 16 t, coefs 0x3000 32 4 t)) =
      some ([[110, 111, 112, 113, 94, 95, 96, 97, 109, 110, 111, 112, 255, 255, 255, 255]], [0, 0, 0, 0]) := by decide +kernel
/-- V42. -/
theorem test_idctDcAdd4uv :
    after 0xCC000000 (withRegs (rows 0x1000 8 ((List.range 8).map fun y => (List.range 8).map fun x => 10 * y + x) ++
        fourDc 8 16 (-24) 1600) 0x1000 8 0x3000 0) (fun t => (block 0x1000 8 8 8 t).drop 3) =
      some [[31, 32, 33, 34, 36, 37, 38, 39], [37, 38, 39, 40, 244, 245, 246, 247], [47, 48, 49, 50, 254, 255, 255, 255],
        [57, 58, 59, 60, 255, 255, 255, 255], [67, 68, 69, 70, 255, 255, 255, 255]] := by decide +kernel

/-- R193: the WHT block, and the entry beside slot 0 untouched. -/
theorem test_wht :
    after 0xD0000000 (withRegs (rows 0x3000 0 [halves [17, -5, 3, 0, 8, 0, 0, -2, 0, 1, 0, 0, -16, 0, 0, 4]] ++
        rows 0x4002 0 [[0x34, 0x12]]) 0x4000 0 0x3000 0) (fun t => (coefs 0x4000 32 16 t, coefs 0x3000 2 16 t, coefs 0x4002 2 1 t)) =
      some ([1, 0, 1, 2, 4, 5, 5, 7, -1, -3, 0, -1, 3, 2, 3, 4], List.replicate 16 0, [0x1234]) := by decide +kernel
/-- V46: `dc[1]` goes along a row of sub-blocks. -/
theorem test_wht_row :
    after 0xD0000000 (withRegs (rows 0x3000 0 [halves [0, 8]]) 0x4000 0 0x3000 0) (coefs 0x4000 32 8) =
      some [1, 1, -1, -1, 1, 1, -1, -1] := by decide +kernel
/-- V4. -/
theorem test_whtDc :
    after 0xD4000000 (withRegs (rows 0x3000 0 [halves [17, 9]]) 0x4000 0 0x3000 0)
      (fun t => (coefs 0x4000 32 16 t, coefs 0x3000 2 2 t)) = some (List.replicate 16 2, [0, 9]) := by decide +kernel
/-- V47: the array pointer is a coefficient pointer too; `dc[0]` alone is in WHT_DC's footprint. -/
theorem test_wht_checks :
    after 0xD0000000 (withRegs [] 0x4001 0 0x3000 0) status = some 0x304 ∧
      after 0xD0000000 (withRegs [] 0x4000 0 0x4002 0) status = some 0x504 ∧
      after 0xD4000000 (withRegs [] 0x4000 0 0x4002 0) status = some 2 := by decide +kernel

/-- The eight octets of V51. -/
def octets : List (List Nat) := [
  [60, 62, 64, 66, 80, 82, 84, 86], [86, 84, 82, 80, 66, 64, 62, 60], [50, 50, 50, 50, 93, 93, 93, 93],
  [0, 0, 52, 50, 91, 51, 0, 0], [0, 0, 0, 0, 100, 100, 100, 100], [100, 100, 100, 100, 0, 0, 0, 0],
  [0, 0, 0, 0, 255, 255, 255, 255], [7, 9, 10, 20, 22, 12, 11, 13]]

/-- The octets side by side as the columns of a plane: position `i` is column `i`. -/
def columns (l : List (List Nat)) : List (List Nat) := (List.range 8).map fun k => l.map fun o => o.getD k 0

/-- V51, direction H: the octets after the command. -/
def filterRows (w : Nat) : Option (List (List Nat)) := after w (withRegs (rows 0x1040 16 octets) 0x1044 16 0 0) (block 0x1040 16 8 8)

/-- V51, direction V: the octets after the command. -/
def filterCols (w : Nat) : Option (List (List Nat)) :=
  after w (withRegs (rows 0x1000 16 (columns octets)) 0x1040 16 0 0) fun t => columns (block 0x1000 16 8 8 t)

/-- The simple filter at E = 40 (V51). -/
def simple40 : List (List Nat) := [
  [60, 62, 64, 69, 77, 82, 84, 86], [86, 84, 82, 77, 69, 64, 62, 60], [50, 50, 50, 50, 93, 93, 93, 93],
  [0, 0, 52, 50, 91, 51, 0, 0], [0, 0, 0, 0, 100, 100, 100, 100], [100, 100, 100, 100, 0, 0, 0, 0],
  [0, 0, 0, 0, 255, 255, 255, 255], [7, 9, 10, 20, 21, 12, 11, 13]]
/-- The inner filter at 255, 255, 0 (V51). -/
def inner255 : List (List Nat) := [
  [60, 62, 64, 69, 77, 82, 84, 86], [86, 84, 82, 77, 69, 64, 62, 60], [50, 50, 58, 65, 78, 85, 93, 93],
  [0, 0, 52, 65, 76, 51, 0, 0], [0, 0, 8, 15, 85, 92, 100, 100], [100, 100, 92, 84, 16, 8, 0, 0],
  [0, 0, 0, 0, 255, 255, 255, 255], [7, 9, 10, 20, 21, 12, 11, 13]]
/-- The macroblock-edge filter at 255, 255, 255 (V51). -/
def mb255 : List (List Nat) := [
  [60, 64, 67, 71, 75, 79, 82, 86], [86, 82, 79, 75, 71, 67, 64, 60], [50, 56, 62, 68, 75, 81, 87, 93],
  [0, 9, 69, 76, 65, 34, 0, 0], [0, 9, 18, 27, 73, 82, 91, 100], [100, 91, 82, 73, 27, 18, 9, 0],
  [0, 0, 0, 0, 255, 255, 255, 255], [7, 9, 11, 21, 21, 11, 11, 13]]

theorem test_lfsV : filterCols 0xE0280000 = some simple40 := by decide +kernel
theorem test_lfsH : filterRows 0xE4280000 = some simple40 := by decide +kernel
theorem test_lfiV : filterCols 0xE8FFFF00 = some inner255 := by decide +kernel
theorem test_lfiH : filterRows 0xECFFFF00 = some inner255 := by decide +kernel
theorem test_lfmV : filterCols 0xF0FFFFFF = some mb255 := by decide +kernel
theorem test_lfmH : filterRows 0xF4FFFFFF = some mb255 := by decide +kernel

/-- V53: with AUX = DST the plane is filtered twice. -/
theorem test_lfiV_twice :
    after 0xE9280A05 (withRegs (rows 0x1000 16 (columns octets)) 0x1040 16 0x1040 0)
      (fun t => (columns (block 0x1000 16 8 8 t)).take 2) =
      some [[60, 62, 68, 72, 73, 78, 84, 86], [86, 84, 80, 73, 72, 66, 62, 60]] := by decide +kernel
/-- V55: all eight taps are in the read footprint of the simple filter. -/
theorem test_lfs_footprint :
    after 0xE00A0000 (withRegs [] 0xFFC0 16 0 0) status = some 2 ∧
      after 0xE00A0000 (withRegs [] 0xFFD0 16 0 0) status = some 0x704 := by decide +kernel

/-- V13, V65: an illegal word faults with cause 1 and is recorded. -/
theorem test_illegal_word :
    after 0xFFFFFFFF (withRegs [] 0 0 0 0) (fun t => (status t, t.errinfo.toNat)) = some (0x104, 0xFFFFFFFF) := by decide +kernel
/-- V66: the range is checked on unbounded addresses. -/
theorem test_addr_range :
    after 0x05080001 (withRegs [] 4 0xFFFFFFF8 0 0) status = some 0x604 ∧
      after 0x05080001 (withRegs [] 0xFFFFFFF8 8 0 0) status = some 0x604 ∧
      after 0x05040001 (withRegs [] 0xFFFFFFF8 8 0 0) status = some 0x704 := by decide +kernel

/-- R32, R65: CLR1 whose last bytes are the register block's faults with BUS, also where a region covers the block. -/
theorem test_register_block_bus :
    after 0x08000000 { withRegs [] 0 0 0x8000 0 with memMap := { regions := [⟨0, 65536⟩], mmioBase := 0x801C } } status = some 0x704 ∧
      after 0x08000000 { withRegs [] 0 0 0x8000 0 with memMap := { regions := [⟨0, 65536⟩], mmioBase := 0x8020 } } status = some 2 := by
  decide +kernel
/-- What `f` sees after an action of the host. -/
def acted {α : Type} (act : HostAction) (s : State) (f : State → α) : Option α :=
  match hostAction act s s with
  | .next t => some (f t)
  | _ => none

/-- Why an action of the host is refused. -/
def refusal (act : HostAction) (s : State) : Option Refusal :=
  match hostAction act s s with
  | .refused r => some r
  | _ => none

/-- R32, U9: the block is not memory to the host; its neighbours are. -/
theorem test_register_block_refused :
    refusal (.st8 0xFFFF0000 1) State.reset = some (.registerBlockAccess 0xFFFF0000 1) ∧
      refusal (.ld16 0xFFFF001E) State.reset = some (.registerBlockAccess 0xFFFF001E 2) ∧
      acted (.st8 0xFFFF0020 1) State.reset State.mem = some [(0xFFFF0020, 1)] := by decide +kernel
/-- R7, R52: `COEF_ENDIAN` is little: the low byte of a coefficient and of ST16 stands at the lower address. -/
theorem test_coef_endian : coefEndian = .little ∧ cf [(0x3000, 0x34), (0x3001, 0xF2)] 0x3000 = -3532 ∧
    acted (.st16 0x3000 0xF234) State.reset State.mem = some [(0x3000, 0x34), (0x3001, 0xF2)] := by
  decide +kernel

/-! ### The host's registers (V61 to V68) -/

/-- FILL.8 8, 0x7F accepted, its operands latched (V61). -/
def filling : State := ((withRegs [] 0x1000 8 0 0).writeReg .cmd 0x0520007F)

theorem test_busy : status filling = 1 ∧ filling.readReg .cmd = 0x0520007F := by decide
/-- V62: a write to CMD while BUSY = 1 is dropped and sets OVR. -/
theorem test_dropped : status (filling.writeReg .cmd 0x08000000) = 9 ∧
    (filling.writeReg .cmd 0x08000000).readReg .cmd = 0x0520007F := by decide
/-- V63: the command uses the latched DST. -/
theorem test_latched : (match step (filling.writeReg .x0 0x5000) with
    | .next t => (block 0x1000 8 1 2 t, block 0x5000 8 1 2 t, t.x0.toNat)
    | _ => ([], [], 0)) = ([[0x7F, 0x7F]], [[0, 0]], 0x5000) := by decide +kernel

/-- MISALIGNED taken by IDCT_ADD (V64). -/
def faulted : State :=
  { State.reset with
    status := { Status.reset with err := true, cause := some .misaligned }, errinfo := 0xC0000000, cmd := 0xC0000000 }

/-- R25, R28: a read of STATUS with BUSY = 0 returns the word and ends the duties; with BUSY = 1 they stay. -/
theorem test_read_status :
    acted (.rd .status) { State.reset with duties := [⟨0, 0, 0, 0, 0⟩], status := { Status.reset with done := true } }
        (fun t => (t.hostReads, t.duties, t.status.done)) = some ([2], [], true) ∧
      acted (.rd .status) { filling with duties := [⟨0, 0, 0, 0, 0⟩] } (fun t => (t.hostReads, t.duties.length)) =
        some ([1], 1) := by decide
/-- V64. -/
theorem test_fault_word : status faulted = 0x304 ∧ status (faulted.writeReg .cmd 0x08000000) = 0x30C ∧
    status ((faulted.writeReg .cmd 0x08000000).writeReg .status 0xFFFFFFFF) = 0x304 := by decide
theorem test_soft_reset : status (faulted.writeReg .ctrl 0x80000000) = 0 ∧
    (faulted.writeReg .ctrl 0x80000000).readReg .errinfo = 0 := by decide
/-- V67. -/
theorem test_irq : irq (faulted.writeReg .ctrl 3) = true ∧ irq (faulted.writeReg .ctrl 1) = false ∧
    irq ((faulted.writeReg .ctrl 3).writeReg .status 0xF) = true ∧
    (faulted.writeReg .ctrl 0x7FFFFFFF).readReg .ctrl = 3 ∧ (faulted.writeReg .ctrl 0x80000003).readReg .ctrl = 0 := by decide
/-- V68. -/
theorem test_ignored_writes : (State.reset.writeReg .errinfo 0x1234).readReg .errinfo = 0 ∧
    status (State.reset.writeReg .status 0xF05) = 0 := by decide
/-- R35: the largest two-pass command fills the scratch buffer exactly. -/
theorem test_scratch : (scratchRows TapCount.six.lo (Config.hMax + TapCount.six.lo + TapCount.six.hi) Width.w16.cols
    fun _ _ => 0).flatten.length = Config.scratchBytes := by decide +kernel
/-- R97: the text of a command. -/
theorem test_asm : asmText (.lfiV .n8 true 30 10 2) = "LFI_V.8.UV 30, 10, 2" ∧ asmText (.fill .w8 8 0x7F) = "FILL.8 8, 127" := by
  decide +kernel

/-! ### Witnesses: for every statement with hypotheses, states and operands that meet them -/

/-- The operands all witnesses share. -/
def cmdOf (w : Word) : InFlight := { word := w, x0 := 0x1000, x1 := 64, x2 := 0x2000, x3 := 64 }

/-- The word `w` in flight with those operands. -/
def ready (w : Word) : State :=
  { State.reset with
    x0 := 0x1000, x1 := 64, x2 := 0x2000, x3 := 64, cmd := w, cur := some (cmdOf w)
    status := { Status.reset with busy := true } }

theorem running_ready (w : Word) : Running (ready w) (cmdOf w) := ⟨rfl, rfl, rfl⟩

theorem accessible_ready (w : Word) {a : Int} (h0 : 0 ≤ a) (h1 : a < 65536) : Accessible (ready w) a := by
  refine ⟨h0, by have : Config.addrLimit = 4294967296 := rfl; omega, (memValid_iff ..).mpr ⟨⟨⟨0, 65536⟩, List.mem_singleton.mpr rfl, h0, h1⟩, ?_⟩⟩
  have : (ready w).memMap.mmioBase = 0xFFFF0000 := rfl
  omega

theorem dst_ready (w : Word) : (cmdOf w).dst = 4096 := rfl
theorem aux_ready (w : Word) : (cmdOf w).aux = 8192 := rfl
theorem dstride_ready (w : Word) : (cmdOf w).dstride = 64 := rfl
theorem sstride_ready (w : Word) : (cmdOf w).sstride = 64 := rfl

theorem cols_le (w : Width) : w.cols ≤ 16 := by cases w <;> decide

theorem interpReady_ready (c : Word) (w : Width) {h : BitVec 6} (hh : 1 ≤ h.toNat ∧ h.toNat ≤ 32) {top bot left right : Nat}
    (h1 : top ≤ 3) (h2 : bot ≤ 3) (h3 : left ≤ 3) (h4 : right ≤ 3) : InterpReady (ready c) (cmdOf c) w h top bot left right := by
  have hw := cols_le w
  refine ⟨running_ready c, hh, by rw [dstride_ready, StrideCovers, abs_of_nonneg] <;> omega, ?_, ?_, ?_⟩
  · rintro a ⟨y, x, hy, hy', hx, hx', rfl⟩
    rw [aux_ready, sstride_ready]
    exact accessible_ready c (by omega) (by omega)
  · rintro a ⟨y, x, hy, hx, rfl⟩
    rw [dst_ready, dstride_ready]
    exact accessible_ready c (by omega) (by omega)
  · rintro a ⟨y, x, hy, hy', hx, hx', he⟩ ⟨y', x', hy'', hx'', he'⟩
    rw [aux_ready, sstride_ready] at he
    rw [dst_ready, dstride_ready] at he'
    omega

theorem idctReady_ready (c : Word) {C : Int → Prop} (hC : ∀ a, C a → 8192 ≤ a ∧ a < 8320) {w h : Nat} (hw : w ≤ 16) (hh : h ≤ 8) :
    IdctReady (ready c) (cmdOf c) C w h := by
  refine ⟨running_ready c, by show (0x2000 : Word).toNat % 2 = 0; decide, by rw [dstride_ready, StrideCovers, abs_of_nonneg] <;> omega, ?_, ?_, ?_⟩
  · intro a ha
    have := hC a ha
    exact accessible_ready c (by omega) (by omega)
  · rintro a ⟨y, x, hy, hx, rfl⟩
    rw [dst_ready, dstride_ready]
    exact accessible_ready c (by omega) (by omega)
  · rintro a ha ⟨y, x, hy, hx, he⟩
    have := hC a ha
    rw [dst_ready, dstride_ready] at he
    omega

theorem inBytes_ready (c : Word) {n : Nat} (hn : n ≤ 128) : ∀ a, InBytes (cmdOf c).aux n a → 8192 ≤ a ∧ a < 8320 := by
  rintro a ⟨h1, h2⟩
  rw [aux_ready] at h1 h2
  omega

theorem inFourDc_ready (c : Word) : ∀ a, InFourDc (cmdOf c) a → 8192 ≤ a ∧ a < 8320 := by
  rintro a ⟨k, hk, h1, h2⟩
  rw [aux_ready] at h1 h2
  omega

theorem whtReady_ready (c : Word) {n : Nat} (hn : n ≤ 32) : WhtReady (ready c) (cmdOf c) n := by
  refine ⟨running_ready c, ⟨by show (0x2000 : Word).toNat % 2 = 0; decide, by show (0x1000 : Word).toNat % 2 = 0; decide⟩, ?_, ?_, ?_⟩
  · intro a ha
    have := inBytes_ready c (by omega) a ha
    exact accessible_ready c (by omega) (by omega)
  · rintro a ⟨k, hk, h1, h2⟩
    rw [dst_ready] at h1 h2
    exact accessible_ready c (by omega) (by omega)
  · rintro a ha ⟨k, hk, h1, h2⟩
    have := inBytes_ready c (by omega) a ha
    rw [dst_ready] at h1 h2
    omega

theorem planeReady_ready (c : Word) (d : Direction) {n : Nat} (hn : n ≤ 16) {base : Int} (hb : 4096 ≤ base ∧ base ≤ 8192) :
    PlaneReady (ready c) (cmdOf c) d n base := by
  refine ⟨running_ready c, ?_, ?_⟩
  · rw [dstride_ready, StrideCovers, abs_of_nonneg (by omega)]
    cases d
    · show (n : Int) ≤ 64; omega
    · show ((8 : Nat) : Int) ≤ 64; omega
  · rintro a ⟨i, k, hi, h1, h2, rfl⟩
    rw [dstride_ready]
    cases d
    · show Accessible _ (base + i + k * 64); exact accessible_ready c (by omega) (by omega)
    · show Accessible _ (base + i * 64 + k); exact accessible_ready c (by omega) (by omega)

/-- Every command whose checks pass completes from `ready`. -/
theorem completes_ready (c : Word) (i : Instr) (hk : (planOf i (cmdOf c)).firstFault (cmdOf c).dstride (ready c).memMap = none) :
    exec i (ready c) = .next ((ready c).completedWith (cmdOf c) (effectOf i (cmdOf c) (ready c).mem)) := by
  rw [exec_eq_runCommand]
  exact runCommand_completes (running_ready c) hk

theorem test_witness_DecodeOfEncode : (Instr.fill .w8 1 0).wellFormed = true ∧ (Instr.fill .w16 32 255).wellFormed = true ∧
    (Instr.epelH6V6 .w4 32 0 7).wellFormed = true ∧ (Instr.lfmH .n16 false 255 255 255).wellFormed = true := by decide

theorem test_witness_EncodeOfDecode : decode 0x0580007F = .ok (.fill .w8 32 0x7F) ∧ decode 0x08000000 = .ok .clr1 := by decide

theorem test_witness_DecodeAcceptsTheTable : decode 0x05800001 = .ok (.fill .w8 32 1) ∧
    ∃ r ∈ opcodeTable, r.legal 0x05800001 = true := by decide

theorem test_witness_IllegalWordsFault :
    (State.reset.status.busy = false ∧ State.reset.status.err = false ∧ ∀ r ∈ opcodeTable, r.legal 0x05840000 = false) ∧
      (opcOf 0xFC000000).toNat = 0x3F ∧ (opcOf 0x10000000).toNat = 0x04 := by decide

theorem test_witness_StepRunsTheCommand :
    (ready 0x0520007F).status.busy = true ∧ (ready 0x0520007F).cur = some (cmdOf 0x0520007F) ∧
      decode (cmdOf 0x0520007F).word = .ok (.fill .w8 8 0x7F) ∧ (ready 0x0520007F).turns = [] ∧
      { ready 0x0520007F with turns := [.engine] }.turns = .engine :: [] ∧
      decodeTableWord 32 0x0520007F = some (.fill .w8 8 0x7F) := by decide

/-- Check `k` as a test on the plan. -/
def failsB (s : State) (c : InFlight) (i : Instr) : FaultCause → Bool
  | .illegalCmd => !(planOf i c).legal
  | .badSelector => (planOf i c).selectors.any fun s => decide (s = 0)
  | .misaligned => (planOf i c).coefs.any fun a => decide (a.toNat % 2 = 1)
  | .badStride => !strideOk c.dstride (planOf i c).rowWidth
  | .overlap => !spansDisjoint (planOf i c).partA (planOf i c).partB
  | .addrRange => !((planOf i c).rf ++ (planOf i c).wf).all Span.inSpace
  | .bus => !mapped s.memMap ((planOf i c).rf ++ (planOf i c).wf)

theorem failsB_iff (s : State) (c : InFlight) (i : Instr) (k : FaultCause) : failsB s c i k = true ↔ CheckFails s c i k := by
  obtain ⟨h1, h2, h3, h4, h5, h6, h7⟩ := checkFails_iff s c i
  cases k
  · rw [h1]; simp only [failsB, Bool.not_eq_true']
  · rw [h2]; rfl
  · rw [h3]; rfl
  · rw [h4]; simp only [failsB, Bool.not_eq_true']
  · rw [h5]; simp only [failsB, Bool.not_eq_true']
  · rw [h6]; simp only [failsB, Bool.not_eq_true']
  · rw [h7]; simp only [failsB, Bool.not_eq_true']

/-- `k` is the first failing check. -/
def FirstFails (s : State) (c : InFlight) (i : Instr) (k : FaultCause) : Prop :=
  Running s c ∧ CheckFails s c i k ∧ ∀ k', k'.code.toNat < k.code.toNat → ¬ CheckFails s c i k'

/-- A state with those latched operands. -/
def inFlight (c : InFlight) : State := { State.reset with cur := some c, status := { Status.reset with busy := true } }

theorem firstFails_of {c : InFlight} {i : Instr} {k : FaultCause} (hk : failsB (inFlight c) c i k = true)
    (hl : ∀ k' ∈ [FaultCause.illegalCmd, .badSelector, .misaligned, .badStride, .overlap, .addrRange, .bus],
      k'.code.toNat < k.code.toNat → failsB (inFlight c) c i k' = false) : FirstFails (inFlight c) c i k := by
  refine ⟨⟨rfl, rfl, rfl⟩, (failsB_iff ..).mp hk, fun k' h hf => ?_⟩
  have := hl k' (by cases k' <;> decide) h
  rw [← failsB_iff, this] at hf
  exact Bool.false_ne_true hf

theorem test_witness_FirstFailingCheck :
    FirstFails (inFlight ⟨0, 0x1000, 64, 0x2000, 64⟩) ⟨0, 0x1000, 64, 0x2000, 64⟩ (.copy .w4 33) .illegalCmd ∧
      FirstFails (inFlight ⟨0, 0x1000, 0, 0x2000, 64⟩) ⟨0, 0x1000, 0, 0x2000, 64⟩ (.epelH6 .w4 4 0) .badSelector ∧
      FirstFails (inFlight ⟨0, 0x1000, 2, 0x3001, 64⟩) ⟨0, 0x1000, 2, 0x3001, 64⟩ .idctAdd .misaligned ∧
      FirstFails (inFlight ⟨0, 0x1000, 3, 0x3000, 64⟩) ⟨0, 0x1000, 3, 0x3000, 64⟩ .idctAdd .badStride ∧
      FirstFails (inFlight ⟨0, 0x301F, 4, 0x3000, 64⟩) ⟨0, 0x301F, 4, 0x3000, 64⟩ .idctAdd .overlap ∧
      FirstFails (inFlight ⟨0, 4, 0xFFFFFFF8, 0, 64⟩) ⟨0, 4, 0xFFFFFFF8, 0, 64⟩ (.fill .w8 2 1) .addrRange ∧
      FirstFails (inFlight ⟨0, 0xFFF9, 8, 0, 64⟩) ⟨0, 0xFFF9, 8, 0, 64⟩ (.fill .w8 1 1) .bus :=
  ⟨firstFails_of (by decide +kernel) (by decide +kernel), firstFails_of (by decide +kernel) (by decide +kernel),
    firstFails_of (by decide +kernel) (by decide +kernel), firstFails_of (by decide +kernel) (by decide +kernel),
    firstFails_of (by decide +kernel) (by decide +kernel), firstFails_of (by decide +kernel) (by decide +kernel),
    firstFails_of (by decide +kernel) (by decide +kernel)⟩

/-- Rows of R234 at their edges: each odd pointer, each row width, each pair of parts. -/
theorem test_witness_FirstFailingCheck_rows :
    FirstFails (inFlight ⟨0, 0, 0, 0x3001, 0⟩) ⟨0, 0, 0, 0x3001, 0⟩ .clr1 .misaligned ∧
      FirstFails (inFlight ⟨0, 0x4001, 0, 0x3000, 0⟩) ⟨0, 0x4001, 0, 0x3000, 0⟩ .wht .misaligned ∧
      FirstFails (inFlight ⟨0, 0x1000, 15, 0x3000, 0⟩) ⟨0, 0x1000, 15, 0x3000, 0⟩ .idctDcAdd4y .badStride ∧
      FirstFails (inFlight ⟨0, 0x1000, 0xFFFFFFF9, 0x3000, 0⟩) ⟨0, 0x1000, 0xFFFFFFF9, 0x3000, 0⟩ .idctDcAdd4uv .badStride ∧
      FirstFails (inFlight ⟨0, 0x1000, 15, 0, 0⟩) ⟨0, 0x1000, 15, 0, 0⟩ (.lfsV .n16 1) .badStride ∧
      FirstFails (inFlight ⟨0, 0x1000, 7, 0, 0⟩) ⟨0, 0x1000, 7, 0, 0⟩ (.lfmH .n16 false 1 1 1) .badStride ∧
      FirstFails (inFlight ⟨0, 0x2004, 64, 0x2000, 64⟩) ⟨0, 0x2004, 64, 0x2000, 64⟩ (.bilinH .w4 1 0) .overlap ∧
      FirstFails (inFlight ⟨0, 0x4000, 0, 0x4002, 0⟩) ⟨0, 0x4000, 0, 0x4002, 0⟩ .wht .overlap :=
  ⟨firstFails_of (by decide +kernel) (by decide +kernel), firstFails_of (by decide +kernel) (by decide +kernel),
    firstFails_of (by decide +kernel) (by decide +kernel), firstFails_of (by decide +kernel) (by decide +kernel),
    firstFails_of (by decide +kernel) (by decide +kernel), firstFails_of (by decide +kernel) (by decide +kernel),
    firstFails_of (by decide +kernel) (by decide +kernel), firstFails_of (by decide +kernel) (by decide +kernel)⟩

theorem test_witness_FirstFailingCheck_none (k : FaultCause) :
    ¬ CheckFails (inFlight ⟨0, 0xFFF8, 8, 0, 64⟩) ⟨0, 0xFFF8, 8, 0, 64⟩ (.fill .w8 1 1) k := by
  rw [← failsB_iff]
  cases k <;> decide +kernel

theorem test_witness_FootprintsAreTheSpecs : ∃ pair : Bool, pair = false := ⟨false, rfl⟩

theorem test_witness_FaultEffect : Running (inFlight ⟨0, 0x1000, 3, 0x3000, 64⟩) ⟨0, 0x1000, 3, 0x3000, 64⟩ ∧
    (inFlight ⟨0, 0x1000, 3, 0x3000, 64⟩).status.done = false ∧
    CheckFails (inFlight ⟨0, 0x1000, 3, 0x3000, 64⟩) ⟨0, 0x1000, 3, 0x3000, 64⟩ .idctAdd .badStride :=
  ⟨⟨rfl, rfl, rfl⟩, rfl, test_witness_FirstFailingCheck.2.2.2.1.2.1⟩

theorem test_witness_SelectorZeroFaults : Running (ready 0) (cmdOf 0) ∧ heightLegal 1 = true ∧ heightLegal 32 = true ∧
    ((0 : BitVec 3) = 0 ∨ (7 : BitVec 3) = 0) ∧ ((7 : BitVec 3) = 0 ∨ (0 : BitVec 3) = 0) ∧
    ((ready 0).faultedWith (cmdOf 0) .badSelector).status.cause = some .badSelector ∧
    (ready 0).status.cause ≠ some .badSelector := by
  refine ⟨running_ready 0, ?_⟩
  decide

theorem inv_ready (w : Word) : (ready w).Inv :=
  { mem_wf := rfl, busy_iff := rfl, cmd_shows := fun c h => by rw [← Option.some.inj h]; rfl, busy_done := by simp [ready, Status.reset],
    busy_err := by simp [ready, Status.reset], done_err := by simp [ready, Status.reset], cause_iff := rfl,
    errinfo_zero := fun _ => rfl, errinfo_cmd := fun h => (nomatch h), breach_busy := fun h => (nomatch h) }

theorem test_witness_CommandsAlwaysComplete : (ready 0).cur.isSome = true ∧ (ready 0).Inv ∧ (ready 0).status.busy = true :=
  ⟨rfl, inv_ready 0, rfl⟩

theorem test_witness_CommandWriteAcceptance : (State.reset.status.busy = false ∧ State.reset.status.err = false) ∧
    (ready 0).status.busy = true ∧ faulted.status.err = true := by decide

theorem test_witness_LatchedWhileBusy :
    (filling.status.busy = true ∧ { filling with host := [HostAction.wr .x0 0x5000] }.hostAsksReset = false ∧
      hostStep { filling with host := [HostAction.wr .x0 0x5000] } = .next (State.writeReg { filling with host := [] } .x0 0x5000)) ∧
      ∃ t, exec (.fill .w8 8 0x7F) (ready 0x0520007F) = .next t :=
  ⟨⟨rfl, rfl, rfl⟩, _, completes_ready 0x0520007F (.fill .w8 8 0x7F) (by decide +kernel)⟩

theorem test_witness_CtrlWrite : (0x7FFFFFFF : Word).getLsbD 31 = false ∧ (0x80000000 : Word).getLsbD 31 = true := by decide

theorem test_witness_OperandRegisters : ∃ t, engineTurn (ready 0x0520007F) = .next t :=
  ⟨_, completes_ready 0x0520007F (.fill .w8 8 0x7F) (by decide +kernel)⟩

/-- CLR1 over the register block, in a state whose regions cover it. -/
def overBlock : State := { inFlight ⟨0, 0, 0, 0x8000, 0⟩ with memMap := { regions := [⟨0, 65536⟩], mmioBase := 0x801C } }

theorem test_witness_RegisterBlock : ((2 ≠ 4) ∨ 0 % 4 ≠ 0 ∨ 0x1C < 0) ∧ ((4 ≠ 4) ∨ 1 % 4 ≠ 0 ∨ 0x1C < 1) ∧
    ((4 ≠ 4) ∨ 0x20 % 4 ≠ 0 ∨ 0x1C < 0x20) ∧ (0x1C, HostReg.x3) ∈ [(0x00, HostReg.cmd), (0x1C, .x3)] ∧
    (overBlock.memMap.mmioBase ≤ (0x801C : Word).toNat ∧ (0x803B : Word).toNat < overBlock.memMap.mmioBase + 32) ∧
    ((0x803A : Word).toNat % 2 = 0 ∧ overBlock.memMap.mmioBase ≤ (0x803A : Word).toNat + 1 ∧
      (0x803A : Word).toNat < overBlock.memMap.mmioBase + 32) := by decide

theorem test_witness_RegisterBlock_bus : Running overBlock ⟨0, 0, 0, 0x8000, 0⟩ ∧ InFootprint ⟨0, 0, 0, 0x8000, 0⟩ .clr1 0x801C ∧
    (overBlock.memMap.mmioBase : Int) ≤ 0x801C ∧ (0x801C : Int) < overBlock.memMap.mmioBase + 32 ∧
    ∀ k, k ≠ .bus → ¬ CheckFails overBlock ⟨0, 0, 0, 0x8000, 0⟩ .clr1 k := by
  refine ⟨⟨rfl, rfl, rfl⟩, .inr (by decide +kernel), by decide, by decide, fun k hk hf => ?_⟩
  rw [← failsB_iff] at hf
  revert hf hk
  cases k <;> decide +kernel

theorem test_witness_InterruptLine : ({ Status.reset with done := true } : Status).err = false ∧
    irq { State.reset with status := { Status.reset with done := true }, ctrl := { ieDone := true, ieErr := false } } = true := by decide

theorem test_witness_ResetState : (∃ t, (ready 0).resetEngine = State.resetEngine t) ∧ (ready 0x0520007F).mem.wf = true ∧
    ∀ c, (ready 0x0520007F).status.busy = true → (ready 0x0520007F).cur = some c → spansHave c.wf (0x1008 : Nat) = false :=
  ⟨⟨_, rfl⟩, rfl, fun c _ h => by rw [← Option.some.inj h]; decide +kernel⟩

theorem test_witness_SoftAndHardReset : (0x80000000 : Word).getLsbD 31 = true ∧ (0xFFFFFFFF : Word).getLsbD 31 = true := by decide

theorem test_witness_AbortedCommand : (ready 0x0520007F).status.busy = true ∧ (ready 0x0520007F).cur = some (cmdOf 0x0520007F) ∧
    (ready 0x0520007F).mem.wf = true ∧ spansHave (cmdOf 0x0520007F).wf (0x1000 : Nat) = true ∧ 0x1000 < Config.addrLimit ∧
    spansHave (cmdOf 0x0520007F).wf (0x0FFF : Nat) = false ∧ spansHave (cmdOf 0x0520007F).wf (0x11C7 : Nat) = true ∧
    spansHave (cmdOf 0x0520007F).wf (0x11C8 : Nat) = false := by decide +kernel

theorem inv_faulted : faulted.Inv :=
  { mem_wf := rfl, busy_iff := rfl, cmd_shows := fun c h => (nomatch h), busy_done := by simp [faulted, Status.reset],
    busy_err := by simp [faulted, Status.reset], done_err := by simp [faulted, Status.reset], cause_iff := rfl,
    errinfo_zero := fun h => (nomatch h), errinfo_cmd := fun _ => rfl, breach_busy := fun h => (nomatch h) }

theorem test_witness_ErrClearedOnlyByReset : faulted.Inv ∧ faulted.status.err = true ∧ faulted.resetNext = false ∧
    step faulted = .next faulted := ⟨inv_faulted, rfl, rfl, rfl⟩

theorem test_witness_CommandFrame : (∃ t, step (ready 0x0520007F) = .next t) ∧ ∃ t, exec (.fill .w8 8 0x7F) (ready 0x0520007F) = .next t :=
  ⟨test_witness_OperandRegisters, test_witness_LatchedWhileBusy.2⟩

theorem test_witness_MemoryFrame : (ready 0x0520007F).mem.wf = true ∧ (ready 0x0520007F).cur = some (cmdOf 0x0520007F) ∧
    (∃ t, exec (.fill .w8 8 0x7F) (ready 0x0520007F) = .next t) ∧
    spansHave (planOf (.fill .w8 8 0x7F) (cmdOf 0x0520007F)).wf (0x1008 : Nat) = false :=
  ⟨rfl, rfl, test_witness_LatchedWhileBusy.2, by decide +kernel⟩

theorem test_witness_InvariantKept : (ready 0x0520007F).Inv ∧ ∃ t, step (ready 0x0520007F) = .next t :=
  ⟨inv_ready _, test_witness_OperandRegisters⟩

theorem fill_reads_nothing {w : Width} {h : BitVec 6} {v : Byte} {c : InFlight} {a : Int} {p : Prop}
    (ha : spansHave (planOf (.fill w h v) c).rf a = true) : p :=
  have hf : spansHave [] a = true := ha
  absurd hf Bool.false_ne_true

/-- The same, with another byte in memory. -/
def touched : State := { ready 0x0520007F with mem := [(0, 1)] }

theorem running_touched : Running touched (cmdOf 0x0520007F) := ⟨rfl, rfl, rfl⟩

theorem test_witness_ResultDependsOnFootprint :
    Running (ready 0x0520007F) (cmdOf 0x0520007F) ∧ Running touched (cmdOf 0x0520007F) ∧
      (ready 0x0520007F).memMap = touched.memMap ∧
      AgreeOn (ready 0x0520007F).mem touched.mem (planOf (.fill .w8 8 0x7F) (cmdOf 0x0520007F)).rf ∧
      (∃ t, exec (.fill .w8 8 0x7F) (ready 0x0520007F) = .next t) ∧ ∃ t, exec (.fill .w8 8 0x7F) touched = .next t := by
  refine ⟨running_ready _, running_touched, rfl, fun a h => fill_reads_nothing h, test_witness_LatchedWhileBusy.2, ?_⟩
  rw [exec_eq_runCommand]
  exact ⟨_, runCommand_completes running_touched (by decide +kernel)⟩

theorem test_witness_HostMemoryAccess : State.reset.mem.wf = true ∧ State.reset.status.busy = false ∧ State.reset.duties = [] ∧
    (State.reset.memMap.inRegisterBlock (0 : Word).toNat = false ∧ (0 : Word).toNat % 2 = 0 ∧
      State.reset.memMap.inRegisterBlock ((0 : Word).toNat + 1) = false) ∧
    (State.reset.memMap.inRegisterBlock (0xFFFFFFFE : Word).toNat = false ∧ (0xFFFFFFFE : Word).toNat % 2 = 0 ∧
      State.reset.memMap.inRegisterBlock ((0xFFFFFFFE : Word).toNat + 1) = false) ∧
    State.reset.memMap.inRegisterBlock (0xFFFFFFFF : Word).toNat = false ∧ (0xFFFFFFFF : Word).toNat % 2 = 1 := by decide

/-- The last byte of the write footprint is pending, the next is not; both kinds of duty. -/
theorem test_witness_BrokenDutyRead :
    ((ready 0x0520007F).memMap.inRegisterBlock (0x11C6 : Word).toNat = false ∧
      (ready 0x0520007F).memMap.inRegisterBlock ((0x11C6 : Word).toNat + 1) = false ∧ (0x11C6 : Word).toNat % 2 = 0) ∧
      ((ready 0x0520007F).Pending (0x11C6 : Word).toNat ∧ (ready 0x0520007F).Pending ((0x11C6 : Word).toNat + 1)) ∧
      (¬ (ready 0x0520007F).Pending (0x11C8 : Word).toNat ∧ ¬ (ready 0x0520007F).Pending ((0x11C8 : Word).toNat + 1)) ∧
      State.Pending { State.reset with duties := [cmdOf 0x0520007F] } (0x1000 : Word).toNat := by
  have hp : ∀ a : Int, spansHave (cmdOf 0x0520007F).wf a = false → ¬ (ready 0x0520007F).Pending a := by
    rintro a h (⟨c, _, hc, hw⟩ | ⟨d, hd, _⟩)
    · rw [← Option.some.inj hc, h] at hw
      exact Bool.false_ne_true hw
    · cases hd
  exact ⟨by decide, ⟨.inl ⟨_, rfl, rfl, by decide +kernel⟩, .inl ⟨_, rfl, rfl, by decide +kernel⟩⟩,
    ⟨hp _ (by decide +kernel), hp _ (by decide +kernel)⟩, .inr ⟨_, List.mem_singleton.mpr rfl, by decide +kernel⟩⟩

/-- FILL at the odd address 0x1001: a half-word at its first byte, and one at its last, meet the pending bytes by one byte. -/
theorem test_witness_BrokenDutyRead_half :
    let s := inFlight ⟨0x05040001, 0x1001, 8, 0, 0⟩
    (¬ s.Pending (0x1000 : Word).toNat ∧ s.Pending ((0x1000 : Word).toNat + 1)) ∧
      (s.Pending (0x1008 : Word).toNat ∧ ¬ s.Pending ((0x1008 : Word).toNat + 1)) ∧
      (0x1000 : Word).toNat % 2 = 0 ∧ (0x1008 : Word).toNat % 2 = 0 := by
  intro s
  have hp : ∀ a : Int, spansHave (InFlight.wf ⟨0x05040001, 0x1001, 8, 0, 0⟩) a = false → ¬ s.Pending a := by
    rintro a h (⟨c, _, hc, hw⟩ | ⟨d, hd, _⟩)
    · rw [← Option.some.inj hc, h] at hw
      exact Bool.false_ne_true hw
    · cases hd
  exact ⟨⟨hp _ (by decide +kernel), .inl ⟨_, rfl, rfl, by decide +kernel⟩⟩,
    ⟨.inl ⟨_, rfl, rfl, by decide +kernel⟩, hp _ (by decide +kernel)⟩, by decide, by decide⟩

/-- A store that touches the command in flight and one whose completion is unread, by one byte and by the second of two. -/
theorem test_witness_BrokenDutyWrite :
    let s := { ready 0x0520007F with duties := [cmdOf 0x0520007F] }
    (s.mem.wf = true ∧ s.status.busy = true ∧ s.cur = some (cmdOf 0x0520007F) ∧ cmdOf 0x0520007F ∈ s.duties) ∧
      (s.memMap.inRegisterBlock (0x1007 : Word).toNat = false ∧ (0x1007 : Word).toNat % 2 = 1 ∧
        spansHave (cmdOf 0x0520007F).footprint (0x1007 : Word).toNat = true) ∧
      (s.memMap.inRegisterBlock (0x103E : Word).toNat = false ∧ s.memMap.inRegisterBlock ((0x103E : Word).toNat + 1) = false ∧
        (0x103E : Word).toNat % 2 = 0) ∧
      (spansHave (InFlight.footprint ⟨0x05040001, 0x1001, 8, 0, 0⟩) (0x1000 : Word).toNat = false ∧
        spansHave (InFlight.footprint ⟨0x05040001, 0x1001, 8, 0, 0⟩) ((0x1000 : Word).toNat + 1) = true) ∧
      (spansHave (cmdOf 0x0520007F).wf (0x1007 : Nat) = true ∧ spansHave (cmdOf 0x0520007F).wf (0x0FFF : Nat) = false) := by
  decide +kernel

theorem test_witness_WaitAction : { ready 0 with host := [HostAction.wait] }.host = .wait :: [] ∧
    { ready 0 with host := [HostAction.wait] }.status.busy = true ∧
    { State.reset with host := [HostAction.wait] }.status.busy = false := by decide

theorem test_witness_FillCompletes : Running (ready 0) (cmdOf 0) ∧ Width.w16 ≠ .w4 ∧
    (1 ≤ (32 : BitVec 6).toNat ∧ (32 : BitVec 6).toNat ≤ 32) ∧ StrideCovers (cmdOf 0).dstride Width.w16.cols ∧
    ∀ a, InBlock (cmdOf 0).dst (cmdOf 0).dstride Width.w16.cols (32 : BitVec 6).toNat a → Accessible (ready 0) a :=
  have h := interpReady_ready 0 .w16 (h := 32) (by decide) (top := 0) (bot := 0) (left := 0) (right := 0)
    (by decide) (by decide) (by decide) (by decide)
  ⟨h.running, by decide, h.height, h.stride, h.dest⟩

theorem test_witness_ClearCompletes : Running (ready 0) (cmdOf 0) ∧ (cmdOf 0).x2.toNat % 2 = 0 ∧
    (∀ a, InBytes (cmdOf 0).aux 32 a → Accessible (ready 0) a) ∧ ∀ a, InBytes (cmdOf 0).aux 768 a → Accessible (ready 0) a := by
  refine ⟨running_ready 0, rfl, ?_, ?_⟩ <;> rintro a ⟨h1, h2⟩ <;> rw [aux_ready] at h1 h2 <;>
    exact accessible_ready 0 (by omega) (by omega)

/-- Every margin the interpolation commands need, at the smallest and the largest block. -/
theorem interpReady_edges {top bot left right : Nat} (h1 : top ≤ 3) (h2 : bot ≤ 3) (h3 : left ≤ 3) (h4 : right ≤ 3) :
    InterpReady (ready 0) (cmdOf 0) .w4 1 top bot left right ∧ InterpReady (ready 0) (cmdOf 0) .w16 32 top bot left right :=
  ⟨interpReady_ready 0 .w4 (by decide) h1 h2 h3 h4, interpReady_ready 0 .w16 (by decide) h1 h2 h3 h4⟩

theorem test_witness_CopyCompletes : InterpReady (ready 0) (cmdOf 0) .w4 1 0 0 0 0 ∧ InterpReady (ready 0) (cmdOf 0) .w16 32 0 0 0 0 :=
  interpReady_edges (by decide) (by decide) (by decide) (by decide)

theorem test_witness_EpelHorizontalCompletes : (1 : BitVec 3) ≠ 0 ∧ (7 : BitVec 3) ≠ 0 ∧
    InterpReady (ready 0) (cmdOf 0) .w16 32 0 0 1 2 ∧ InterpReady (ready 0) (cmdOf 0) .w16 32 0 0 2 3 :=
  ⟨by decide, by decide, (interpReady_edges (by decide) (by decide) (by decide) (by decide)).2,
    (interpReady_edges (by decide) (by decide) (by decide) (by decide)).2⟩

theorem test_witness_EpelVerticalCompletes : (1 : BitVec 3) ≠ 0 ∧ (7 : BitVec 3) ≠ 0 ∧
    InterpReady (ready 0) (cmdOf 0) .w16 32 1 2 0 0 ∧ InterpReady (ready 0) (cmdOf 0) .w16 32 2 3 0 0 :=
  ⟨by decide, by decide, (interpReady_edges (by decide) (by decide) (by decide) (by decide)).2,
    (interpReady_edges (by decide) (by decide) (by decide) (by decide)).2⟩

theorem test_witness_EpelTwoPassCompletes : (1 : BitVec 3) ≠ 0 ∧ (7 : BitVec 3) ≠ 0 ∧
    InterpReady (ready 0) (cmdOf 0) .w16 32 1 2 1 2 ∧ InterpReady (ready 0) (cmdOf 0) .w16 32 2 3 1 2 ∧
    InterpReady (ready 0) (cmdOf 0) .w16 32 1 2 2 3 ∧ InterpReady (ready 0) (cmdOf 0) .w16 32 2 3 2 3 :=
  ⟨by decide, by decide, (interpReady_edges (by decide) (by decide) (by decide) (by decide)).2,
    (interpReady_edges (by decide) (by decide) (by decide) (by decide)).2,
    (interpReady_edges (by decide) (by decide) (by decide) (by decide)).2,
    (interpReady_edges (by decide) (by decide) (by decide) (by decide)).2⟩

theorem test_witness_BilinSinglePassCompletes : InterpReady (ready 0) (cmdOf 0) .w4 1 0 0 0 1 ∧
    InterpReady (ready 0) (cmdOf 0) .w16 32 0 1 0 0 :=
  ⟨(interpReady_edges (by decide) (by decide) (by decide) (by decide)).1,
    (interpReady_edges (by decide) (by decide) (by decide) (by decide)).2⟩

theorem test_witness_BilinTwoPassCompletes : InterpReady (ready 0) (cmdOf 0) .w4 1 0 1 0 1 ∧
    InterpReady (ready 0) (cmdOf 0) .w16 32 0 1 0 1 := interpReady_edges (by decide) (by decide) (by decide) (by decide)

theorem test_witness_IdctAddCompletes : IdctReady (ready 0) (cmdOf 0) (InBytes (cmdOf 0).aux 32) 4 4 :=
  idctReady_ready 0 (inBytes_ready 0 (by decide)) (by decide) (by decide)

theorem test_witness_IdctDcAddCompletes : IdctReady (ready 0) (cmdOf 0) (InBytes (cmdOf 0).aux 2) 4 4 :=
  idctReady_ready 0 (inBytes_ready 0 (by decide)) (by decide) (by decide)

theorem test_witness_IdctDcAddFourCompletes : IdctReady (ready 0) (cmdOf 0) (InFourDc (cmdOf 0)) 16 4 ∧
    IdctReady (ready 0) (cmdOf 0) (InFourDc (cmdOf 0)) 8 8 :=
  ⟨idctReady_ready 0 (inFourDc_ready 0) (by decide) (by decide), idctReady_ready 0 (inFourDc_ready 0) (by decide) (by decide)⟩

theorem test_witness_WhtCompletes : WhtReady (ready 0) (cmdOf 0) 32 := whtReady_ready 0 (by decide)
theorem test_witness_WhtDcCompletes : WhtReady (ready 0) (cmdOf 0) 2 := whtReady_ready 0 (by decide)

theorem test_witness_plane_filters (d : Direction) : PlaneReady (ready 0) (cmdOf 0) d EdgeSpan.n8.positions (cmdOf 0).dst ∧
    PlaneReady (ready 0) (cmdOf 0) d EdgeSpan.n16.positions (cmdOf 0).dst :=
  ⟨planeReady_ready 0 d (by decide) (by rw [dst_ready]; omega), planeReady_ready 0 d (by decide) (by rw [dst_ready]; omega)⟩

theorem test_witness_SimpleFilterCompletes : PlaneReady (ready 0) (cmdOf 0) .v 8 (cmdOf 0).dst ∧
    PlaneReady (ready 0) (cmdOf 0) .h 16 (cmdOf 0).dst := ⟨(test_witness_plane_filters .v).1, (test_witness_plane_filters .h).2⟩
theorem test_witness_InnerFilterCompletes : PlaneReady (ready 0) (cmdOf 0) .v 8 (cmdOf 0).dst ∧
    PlaneReady (ready 0) (cmdOf 0) .h 16 (cmdOf 0).dst := ⟨(test_witness_plane_filters .v).1, (test_witness_plane_filters .h).2⟩
theorem test_witness_MbFilterCompletes : PlaneReady (ready 0) (cmdOf 0) .v 8 (cmdOf 0).dst ∧
    PlaneReady (ready 0) (cmdOf 0) .h 16 (cmdOf 0).dst := ⟨(test_witness_plane_filters .v).1, (test_witness_plane_filters .h).2⟩

theorem test_witness_TwoPlaneFilterCompletes (d : Direction) : PlaneReady (ready 0) (cmdOf 0) d 8 (cmdOf 0).dst ∧
    PlaneReady (ready 0) (cmdOf 0) d 8 (cmdOf 0).aux :=
  ⟨planeReady_ready 0 d (by decide) (by rw [dst_ready]; omega), planeReady_ready 0 d (by decide) (by rw [aux_ready]; omega)⟩

theorem test_witness_ClipsAndKernels : (7 : BitVec 3) ≠ 0 ∧ (0 : Int) ≤ 255 ∧ (255 : Int) ≤ 255 := by decide

theorem test_witness_FilterOfAPosition : (-4 : Int) ≤ -4 ∧ (-4 : Int) ≤ 3 ∧ (3 : Int) ≤ 3 := by decide

/-- A flat octet. -/
def flat (v : Int) : Octet := { p3 := v, p2 := v, p1 := v, p0 := v, q0 := v, q1 := v, q2 := v, q3 := v }

theorem flat_tap (v k : Int) : (flat v).tap k = v := by simp only [Octet.tap, flat, ite_self]

theorem test_witness_FilterGates : ∀ k : Int, -4 ≤ k → k ≤ 3 → 0 ≤ (flat 255).tap k ∧ (flat 255).tap k ≤ 255 :=
  fun k _ _ => by rw [flat_tap]; omega

theorem test_witness_ThresholdCorners :
    (∀ k : Int, -4 ≤ k → k ≤ 3 → 0 ≤ (flat 255).tap k ∧ (flat 255).tap k ≤ 255) ∧
      (∀ k : Int, -4 ≤ k → k ≤ 3 → 0 ≤ (Octet.mk 0 0 0 0 255 255 255 255).tap k ∧ (Octet.mk 0 0 0 0 255 255 255 255).tap k ≤ 255) ∧
      normalGate (flat 0) 0 0 = true ∧ ((0 : Byte) = 0 ∧ (255 : Byte) = 255) := by
  refine ⟨fun k _ _ => by rw [flat_tap]; omega, fun k _ _ => ?_, by decide, by decide⟩
  simp only [Octet.tap]
  split_ifs <;> omega

theorem test_witness_FilterProperties :
    FilterKind.inner ≠ .simple ∧ normalGate (Octet.mk 0 0 0 0 255 255 255 255) 255 255 = false ∧
      simpleGate (Octet.mk 0 0 0 0 255 255 255 255) 255 = false ∧
      ((-4 : Int) < FilterKind.mbEdge.lo ∨ FilterKind.mbEdge.lo + FilterKind.mbEdge.count - 1 < -4) ∧
      (0 < FilterKind.simple.lo ∨ FilterKind.simple.lo + FilterKind.simple.count - 1 < 1) ∧
      normalGate (flat 255) 0 0 = true ∧ ∀ k : Int, -4 ≤ k → k ≤ 3 → (flat 255).tap k = 255 :=
  ⟨by decide, by decide, by decide, by decide, by decide, by decide, fun k _ _ => flat_tap 255 k⟩

theorem test_witness_SpanSixteenIsTwoEights : State.reset.mem.wf = true ∧ StrideCovers 16 16 ∧ StrideCovers (-8) 8 ∧
    (∀ a, InTaps .v 4096 16 16 (-4) 3 a → 0 ≤ a ∧ a < (Config.addrLimit : Int)) ∧
    ∀ a, InTaps .h 4096 (-8) 16 (-4) 3 a → 0 ≤ a ∧ a < (Config.addrLimit : Int) := by
  have : Config.addrLimit = 4294967296 := rfl
  refine ⟨rfl, by simp [StrideCovers], by simp [StrideCovers], ?_, ?_⟩ <;> rintro a ⟨i, k, hi, h1, h2, rfl⟩ <;> simp only [tapAddr] <;> omega

theorem test_witness_ConstantsPreserved : (2 : BitVec 3) ≠ 0 ∧ (7 : BitVec 3) ≠ 0 ∧ (1 : BitVec 3).toNat % 2 = 1 ∧
    (7 : BitVec 3).toNat % 2 = 1 ∧
    (∀ top bot left right : Nat, top ≤ 3 → bot ≤ 3 → left ≤ 3 → right ≤ 3 →
      InterpReady (ready 0) (cmdOf 0) .w4 1 top bot left right ∧ InterpReady (ready 0) (cmdOf 0) .w16 32 top bot left right) ∧
    ∀ b : Nat, (ready 0).mem.read b = 0 :=
  ⟨by decide, by decide, by decide, by decide, fun _ _ _ _ h1 h2 h3 h4 => interpReady_edges h1 h2 h3 h4, fun _ => rfl⟩

theorem test_witness_OddSelectorSixTap : (1 : BitVec 3).toNat % 2 = 1 ∧ (7 : BitVec 3).toNat % 2 = 1 ∧
    InterpReady (ready 0) (cmdOf 0) .w16 32 0 0 2 3 ∧ InterpReady (ready 0) (cmdOf 0) .w16 32 2 3 0 0 ∧
    InterpReady (ready 0) (cmdOf 0) .w16 32 2 3 2 3 :=
  ⟨by decide, by decide, (interpReady_edges (by decide) (by decide) (by decide) (by decide)).2,
    (interpReady_edges (by decide) (by decide) (by decide) (by decide)).2,
    (interpReady_edges (by decide) (by decide) (by decide) (by decide)).2⟩

theorem test_witness_PseudoInstructionChoice : heightLegal 1 = true ∧ heightLegal 32 = true ∧
    ((1 : BitVec 3).toNat % 2 = 1 ∧ (7 : BitVec 3).toNat % 2 = 1) ∧
    ((2 : BitVec 3) ≠ 0 ∧ (2 : BitVec 3).toNat % 2 = 0) ∧ (6 : BitVec 3) ≠ 0 ∧ (6 : BitVec 3).toNat % 2 = 0 := by decide

theorem test_witness_TransformShortcuts : IdctReady (ready 0) (cmdOf 0) (InBytes (cmdOf 0).aux 32) 4 4 ∧
    WhtReady (ready 0) (cmdOf 0) 32 ∧ ZeroBytes (ready 0).mem (cmdOf 0).aux 32 ∧ ZeroBytes (ready 0).mem ((cmdOf 0).aux + 2) 30 :=
  ⟨test_witness_IdctAddCompletes, test_witness_WhtCompletes, fun _ _ => rfl, fun _ _ => rfl⟩

/-- `ready` again, with the memory FILL left. -/
def refilled : State := { ready 0x0520007F with mem := effectOf (.fill .w8 8 0x7F) (cmdOf 0x0520007F) (ready 0x0520007F).mem }

theorem test_witness_SecondRunChangesNothing :
    ∃ m, Running (ready 0x0520007F) (cmdOf 0x0520007F) ∧
      (∀ a, spansHave (planOf (.fill .w8 8 0x7F) (cmdOf 0x0520007F)).rf a = true →
        spansHave (planOf (.fill .w8 8 0x7F) (cmdOf 0x0520007F)).wf a = false) ∧
      exec (.fill .w8 8 0x7F) (ready 0x0520007F) = .next ((ready 0x0520007F).completedWith (cmdOf 0x0520007F) m) ∧
      Running refilled (cmdOf 0x0520007F) ∧ refilled.memMap = (ready 0x0520007F).memMap ∧ refilled.mem = m := by
  refine ⟨_, running_ready _, fun a h => fill_reads_nothing h, completes_ready 0x0520007F (.fill .w8 8 0x7F) (by decide +kernel), ?_, rfl, rfl⟩
  exact ⟨rfl, rfl, effectOf_wf (.fill .w8 8 0x7F) (cmdOf 0x0520007F) (m := (ready 0x0520007F).mem) rfl⟩

end Sys2Proof.Tests
end

section
/-! SUPPORT. The frame of memory and the functions the result statements name: the proofs of MemoryFrame and ClipsAndKernels. -/

namespace Sys2Proof.Machine

/-! ### Memory outside the write footprint -/

/-- Whichever way a command ends, memory becomes the effect's result, is unchanged, or has its write footprint unspecified. -/
theorem exec_mem_cases {i : Instr} {s t : State} {c : InFlight} (hc : s.cur = some c) (h : exec i s = .next t) :
    t.mem = effectOf i c s.mem ∨ t.mem = s.mem ∨ t.mem = s.mem.havoc (spansBytes (planOf i c).wf) s.freeIx := by
  rw [exec_eq_runCommand] at h
  rcases runCommand_cases (f := effectOf i) hc with ⟨k, _, hk⟩ | ⟨_, hk⟩
  all_goals
    rw [hk] at h
    cases h
    cases hb : s.breached <;> simp [hb]

/-- Unspecified bytes put in a footprint leave every byte outside it. -/
theorem havoc_read_outside {m : Memory} (hm : m.wf = true) {l : List Span} {ix a : Nat} (ha : spansHave l a = false) :
    (m.havoc (spansBytes l) ix).read a = m.read a :=
  Memory.havoc_read_other hm fun hin => not_of_spansHave_false ha ((mem_spansBytes l a).mp hin)

/-- Settles O25: each of the three things a command can do to memory keeps the canonical form and the bytes outside. -/
theorem memoryFrame : Obligations.MemoryFrame := by
  intro i s t c hm hc h
  rcases exec_mem_cases hc h with ht | ht | ht <;> rw [ht]
  · exact ⟨effectOf_wf i c hm, fun a ha => effectOf_read_other i c hm ha⟩
  · exact ⟨hm, fun _ _ => rfl⟩
  · exact ⟨Memory.havoc_wf hm _ _, fun a ha => havoc_read_outside hm ha⟩

/-! ### The clips, the kernels and the coefficients -/

theorem clipS8_eq_clipU8 (v : Int) : clipS8 v = clipU8 (v + 128) - 128 := by
  unfold clipS8 clipU8
  split_ifs <;> omega

/-- BIL answers a value between its inputs, the spec's derivation (R176 (d)). -/
theorem bil_between (m : BitVec 3) (v0 v1 : Int) : min v0 v1 ≤ bil m v0 v1 ∧ bil m v0 v1 ≤ max v0 v1 := by
  have hm : m.toNat < 8 := m.isLt
  rw [bil, asr_three]
  generalize m.toNat = k at hm
  interval_cases k <;> push_cast <;> omega

/-- Narrowing keeps the residue modulo 65536 (R128). -/
theorem sext16_emod (v : Int) : sext 16 v % 65536 = v % 65536 := by
  rw [sext16_eq]
  split <;> omega

theorem narrow16_range (v : Int) : -32768 ≤ narrow16 v ∧ narrow16 v ≤ 32767 := sext16_range v

theorem narrow16_emod (v : Int) : narrow16 v % 65536 = v % 65536 := sext16_emod v

/-- A coefficient is congruent to its two bytes, low byte first (R52). -/
theorem cf_emod (m : Memory) (a : Nat) :
    cf m a % 65536 = ((m.read a).toNat + 256 * (m.read (a + 1)).toNat : Nat) := by
  have hlo := (m.read a).isLt
  have hhi := (m.read (a + 1)).isLt
  have ha : ((a : Int) + 1).toNat = a + 1 := by omega
  rw [cf_eq, sext16_emod, px, px, ha, Int.toNat_natCast]
  omega

/-- Settles O50, one clause per function; the kernels, the butterfly and the tap addresses are their definitions' own shifts and
sums. -/
theorem clipsAndKernels : Obligations.ClipsAndKernels := by
  refine ⟨fun v => ⟨rfl, clipS8_eq_clipU8 v, rfl⟩, by decide, fun sel v _ => ⟨rfl, rfl⟩, fun m v0 v1 h0 h0' h1 h1' => ?_,
    fun x => ⟨rfl, rfl⟩, fun i0 i1 i2 i3 => ⟨rfl, rfl, rfl, rfl⟩, fun v => ?_, fun m a => ?_,
    fun c m y x k => ⟨rfl, rfl, rfl, rfl, rfl, rfl, rfl⟩, fun base stride i k => ⟨rfl, rfl⟩⟩
  · obtain ⟨hlo, hhi⟩ := bil_range m ⟨h0, h0'⟩ ⟨h1, h1'⟩
    exact ⟨rfl, hlo, hhi, bil_between m v0 v1⟩
  · exact ⟨(narrow16_range v).1, (narrow16_range v).2, narrow16_emod v⟩
  · exact ⟨(cf_range m a).1, (cf_range m a).2, cf_emod m a⟩

end Sys2Proof.Machine
end

section
/-! SUPPORT. What a command does depends on its read footprint: the stores of two runs are equal, so the write footprints are.
The proof of ResultDependsOnFootprint. -/

namespace Sys2Proof.Machine

/-! ### Memories that agree on a part of a footprint -/

theorem AgreeOn.mono {m m' : Memory} {l k : List Span} (h : AgreeOn m m' l)
    (hk : ∀ a, spansHave k a = true → spansHave l a = true) : AgreeOn m m' k :=
  fun a ha => h a (hk a ha)

/-- Equal stores leave a part equal when each of its bytes was equal before or is stored to. -/
theorem AgreeOn.of_stores {m m' : Memory} (hm : m.wf = true) (hm' : m'.wf = true) {l l' : List Store} {k : List Span}
    (hl : l = l') (hlim : ∀ a, spansHave k a = true → a < (Config.addrLimit : Int))
    (h : ∀ a : Nat, spansHave k a = true → m.read a = m'.read a ∨ ∃ p ∈ l, p.1 = (a : Int)) :
    AgreeOn (m.storeAll l) (m'.storeAll l') k :=
  fun a ha => hl ▸ Memory.storeAll_agree hm hm' l (Int.ofNat_lt.mp (hlim a ha)) (h a ha)

/-- A plan whose checks pass has its footprint inside the address space (R58). -/
theorem Plan.inSpace_of_passes {p : Plan} {stride : Int} {map : MemMap} (h : p.firstFault stride map = none) :
    (∀ a, spansHave p.rf a = true → 0 ≤ a ∧ a < (Config.addrLimit : Int)) ∧
      ∀ a, spansHave p.wf a = true → 0 ≤ a ∧ a < (Config.addrLimit : Int) := by
  obtain ⟨-, -, -, -, -, hin, -⟩ := (Plan.firstFault_none_iff ..).mp h
  exact ⟨fun a ha => hin a (by simp [ha]), fun a ha => hin a (by simp [ha])⟩

/-! ### Which bytes a command's stores reach -/

theorem exists_blockStores {base stride : Int} {w h : Nat} (f : Nat → Nat → Int) {a : Int} (ha : InBlock base stride w h a) :
    ∃ p ∈ blockStores base stride w h f, p.1 = a := by
  obtain ⟨y, x, hy, hx, rfl⟩ := ha
  exact ⟨_, mem_blockStores.mpr ⟨y, x, hy, hx, rfl⟩, rfl⟩

theorem exists_coefStores {a b v : Int} (h : InBytes a 2 b) : ∃ p ∈ coefStores a v, p.1 = b := by
  simp only [InBytes] at h
  obtain rfl | rfl : b = a ∨ b = a + 1 := by omega
  all_goals simp [coefStores_eq]

theorem exists_slotStores {c : InFlight} (f : Nat → Nat → Int) {a : Int} (ha : InSlots c a) :
    ∃ p ∈ slotStores c f, p.1 = a := by
  obtain ⟨k, hk, ha⟩ := ha
  have hslot : slotAddr c (k / 4) (k % 4) = c.dst + 32 * k := by simp only [slotAddr]; omega
  obtain ⟨p, hp, he⟩ := exists_coefStores (v := f (k / 4) (k % 4)) (hslot ▸ ha)
  exact ⟨p, mem_slotStores.mpr ⟨k / 4, by omega, k % 4, by omega, hp⟩, he⟩

/-! ### What a command stores depends on the samples and coefficients it reads -/

theorem scratchRows_congr {lo rows w : Nat} {hp hp' : Int → Int → Int}
    (h : ∀ r x : Nat, r < rows → x < w → hp ((r : Int) - lo) x = hp' ((r : Int) - lo) x) :
    scratchRows lo rows w hp = scratchRows lo rows w hp' :=
  List.map_congr_left fun r hr => List.map_congr_left fun x hx => h r x (List.mem_range.mp hr) (List.mem_range.mp hx)

/-- Two memories hold the same source samples in the window of a command (R143, R175). -/
def SameSource (c : InFlight) (m m' : Memory) (ht vt : TapCount) (w h : Nat) : Prop :=
  ∀ y x : Int, -(vt.lo : Int) ≤ y → y < h + vt.hi → -(ht.lo : Int) ≤ x → x < w + ht.hi → srcPx c m y x = srcPx c m' y x

section interp
variable {c : InFlight} {m m' : Memory} {w h : Nat} {ht vt : TapCount}

theorem copyStores_congr (hs : SameSource c m m' .none .none w h) : copyStores w h c m = copyStores w h c m' :=
  blockStores_congr fun y x _ _ => hs y x (by omega) (by omega) (by omega) (by omega)

theorem hFilter_congr (hs : SameSource c m m' ht vt w h) (mx : BitVec 3) {y : Int} {x : Nat} (h1 : -(vt.lo : Int) ≤ y)
    (h2 : y < h + vt.hi) (hx : x < w) : hFilter ht mx c m y x = hFilter ht mx c m' y x :=
  firPass_congr fun k _ _ => hs y (x + k) h1 h2 (by omega) (by omega)

theorem hStores_congr (hs : SameSource c m m' ht .none w h) (mx : BitVec 3) :
    hStores ht w h mx c m = hStores ht w h mx c m' :=
  blockStores_congr fun y x _ hx => hFilter_congr hs mx (by omega) (by omega) hx

theorem vStores_congr (hs : SameSource c m m' .none vt w h) (my : BitVec 3) :
    vStores vt w h my c m = vStores vt w h my c m' :=
  blockStores_congr fun y x _ _ => firPass_congr fun k _ _ => hs (y + k) x (by omega) (by omega) (by omega) (by omega)

theorem hvStores_congr (hs : SameSource c m m' ht vt w h) (mx my : BitVec 3) :
    hvStores ht vt w h mx my c m = hvStores ht vt w h mx my c m' := by
  have hrows : scratchRows vt.lo (h + vt.lo + vt.hi) w (hFilter ht mx c m) =
      scratchRows vt.lo (h + vt.lo + vt.hi) w (hFilter ht mx c m') :=
    scratchRows_congr fun r x hr hx => hFilter_congr hs mx (by omega) (by omega) hx
  simp only [hvStores, hrows]

theorem bilH_congr (hs : SameSource c m m' .two vt w h) (mx : BitVec 3) {y : Int} {x : Nat} (h1 : -(vt.lo : Int) ≤ y)
    (h2 : y < h + vt.hi) (hx : x < w) : bilH mx c m y x = bilH mx c m' y x := by
  have hhi : TapCount.two.hi = 1 := rfl
  rw [bilH, bilH, hs y x h1 h2 (by omega) (by omega), hs y (x + 1) h1 h2 (by omega) (by omega)]

theorem bilV_congr (hs : SameSource c m m' .none .two w h) (my : BitVec 3) {y x : Nat} (hy : y < h) (hx : x < w) :
    bilV my c m y x = bilV my c m' y x := by
  have hhi : TapCount.two.hi = 1 := rfl
  rw [bilV, bilV, hs y x (by omega) (by omega) (by omega) (by omega),
    hs (y + 1) x (by omega) (by omega) (by omega) (by omega)]

theorem bilinHVStores_congr (hs : SameSource c m m' .two .two w h) (mx my : BitVec 3) :
    bilinHVStores w h mx my c m = bilinHVStores w h mx my c m' := by
  have hhi : TapCount.two.hi = 1 := rfl
  have hrows : scratchRows 0 (h + 1) w (bilH mx c m) = scratchRows 0 (h + 1) w (bilH mx c m') :=
    scratchRows_congr fun r x hr hx => bilH_congr hs mx (by omega) (by omega) hx
  simp only [bilinHVStores, hrows]

end interp

theorem idctResidual_congr {f g : Nat → Int} (h : ∀ j < 16, f j = g j) : idctResidual f = idctResidual g := by
  have htmp : ∀ i < 4, idctTmp f i = idctTmp g i := fun i hi => by
    funext k
    rw [idctTmp, idctTmp, h i (by omega), h (4 + i) (by omega), h (8 + i) (by omega), h (12 + i) (by omega)]
  funext y x
  rw [idctResidual, idctResidual, htmp 0 (by omega), htmp 1 (by omega), htmp 2 (by omega), htmp 3 (by omega)]

theorem whtOut_congr {f g : Nat → Int} (h : ∀ j < 16, f j = g j) : whtOut f = whtOut g := by
  have htmp : ∀ r, ∀ i < 4, whtTmp f r i = whtTmp g r i := fun r i hi => by
    rw [whtTmp, whtTmp, h i (by omega), h (4 + i) (by omega), h (8 + i) (by omega), h (12 + i) (by omega)]
  funext i j
  rw [whtOut, whtOut, htmp i 0 (by omega), htmp i 1 (by omega), htmp i 2 (by omega), htmp i 3 (by omega)]

theorem dcAddStores_congr {m m' : Memory} {base stride ca : Int}
    (hb : ∀ a, InBlock base stride 4 4 a → px m a = px m' a) (hc : cf m ca = cf m' ca) :
    dcAddStores m base stride ca = dcAddStores m' base stride ca := by
  rw [dcAddStores, dcAddStores, hc]
  congr 1
  exact blockStores_congr fun y x hy hx => by rw [hb _ ⟨y, x, hy, hx, rfl⟩]

theorem idctAddStores_congr {c : InFlight} {m m' : Memory} (hb : ∀ a, InBlock c.dst c.dstride 4 4 a → px m a = px m' a)
    (hc : ∀ j < 16, coef c m j = coef c m' j) : idctAddStores c m = idctAddStores c m' := by
  rw [idctAddStores, idctAddStores, idctResidual_congr hc]
  congr 1
  exact blockStores_congr fun y x hy hx => by rw [dstPx, dstPx, hb _ ⟨y, x, hy, hx, rfl⟩]

theorem sameSource_of_agree {c : InFlight} {m m' : Memory} {ht vt : TapCount} {w h : Nat}
    (hag : AgreeOn m m' (sourceSpans ht vt w h c))
    (hrf : ∀ a, spansHave (sourceSpans ht vt w h c) a = true → 0 ≤ a ∧ a < (Config.addrLimit : Int)) :
    SameSource c m m' ht vt w h :=
  fun _ _ h1 h2 h3 h4 => srcPx_agree hag (fun a ha => (hrf a ha).1) h1 h2 h3 h4

theorem cf_agree_of_bytes {m m' : Memory} {l : List Span} (hag : AgreeOn m m' l)
    (hrf : ∀ a, spansHave l a = true → 0 ≤ a ∧ a < (Config.addrLimit : Int)) {a : Int}
    (ha : ∀ b, InBytes a 2 b → spansHave l b = true) : cf m a = cf m' a := by
  have h0 := ha a (by simp only [InBytes]; omega)
  exact cf_agree hag (hrf a h0).1 h0 (ha (a + 1) (by simp only [InBytes]; omega))

/-! ### The forms: what two runs leave in the write footprint -/

section forms
variable {m m' : Memory} (hm : m.wf = true) (hm' : m'.wf = true) {c : InFlight}
include hm hm'

/-- The commands that store one block, every sample of it: FILL and the interpolation commands. -/
theorem block_agree {base stride : Int} {w h : Nat} {f g : Nat → Nat → Int}
    (hs : blockStores base stride w h f = blockStores base stride w h g)
    (hlim : ∀ a, spansHave (rectSpans base stride 0 h 0 w) a = true → 0 ≤ a ∧ a < (Config.addrLimit : Int)) :
    AgreeOn (m.storeAll (blockStores base stride w h f)) (m'.storeAll (blockStores base stride w h g))
      (rectSpans base stride 0 h 0 w) :=
  .of_stores hm hm' hs (fun a ha => (hlim a ha).2) fun _ ha => .inr (exists_blockStores f ((spansHave_block ..).mp ha))

/-- The commands that zero `2 * n` bytes at AUX: CLR1 and CLR24. -/
theorem clear_agree {n : Nat}
    (hlim : ∀ a, spansHave (clearPlan (2 * n) c).wf a = true → 0 ≤ a ∧ a < (Config.addrLimit : Int)) :
    AgreeOn (m.storeAll (clearStores n c)) (m'.storeAll (clearStores n c)) (clearPlan (2 * n) c).wf :=
  .of_stores hm hm' rfl (fun a ha => (hlim a ha).2) fun _ ha =>
    .inr ⟨_, mem_zeroStores ((spansHave_bytes ..).mp ha), rfl⟩

/-- The IDCT commands read all they write, so equal stores suffice. -/
theorem stores_agree {l l' : List Store} {k : List Span} (hag : AgreeOn m m' k) (hl : l = l')
    (hlim : ∀ a, spansHave k a = true → 0 ≤ a ∧ a < (Config.addrLimit : Int)) :
    AgreeOn (m.storeAll l) (m'.storeAll l') k :=
  .of_stores hm hm' hl (fun a ha => (hlim a ha).2) fun a ha => .inl (hag a ha)

/-- The DC commands over several sub-blocks: each reads the block and the coefficient it writes (R187, R188). -/
theorem dcAdds_agree {k : List Span} {n : Nat} {base ca : Nat → Int} {stride : Int} (hag : AgreeOn m m' k)
    (hlim : ∀ a, spansHave k a = true → 0 ≤ a ∧ a < (Config.addrLimit : Int))
    (hb : ∀ j < n, ∀ a, InBlock (base j) stride 4 4 a → spansHave k a = true)
    (hc : ∀ j < n, ∀ a, InBytes (ca j) 2 a → spansHave k a = true) :
    AgreeOn (m.storeAll ((List.range n).flatMap fun (j : Nat) => dcAddStores m (base j) stride (ca j)))
      (m'.storeAll ((List.range n).flatMap fun (j : Nat) => dcAddStores m' (base j) stride (ca j))) k := by
  refine stores_agree hm hm' hag (List.flatMap_congr fun j hj => ?_) hlim
  have hj := List.mem_range.mp hj
  exact dcAddStores_congr (fun a ha => px_agree hag (hlim a (hb j hj a ha)).1 (hb j hj a ha))
    (cf_agree_of_bytes hag hlim (hc j hj))

/-- WHT and WHT_DC: the bytes of `dc` agreed before, and every slot is stored to. -/
theorem wht_agree {n : Nat} {l l' k : List Store} {f : Nat → Nat → Int} (hk : l = slotStores c f ++ k) (hl : l = l')
    (hag : AgreeOn m m' (whtPlan n c).rf)
    (hlim : ∀ a, spansHave (whtPlan n c).wf a = true → 0 ≤ a ∧ a < (Config.addrLimit : Int)) :
    AgreeOn (m.storeAll l) (m'.storeAll l') (whtPlan n c).wf := by
  refine .of_stores hm hm' hl (fun a ha => (hlim a ha).2) fun a ha => ?_
  rw [whtPlan, spansHave_cons, Bool.or_eq_true] at ha
  rcases ha with ha | ha
  · exact .inl (hag a (by simpa [whtPlan] using ha))
  · obtain ⟨p, hp, he⟩ := exists_slotStores f ((spansHave_slots ..).mp ha)
    exact .inr ⟨p, by rw [hk]; exact List.mem_append_left _ hp, he⟩

/-- One filtered plane keeps two memories equal on any set that holds its taps. -/
theorem plane_agree {l : List Span} {kind : FilterKind} {th : Thresholds} {d : Direction} {n : Nat} {base stride : Int}
    (hag : AgreeOn m m' l) (hlim : ∀ a, spansHave l a = true → 0 ≤ a ∧ a < (Config.addrLimit : Int))
    (htaps : ∀ a, InTaps d base stride n (-4) 3 a → spansHave l a = true) :
    AgreeOn (filterPlane kind th d n base stride m) (filterPlane kind th d n base stride m') l := fun a ha =>
  filterPlane_agree hm hm' (Int.ofNat_lt.mp (hlim a ha).2) (fun b hb => hag b (htaps b hb))
    (fun b hb => (hlim b (htaps b hb)).1) (hag a ha)

end forms

theorem spansHave_planes {pair : Bool} {c : InFlight} {d : Direction} {n cnt : Nat} {klo a : Int} :
    spansHave ((planeBases pair c).flatMap fun b => tapSpans d n b c.dstride klo cnt) a = true ↔
      ∃ b ∈ planeBases pair c, InTaps d b c.dstride n klo (klo + cnt - 1) a := by
  simp only [← spansHave_taps, spansHave_iff, List.mem_flatMap]
  constructor
  · rintro ⟨sp, ⟨b, hb, hsp⟩, ha⟩; exact ⟨b, hb, sp, hsp, ha⟩
  · rintro ⟨b, hb, sp, hsp, ha⟩; exact ⟨sp, ⟨b, hb, hsp⟩, ha⟩

/-- A loop filter reads every tap it can write (R211). -/
theorem filterPlan_wf_le_rf {legal pair : Bool} {kind : FilterKind} {d : Direction} {n : Nat} {c : InFlight} {a : Int}
    (ha : spansHave (filterPlan legal kind d n pair c).wf a = true) :
    spansHave (filterPlan legal kind d n pair c).rf a = true := by
  obtain ⟨b, hb, i, k, hi, h1, h2, he⟩ := spansHave_planes.mp ha
  refine spansHave_planes.mpr ⟨b, hb, i, k, hi, ?_, ?_, he⟩ <;>
    cases kind <;> simp only [FilterKind.lo, FilterKind.count] at h1 h2 <;> omega

theorem filterPlanes_agree {m m' : Memory} (hm : m.wf = true) (hm' : m'.wf = true) {legal pair : Bool} {kind : FilterKind}
    {th : Thresholds} {d : Direction} {n : Nat} {c : InFlight} (hag : AgreeOn m m' (filterPlan legal kind d n pair c).rf)
    (hrf : ∀ a, spansHave (filterPlan legal kind d n pair c).rf a = true → 0 ≤ a ∧ a < (Config.addrLimit : Int)) :
    AgreeOn (filterPlanes kind th d n pair c m) (filterPlanes kind th d n pair c m') (filterPlan legal kind d n pair c).wf := by
  have htaps : ∀ b ∈ planeBases pair c, ∀ a, InTaps d b c.dstride n (-4) 3 a →
      spansHave (filterPlan legal kind d n pair c).rf a = true := fun b hb a ha => spansHave_planes.mpr ⟨b, hb, ha⟩
  refine AgreeOn.mono ?_ fun a ha => filterPlan_wf_le_rf ha
  cases pair with
  | false => exact plane_agree hm hm' hag hrf (htaps _ (by simp [planeBases]))
  | true =>
    exact plane_agree (filterPlane_wf hm) (filterPlane_wf hm')
      (plane_agree hm hm' hag hrf (htaps _ (by simp [planeBases]))) hrf (htaps _ (by simp [planeBases]))

theorem spansHave_idct_rf {coefs : List Span} {w h : Nat} {c : InFlight} {a : Int} :
    spansHave (idctPlan coefs w h c).rf a = true ↔ spansHave coefs a = true ∨ InBlock c.dst c.dstride w h a := by
  rw [idctPlan, spansHave_append, Bool.or_eq_true, spansHave_block]

/-! ### Every command -/

/-- A command whose checks pass leaves the same bytes in its write footprint from two memories that agree on its read
footprint (R9, R43). -/
theorem effectOf_agree (i : Instr) {c : InFlight} {m m' : Memory} (hm : m.wf = true) (hm' : m'.wf = true) {stride : Int}
    {map : MemMap} (hpass : (planOf i c).firstFault stride map = none) (hag : AgreeOn m m' (planOf i c).rf) :
    AgreeOn (effectOf i c m) (effectOf i c m') (planOf i c).wf := by
  obtain ⟨hrf, hwf⟩ := Plan.inSpace_of_passes hpass
  have hpx : ∀ a, spansHave (planOf i c).rf a = true → px m a = px m' a := fun a ha => px_agree hag (hrf a ha).1 ha
  have hcf : ∀ a, (∀ b, InBytes a 2 b → spansHave (planOf i c).rf b = true) → cf m a = cf m' a :=
    fun a => cf_agree_of_bytes hag hrf
  cases i with
  | fill => exact block_agree hm hm' rfl hwf
  | clr1 | clr24 => exact clear_agree hm hm' hwf
  | copy => exact block_agree hm hm' (copyStores_congr (sameSource_of_agree hag hrf)) hwf
  | epelH4 | epelH6 => exact block_agree hm hm' (hStores_congr (sameSource_of_agree hag hrf) _) hwf
  | epelV4 | epelV6 => exact block_agree hm hm' (vStores_congr (sameSource_of_agree hag hrf) _) hwf
  | epelH4V4 | epelH4V6 | epelH6V4 | epelH6V6 =>
    exact block_agree hm hm' (hvStores_congr (sameSource_of_agree hag hrf) _ _) hwf
  | bilinV =>
    exact block_agree hm hm' (blockStores_congr fun _ _ => bilV_congr (sameSource_of_agree hag hrf) _) hwf
  | bilinH =>
    have hs := sameSource_of_agree hag hrf
    exact block_agree hm hm' (blockStores_congr fun y x _ hx => bilH_congr hs _ (by omega) (by omega) hx) hwf
  | bilinHV => exact block_agree hm hm' (bilinHVStores_congr (sameSource_of_agree hag hrf) _ _) hwf
  | idctAdd =>
    refine stores_agree hm hm' hag (idctAddStores_congr (fun a ha => hpx a ?_) fun j hj => hcf _ fun b hb => ?_) hwf
    · exact spansHave_idct_rf.mpr (.inr ha)
    · exact spansHave_idct_rf.mpr (.inl ((spansHave_bytes ..).mpr (by simp only [InBytes] at hb ⊢; omega)))
  | idctDcAdd =>
    refine stores_agree hm hm' hag (dcAddStores_congr (fun a ha => hpx a ?_) (hcf _ fun b hb => ?_)) hwf
    · exact spansHave_idct_rf.mpr (.inr ha)
    · exact spansHave_idct_rf.mpr (.inl ((spansHave_bytes ..).mpr hb))
  | idctDcAdd4y =>
    exact dcAdds_agree hm hm' hag hrf (fun k hk a ha => spansHave_idct_rf.mpr (.inr (inBlock_4y hk ha)))
      fun k hk a ha => spansHave_idct_rf.mpr (.inl ((spansHave_fourDc ..).mpr ⟨k, hk, ha⟩))
  | idctDcAdd4uv =>
    exact dcAdds_agree hm hm' hag hrf (fun k hk a ha => spansHave_idct_rf.mpr (.inr (inBlock_4uv hk ha)))
      fun k hk a ha => spansHave_idct_rf.mpr (.inl ((spansHave_fourDc ..).mpr ⟨k, hk, ha⟩))
  | wht =>
    have hc : ∀ j < 16, coef c m j = coef c m' j := fun j hj => hcf _ fun b hb =>
      (spansHave_bytes ..).mpr (by simp only [InBytes] at hb ⊢; omega)
    exact wht_agree hm hm' rfl (by rw [whtStores, whtStores, whtOut_congr hc]) hag hwf
  | whtDc =>
    have hc : coef c m 0 = coef c m' 0 := hcf _ fun b hb =>
      (spansHave_bytes ..).mpr (by simpa only [InBytes, Nat.cast_zero, mul_zero, add_zero] using hb)
    exact wht_agree hm hm' rfl (by rw [whtDcStores, whtDcStores, hc]) hag hwf
  | lfsV | lfsH | lfiV | lfiH | lfmV | lfmH => exact filterPlanes_agree hm hm' hag hrf

/-- Settles O28: the checks look at the record and MEM_VALID alone, so both runs take the same fault or both complete; then
`effectOf_agree` compares what they leave. -/
theorem resultDependsOnFootprint : Obligations.ResultDependsOnFootprint := by
  intro i s s' t t' c hr hr' hmap hag ht ht'
  have ⟨_, _, hm⟩ := hr
  have ⟨_, _, hm'⟩ := hr'
  rw [exec_eq_runCommand] at ht ht'
  cases hk : (planOf i c).firstFault c.dstride s.memMap with
  | some k =>
    rw [runCommand_faults hr hk] at ht
    rw [runCommand_faults hr' (hmap ▸ hk)] at ht'
    cases ht; cases ht'
    exact .inl ⟨k, rfl, rfl⟩
  | none =>
    rw [runCommand_completes hr hk] at ht
    rw [runCommand_completes hr' (hmap ▸ hk)] at ht'
    cases ht; cases ht'
    exact .inr ⟨_, _, rfl, rfl, effectOf_agree i hm hm' hk hag⟩

end Sys2Proof.Machine
end

section
/-! SUPPORT. What one step can do, said once: the engine retires the command in flight, the host keeps the engine's record but for
its writes of CMD, STATUS and a soft reset, and the reset input resets. The statements about every step follow from it. -/

namespace Sys2Proof.Machine

/-! ### The engine's step (R44) -/

/-- `t` is `s` after command `c` completed, with a fault or without; the memory of a normal completion stays canonical. -/
def State.Retires (s : State) (c : InFlight) (t : State) : Prop :=
  (∃ wf k, t = s.takeFault c wf k) ∨ ∃ wf m, t = s.finish c wf m ∧ (s.mem.wf = true → m.wf = true)

/-- With a command in flight every meaning retires it. -/
theorem exec_retires (i : Instr) {s : State} {c : InFlight} (hc : s.cur = some c) :
    ∃ t, exec i s = .next t ∧ s.Retires c t := by
  rw [exec_eq_runCommand]
  rcases runCommand_cases (f := effectOf i) hc with ⟨k, -, hk⟩ | ⟨-, hk⟩
  · exact ⟨_, hk, .inl ⟨_, k, rfl⟩⟩
  · exact ⟨_, hk, .inr ⟨_, _, rfl, effectOf_wf i c⟩⟩

/-- With a command in flight the engine's step retires it, whether its word decodes or not. -/
theorem engineStep_retires {s : State} {c : InFlight} (hc : s.cur = some c) :
    ∃ t, engineStep s = .next t ∧ s.Retires c t := by
  simp only [engineStep, hc]
  cases decode c.word with
  | ok i => exact exec_retires i hc
  | error r => exact ⟨_, rfl, .inl ⟨[], .illegalCmd, rfl⟩⟩

/-- What a meaning answers is the state with the command in flight retired. -/
theorem exec_next {i : Instr} {s t : State} (h : exec i s = .next t) : ∃ c, s.cur = some c ∧ s.Retires c t := by
  obtain ⟨c, hc⟩ := runCommand_next_cur (exec_eq_runCommand i s ▸ h)
  obtain ⟨u, hu, hr⟩ := exec_retires i hc
  cases hu.symm.trans h
  exact ⟨c, hc, hr⟩

/-- What the engine's turn answers: the same state when BUSY = 0, else the command in flight retired. -/
theorem engineTurn_next {s t : State} (h : engineTurn s = .next t) :
    t = s ∨ s.status.busy = true ∧ ∃ c, s.cur = some c ∧ s.Retires c t := by
  rw [engineTurn] at h
  split at h
  · rename_i hb
    cases hc : s.cur with
    | none => simp [engineStep, hc] at h
    | some c =>
      obtain ⟨u, hu, hr⟩ := engineStep_retires hc
      cases hu.symm.trans h
      exact .inr ⟨hb, c, rfl, hr⟩
  · cases h
    exact .inl rfl

/-- What a completion leaves unchanged, whichever way the command ends (R37, R23). -/
theorem State.Retires.frame {s t : State} {c : InFlight} (h : s.Retires c t) :
    t.x0 = s.x0 ∧ t.x1 = s.x1 ∧ t.x2 = s.x2 ∧ t.x3 = s.x3 ∧ t.cmd = s.cmd ∧ t.ctrl = s.ctrl ∧ t.host = s.host ∧
      t.memMap = s.memMap ∧ t.turns = s.turns ∧ t.hostReads = s.hostReads ∧ t.status.ovr = s.status.ovr := by
  obtain ⟨wf, k, rfl⟩ | ⟨wf, m, rfl, -⟩ := h <;> simp

/-- What a completion ends: BUSY and the record in flight. -/
theorem State.Retires.idle {s t : State} {c : InFlight} (h : s.Retires c t) : t.status.busy = false ∧ t.cur = none := by
  obtain ⟨wf, k, rfl⟩ | ⟨wf, m, rfl, -⟩ := h <;> simp

/-- What a completion records: DONE alone, or ERR with its cause and ERRINFO (R44, R232). -/
theorem State.Retires.outcome {s t : State} {c : InFlight} (h : s.Retires c t) :
    (t.status.done = true ∧ t.status.err = s.status.err ∧ t.status.cause = s.status.cause ∧ t.errinfo = s.errinfo) ∨
      (t.status.done = s.status.done ∧ t.status.err = true ∧ t.status.cause.isSome = true ∧ t.errinfo = c.word) := by
  obtain ⟨wf, k, rfl⟩ | ⟨wf, m, rfl, -⟩ := h
  · exact .inr (by simp)
  · exact .inl (by simp)

/-- A completion keeps memory canonical and clears the breach. -/
theorem State.Retires.memory {s t : State} {c : InFlight} (h : s.Retires c t) (hm : s.mem.wf = true) :
    t.mem.wf = true ∧ t.breached = false := by
  obtain ⟨wf, k, rfl⟩ | ⟨wf, m, rfl, hw⟩ := h
  · refine ⟨?_, s.takeFault_breached c wf k⟩
    rw [State.takeFault_mem]
    split
    · exact Memory.havoc_wf hm _ _
    · exact hm
  · refine ⟨?_, s.finish_breached c wf m⟩
    rw [State.finish_mem]
    split
    · exact Memory.havoc_wf hm _ _
    · exact hw hm

/-! ### The host's step (R41) -/

/-- `t` has the engine's record of `s`: STATUS, `cur`, CMD, ERRINFO and MEM_VALID; memory stays canonical, and a breach of the
footprint duty is new only while BUSY = 1 (R266). -/
structure KeepsEngine (s t : State) : Prop where
  status : t.status = s.status
  cur : t.cur = s.cur
  cmd : t.cmd = s.cmd
  errinfo : t.errinfo = s.errinfo
  memMap : t.memMap = s.memMap
  mem_wf : s.mem.wf = true → t.mem.wf = true
  breached : t.breached = true → s.breached = true ∨ s.status.busy = true

theorem KeepsEngine.trans {s t u : State} (h : KeepsEngine s t) (k : KeepsEngine t u) : KeepsEngine s u where
  status := k.status.trans h.status
  cur := k.cur.trans h.cur
  cmd := k.cmd.trans h.cmd
  errinfo := k.errinfo.trans h.errinfo
  memMap := k.memMap.trans h.memMap
  mem_wf hm := k.mem_wf (h.mem_wf hm)
  breached hb := (k.breached hb).elim h.breached fun hb => .inr (h.status ▸ hb)

/-- The fields that are not the engine's: X0 to X3, CTRL, the host's own and the turns. -/
theorem keepsEngine_fields (s : State) (a0 a1 a2 a3 : Word) (k : Ctrl) (hs : List HostAction) (ts : List Turn)
    (r : List Word) (d : List InFlight) (n : Nat) :
    KeepsEngine s { s with x0 := a0, x1 := a1, x2 := a2, x3 := a3, ctrl := k, host := hs, turns := ts, hostReads := r,
                           duties := d, freeIx := n } :=
  ⟨rfl, rfl, rfl, rfl, rfl, id, .inl⟩

/-- A byte of the footprint of the command in flight is stored to only while BUSY = 1 (R266). -/
theorem State.busy_of_inFlightFootprint {s : State} {a : Int} (h : s.inFlightFootprint a = true) : s.status.busy = true :=
  (Bool.and_eq_true_iff.mp h).1

theorem State.keepsEngine_storeByte (s : State) (a : Int) (v : Byte) : KeepsEngine s (s.storeByte a v) where
  status := s.storeByte_status a v
  cur := s.storeByte_cur a v
  cmd := s.storeByte_cmd a v
  errinfo := s.storeByte_errinfo a v
  memMap := s.storeByte_memMap a v
  mem_wf hm := State.storeByte_wf hm a v
  breached hb := by
    rw [State.storeByte_breached, Bool.or_eq_true] at hb
    exact hb.imp_right State.busy_of_inFlightFootprint

/-- Everything a register write can do to the engine's record: CMD, STATUS and CTRL with SRST are the only ones that touch it. -/
theorem State.writeReg_cases (s : State) (r : HostReg) (v : Word) :
    KeepsEngine s (s.writeReg r v) ∨ s.writeReg r v = s.writeCmd v ∨
      s.writeReg r v = { s with status := s.status.written v } ∨
      (r = .ctrl ∧ softResetBit v = true ∧ s.writeReg r v = s.resetEngine) := by
  cases r with
  | cmd => exact .inr (.inl rfl)
  | status => exact .inr (.inr (.inl rfl))
  | ctrl =>
    cases hv : softResetBit v with
    | true => exact .inr (.inr (.inr ⟨rfl, rfl, if_pos hv⟩))
    | false =>
      refine .inl ?_
      rw [State.writeReg, if_neg (Bool.eq_false_iff.mp hv)]
      exact keepsEngine_fields s ..
  | errinfo | x0 | x1 | x2 | x3 => exact .inl (keepsEngine_fields s ..)

/-- Everything a host step can do: it keeps the engine's record, and then may write CMD, write STATUS or ask for the reset. -/
theorem hostStep_cases {s t : State} (h : hostStep s = .next t) :
    ∃ u, KeepsEngine s u ∧ (t = u ∨ (∃ w, t = u.writeCmd w) ∨ (∃ v, t = { u with status := u.status.written v }) ∨
      (t = u.resetEngine ∧ s.hostAsksReset = true)) := by
  cases hh : s.host with
  | nil =>
    simp only [hostStep, hh] at h
    cases h
    exact ⟨s, keepsEngine_fields s .., .inl rfl⟩
  | cons act rest =>
    simp only [hostStep, hh] at h
    have hu : KeepsEngine s { s with host := rest } := keepsEngine_fields s ..
    rcases hostAction_cases h with ⟨r, v, rfl, hact⟩ | ⟨a, v, rfl⟩ | ⟨a, b, v, w, rfl⟩ | ⟨r, d, n, rfl⟩ | rfl
    · rcases State.writeReg_cases { s with host := rest } r v with hk | hw | hw | ⟨rfl, hv, hw⟩
      · exact ⟨_, hu.trans hk, .inl rfl⟩
      · exact ⟨_, hu, .inr (.inl ⟨v, hw⟩)⟩
      · exact ⟨_, hu, .inr (.inr (.inl ⟨v, hw⟩))⟩
      · refine ⟨_, hu, .inr (.inr (.inr ⟨hw, ?_⟩))⟩
        rcases hact with rfl | ⟨o, ho, rfl⟩ <;> simp [State.hostAsksReset, HostAction.asksReset, *]
    · exact ⟨_, hu.trans (State.keepsEngine_storeByte ..), .inl rfl⟩
    · exact ⟨_, (hu.trans (State.keepsEngine_storeByte ..)).trans (State.keepsEngine_storeByte ..), .inl rfl⟩
    · exact ⟨_, keepsEngine_fields s .., .inl rfl⟩
    · exact ⟨_, keepsEngine_fields t .., .inl rfl⟩

/-! ### A write to CMD (R26) -/

/-- A write to CMD is accepted when BUSY = 0 and ERR = 0 (R26). -/
theorem State.writeCmd_accepted {s : State} (hb : s.status.busy = false) (he : s.status.err = false) (w : Word) :
    s.writeCmd w = s.accept w := by
  simp [State.writeCmd, hb, he]

/-- A write to CMD with BUSY = 1 or ERR = 1 is dropped and sets OVR (R26). -/
theorem State.writeCmd_dropped {s : State} (h : s.status.busy = true ∨ s.status.err = true) (w : Word) :
    s.writeCmd w = { s with status := { s.status with ovr := true } } := by
  rw [State.writeCmd, if_pos (by simpa using h)]

/-! ### Every step (R41) -/

/-- Who moved in a step: the engine, the host, or the reset input; only the last two can reset. -/
theorem step_cases {s t : State} (h : step s = .next t) :
    ∃ ts, engineTurn { s with turns := ts } = .next t ∨
      (hostStep { s with turns := ts } = .next t ∧ s.resetNext = s.hostAsksReset) ∨
      (t = State.resetEngine { s with turns := ts } ∧ s.resetNext = true) := by
  cases hs : s.turns with
  | nil =>
    have he : { s with turns := [] } = s := hs ▸ rfl
    refine ⟨[], ?_⟩
    rw [he]
    simp only [step, hs] at h
    cases hb : s.status.busy with
    | true => exact .inl (by simpa [engineTurn, hb] using h)
    | false => exact .inr (.inl ⟨by simpa [hb] using h, by simp [State.resetNext, hs, hb]⟩)
  | cons turn ts =>
    refine ⟨ts, ?_⟩
    simp only [step, hs] at h
    cases turn with
    | engine => exact .inl h
    | host => exact .inr (.inl ⟨h, by simp [State.resetNext, hs]⟩)
    | hardReset =>
      cases h
      exact .inr (.inr ⟨rfl, by simp [State.resetNext, hs]⟩)

/-! ### The invariant of a run -/

/-- A command in flight has neither DONE nor ERR, and CMD shows its word. -/
theorem State.Inv.inFlight {s : State} (hi : s.Inv) {c : InFlight} (hc : s.cur = some c) :
    s.status.busy = true ∧ s.status.done = false ∧ s.status.err = false ∧ s.cmd = c.word := by
  have hb : s.status.busy = true := by rw [hi.busy_iff, hc]; rfl
  exact ⟨hb, Bool.eq_false_iff.mpr fun hd => hi.busy_done ⟨hb, hd⟩, Bool.eq_false_iff.mpr fun he => hi.busy_err ⟨hb, he⟩,
    hi.cmd_shows c hc⟩

theorem KeepsEngine.inv {s t : State} (h : KeepsEngine s t) (hi : s.Inv) : t.Inv where
  mem_wf := h.mem_wf hi.mem_wf
  busy_iff := by rw [h.status, h.cur, hi.busy_iff]
  cmd_shows := by rw [h.cur, h.cmd]; exact hi.cmd_shows
  busy_done := by rw [h.status]; exact hi.busy_done
  busy_err := by rw [h.status]; exact hi.busy_err
  done_err := by rw [h.status]; exact hi.done_err
  cause_iff := by rw [h.status]; exact hi.cause_iff
  errinfo_zero := by rw [h.status, h.errinfo]; exact hi.errinfo_zero
  errinfo_cmd := by rw [h.status, h.errinfo, h.cmd]; exact hi.errinfo_cmd
  breach_busy hb := by rw [h.status]; exact (h.breached hb).elim hi.breach_busy id

theorem State.Retires.inv {s t : State} {c : InFlight} (h : s.Retires c t) (hc : s.cur = some c) (hi : s.Inv) : t.Inv := by
  obtain ⟨-, hd, he, hw⟩ := hi.inFlight hc
  obtain ⟨hbusy, hcur⟩ := h.idle
  obtain ⟨hm, hbr⟩ := h.memory hi.mem_wf
  obtain ⟨-, -, -, -, hcmd, -⟩ := h.frame
  have hcause := hi.cause_iff
  have hzero := hi.errinfo_zero he
  rcases h.outcome with ⟨hdone, herr, hcs, hinfo⟩ | ⟨hdone, herr, hcs, hinfo⟩ <;> constructor <;> simp_all

theorem State.Inv.dropped {s : State} (hi : s.Inv) : State.Inv { s with status := { s.status with ovr := true } } :=
  ⟨hi.mem_wf, hi.busy_iff, hi.cmd_shows, hi.busy_done, hi.busy_err, hi.done_err, hi.cause_iff, hi.errinfo_zero,
    hi.errinfo_cmd, hi.breach_busy⟩

theorem State.Inv.accept {s : State} (hi : s.Inv) (he : s.status.err = false) (w : Word) : (s.accept w).Inv where
  mem_wf := hi.mem_wf
  busy_iff := rfl
  cmd_shows := by rintro c ⟨⟩; rfl
  busy_done := by simp
  busy_err := by simp [he]
  done_err := by simp
  cause_iff := hi.cause_iff
  errinfo_zero := hi.errinfo_zero
  errinfo_cmd := by simp [he]
  breach_busy := by simp

theorem State.Inv.writeCmd {s : State} (hi : s.Inv) (w : Word) : (s.writeCmd w).Inv := by
  by_cases h : s.status.busy = true ∨ s.status.err = true
  · rw [State.writeCmd_dropped h]
    exact hi.dropped
  · obtain ⟨hb, he⟩ : s.status.busy = false ∧ s.status.err = false := by simpa using h
    rw [State.writeCmd_accepted hb he]
    exact hi.accept he w

/-- A write to STATUS only clears DONE and OVR (R29). -/
theorem State.Inv.writeStatus {s : State} (hi : s.Inv) (v : Word) : State.Inv { s with status := s.status.written v } where
  mem_wf := hi.mem_wf
  busy_iff := hi.busy_iff
  cmd_shows := hi.cmd_shows
  busy_done := fun ⟨hb, hd⟩ => hi.busy_done ⟨hb, (Bool.and_eq_true_iff.mp hd).1⟩
  busy_err := hi.busy_err
  done_err := fun ⟨hd, he⟩ => hi.done_err ⟨(Bool.and_eq_true_iff.mp hd).1, he⟩
  cause_iff := hi.cause_iff
  errinfo_zero := hi.errinfo_zero
  errinfo_cmd := hi.errinfo_cmd
  breach_busy := hi.breach_busy

theorem State.inv_resetEngine {s : State} (hm : s.mem.wf = true) : s.resetEngine.Inv where
  mem_wf := Memory.havoc_wf hm _ _
  busy_iff := rfl
  cmd_shows := by simp
  busy_done := by simp [Status.reset]
  busy_err := by simp [Status.reset]
  done_err := by simp [Status.reset]
  cause_iff := rfl
  errinfo_zero := fun _ => rfl
  errinfo_cmd := fun _ => rfl
  breach_busy := by simp

/-- Settles O26, along the branches of a step: the engine's completion, the host's record-keeping, its writes of CMD and STATUS,
and the reset each keep the invariant. -/
theorem invariantKept : Obligations.InvariantKept := by
  intro s t hi h
  obtain ⟨ts, h⟩ := step_cases h
  have hturn : State.Inv { s with turns := ts } := (keepsEngine_fields s ..).inv hi
  rcases h with h | ⟨h, -⟩ | ⟨rfl, -⟩
  · rcases engineTurn_next h with rfl | ⟨-, c, hc, hr⟩
    · exact hturn
    · exact hr.inv hc hturn
  · obtain ⟨u, hk, ht⟩ := hostStep_cases h
    have hu := hk.inv hturn
    rcases ht with rfl | ⟨w, rfl⟩ | ⟨v, rfl⟩ | ⟨rfl, -⟩
    · exact hu
    · exact hu.writeCmd w
    · exact hu.writeStatus v
    · exact State.inv_resetEngine hu.mem_wf
  · exact State.inv_resetEngine hturn.mem_wf

/-- Settles O27: the reset state is what a reset makes of itself. -/
theorem invariantAtReset : Obligations.InvariantAtReset := by
  have hfix : State.reset.resetEngine = State.reset := rfl
  show State.reset.Inv
  rw [← hfix]
  exact State.inv_resetEngine rfl

/-! ### Completion, latching and frames -/

/-- Settles O11: a command in flight is retired, which ends it; under the invariant it had neither DONE nor ERR, and retiring
sets one of them. -/
theorem commandsAlwaysComplete : Obligations.CommandsAlwaysComplete := by
  refine ⟨fun s i hc => ?_, fun s hi hb => ?_⟩
  · obtain ⟨c, hc⟩ := Option.isSome_iff_exists.mp hc
    obtain ⟨t, ht, hr⟩ := exec_retires i hc
    exact ⟨t, ht, hr.idle.2, hr.idle.1⟩
  · obtain ⟨c, hc⟩ := Option.isSome_iff_exists.mp (hi.busy_iff ▸ hb)
    obtain ⟨t, ht, hr⟩ := engineStep_retires hc
    obtain ⟨-, hd, he, -⟩ := hi.inFlight hc
    refine ⟨t, by rw [engineTurn, if_pos hb, ht], hr.idle.1, hr.idle.2, ?_⟩
    rcases hr.outcome with ⟨hdone, herr, -⟩ | ⟨hdone, herr, -⟩
    · rw [hdone, herr, he]; rfl
    · rw [hdone, herr, hd]; rfl

/-- The frame of every command looks at no operand register (R27). -/
theorem runCommand_operands (i : Instr) (f : InFlight → Memory → Memory) {s t : State} (h : runCommand i f s = .next t)
    (a0 a1 a2 a3 : Word) :
    runCommand i f { s with x0 := a0, x1 := a1, x2 := a2, x3 := a3 } =
      .next { t with x0 := a0, x1 := a1, x2 := a2, x3 := a3 } := by
  obtain ⟨c, hc⟩ := runCommand_next_cur h
  simp only [runCommand, hc] at h ⊢
  split at h <;> cases h <;> cases hb : s.breached <;>
    simp [State.takeFault, State.finish, State.retire, State.havoc, hb]

/-- Settles O13: a write to CMD while BUSY = 1 is dropped, a write to STATUS leaves BUSY, and nothing else touches the record. -/
theorem latchedWhileBusy : Obligations.LatchedWhileBusy := by
  refine ⟨fun s t hb hn h => ?_, fun s t i a0 a1 a2 a3 h => ?_⟩
  · obtain ⟨u, hk, ht⟩ := hostStep_cases h
    have hub : u.status.busy = true := hk.status ▸ hb
    rcases ht with rfl | ⟨w, rfl⟩ | ⟨v, rfl⟩ | ⟨-, hreset⟩
    · exact ⟨hk.cur, hub⟩
    · rw [State.writeCmd_dropped (.inl hub)]
      exact ⟨hk.cur, hub⟩
    · exact ⟨hk.cur, hub⟩
    · rw [hn] at hreset
      cases hreset
  · rw [exec_eq_runCommand] at h ⊢
    exact runCommand_operands i (effectOf i) h a0 a1 a2 a3

/-- Settles O23: ERR = 1 means BUSY = 0, so the engine is idle, and a write to CMD is dropped. -/
theorem errClearedOnlyByReset : Obligations.ErrClearedOnlyByReset := by
  refine ⟨fun s t hi he hn h => ?_, fun s => ⟨rfl, rfl, rfl⟩⟩
  obtain ⟨ts, h⟩ := step_cases h
  rcases h with h | ⟨h, hr⟩ | ⟨-, hr⟩
  · rcases engineTurn_next h with rfl | ⟨hb, -⟩
    · exact ⟨he, rfl, rfl⟩
    · exact absurd ⟨hb, he⟩ hi.busy_err
  · obtain ⟨u, hk, ht⟩ := hostStep_cases h
    have hue : u.status.err = true := hk.status ▸ he
    have huc : u.status.cause = s.status.cause := congrArg Status.cause hk.status
    rcases ht with rfl | ⟨w, rfl⟩ | ⟨v, rfl⟩ | ⟨-, hreset⟩
    · exact ⟨hue, huc, hk.errinfo⟩
    · rw [State.writeCmd_dropped (.inr hue)]
      exact ⟨hue, huc, hk.errinfo⟩
    · exact ⟨hue, huc, hk.errinfo⟩
    · rw [hr.trans hreset] at hn
      cases hn
  · rw [hr] at hn
    cases hn

theorem State.writeCmd_memMap (s : State) (w : Word) : (s.writeCmd w).memMap = s.memMap := by
  rw [State.writeCmd]; split <;> rfl

/-- No step changes MEM_VALID or MMIO_BASE (R42). -/
theorem step_memMap {s t : State} (h : step s = .next t) : t.memMap = s.memMap := by
  obtain ⟨ts, h⟩ := step_cases h
  rcases h with h | ⟨h, -⟩ | ⟨rfl, -⟩
  · rcases engineTurn_next h with rfl | ⟨-, c, -, hr⟩
    · rfl
    · obtain ⟨-, -, -, -, -, -, -, hmap, -⟩ := hr.frame
      exact hmap
  · obtain ⟨u, hk, ht⟩ := hostStep_cases h
    rcases ht with rfl | ⟨w, rfl⟩ | ⟨v, rfl⟩ | ⟨rfl, -⟩
    · exact hk.memMap
    · exact (u.writeCmd_memMap w).trans hk.memMap
    · exact hk.memMap
    · exact hk.memMap
  · rfl

/-- Settles O24: the frame and the outcome of a retired command. -/
theorem commandFrame : Obligations.CommandFrame := by
  refine ⟨fun s t h => step_memMap h, fun i s t h => ?_⟩
  obtain ⟨c, hc, hr⟩ := exec_next h
  obtain ⟨h0, h1, h2, h3, hcmd, hctrl, hhost, hmap, hturns, hreads, hovr⟩ := hr.frame
  refine ⟨h0, h1, h2, h3, hcmd, hctrl, hhost, hmap, hturns, hreads, hovr, hr.idle.1, hr.idle.2, ?_⟩
  exact hr.outcome.imp id fun ⟨hdone, herr, _, hinfo⟩ => ⟨hdone, herr, c, hc, hinfo⟩

end Sys2Proof.Machine
end

section
/-! SUPPORT. The registers of the block (10_state R21 to R32), the interrupt line (R38), reset (R39, R260 to R262) and the
engine's turn (R44): the statements that speak of one operation in every state. -/

namespace Sys2Proof.Machine

/-! ### The turn that runs a command (R43, R44) -/

/-- The engine's step runs the command the word in flight decodes to. -/
theorem engineStep_of_decode {s : State} {c : InFlight} {i : Instr} (hc : s.cur = some c) (hd : decode c.word = .ok i) :
    engineStep s = exec i s := by
  simp only [engineStep, hc, hd]

theorem engineTurn_of_busy {s : State} (hb : s.status.busy = true) : engineTurn s = engineStep s := if_pos hb

/-- Settles O6: with BUSY = 1 both ways to give the engine the step are its step, which runs the decoded word. -/
theorem stepRunsTheCommand : Obligations.StepRunsTheCommand := by
  refine ⟨fun s c i hb hc hd => ⟨fun hts => ?_, fun ts hts => ?_⟩, fun s nbits w i hi => ?_⟩
  · simp only [step, hts, hb, if_true]
    exact engineStep_of_decode hc hd
  · simp only [step, hts]
    exact (engineTurn_of_busy (s := { s with turns := ts }) hb).trans (engineStep_of_decode hc hd)
  · have hd : decode (BitVec.ofNat 32 (w % 2 ^ nbits)) = .ok i := by
      rw [decodeTableWord] at hi
      split at hi <;> cases hi
      assumption
    show engineTurn (s.accept (BitVec.ofNat 32 (w % 2 ^ nbits))) = _
    exact (engineTurn_of_busy rfl).trans (engineStep_of_decode rfl hd)

/-! ### STATUS and CTRL as words (R28, R30) -/

/-- STATUS as a number: BUSY, DONE, ERR and OVR weigh 1, 2, 4 and 8, the cause 256. -/
theorem Status.toWord_toNat (s : Status) :
    s.toWord.toNat = s.busy.toNat + 2 * s.done.toNat + 4 * s.err.toNat + 8 * s.ovr.toNat + 256 * (causeField s.cause).toNat := by
  simp only [Status.toWord, append_toNat, BitVec.toNat_ofBool]
  simp
  omega

/-- CTRL as a number: IE_DONE and IE_ERR weigh 1 and 2. -/
theorem Ctrl.toWord_toNat (c : Ctrl) : c.toWord.toNat = c.ieDone.toNat + 2 * c.ieErr.toNat := by
  simp only [Ctrl.toWord, append_toNat, BitVec.toNat_ofBool]
  simp
  omega

/-- A digit that is a flag reads as the flag. -/
theorem getLsbD_eq_flag {w : Word} {i : Nat} {b : Bool} (h : w.toNat / 2 ^ i % 2 = b.toNat) : w.getLsbD i = b :=
  Function.LeftInverse.injective Bool.ofNat_toNat ((Nat.toNat_testBit w.toNat i).trans h)

/-- A field of a word, by its number. -/
theorem field_eq {w : Word} {lo len : Nat} {f : BitVec len} (h : w.toNat / 2 ^ lo % 2 ^ len = f.toNat) :
    w.extractLsb' lo len = f :=
  BitVec.eq_of_toNat_eq ((field_toNat w lo len).trans h)

theorem Status.toWord_bits (s : Status) :
    s.toWord.getLsbD 0 = s.busy ∧ s.toWord.getLsbD 1 = s.done ∧ s.toWord.getLsbD 2 = s.err ∧ s.toWord.getLsbD 3 = s.ovr ∧
      s.toWord.extractLsb' 4 4 = 0 ∧ s.toWord.extractLsb' 8 4 = causeField s.cause ∧ s.toWord.extractLsb' 12 20 = 0 := by
  have hw := s.toWord_toNat
  have h0 := s.busy.toNat_lt
  have h1 := s.done.toNat_lt
  have h2 := s.err.toNat_lt
  have h3 := s.ovr.toNat_lt
  have hc := (causeField s.cause).isLt
  refine ⟨getLsbD_eq_flag ?_, getLsbD_eq_flag ?_, getLsbD_eq_flag ?_, getLsbD_eq_flag ?_, field_eq ?_, field_eq ?_,
    field_eq ?_⟩ <;> simp <;> omega

theorem Ctrl.toWord_bits (c : Ctrl) :
    c.toWord.getLsbD 0 = c.ieDone ∧ c.toWord.getLsbD 1 = c.ieErr ∧ c.toWord.extractLsb' 2 30 = 0 := by
  have hw := c.toWord_toNat
  have h0 := c.ieDone.toNat_lt
  have h1 := c.ieErr.toNat_lt
  refine ⟨getLsbD_eq_flag ?_, getLsbD_eq_flag ?_, field_eq ?_⟩ <;> simp <;> omega

/-- CTRL reads back the two low bits of what was written to it (R30). -/
theorem Ctrl.ofWord_toWord (v : Word) : (Ctrl.ofWord v).toWord = v &&& 3 := by
  apply BitVec.eq_of_toNat_eq
  have hand : v.toNat &&& 3 = v.toNat % 4 := Nat.and_two_pow_sub_one_eq_mod v.toNat 2
  have hbit (i : Nat) : (v.getLsbD i).toNat = v.toNat / 2 ^ i % 2 := Nat.toNat_testBit v.toNat i
  rw [Ctrl.toWord_toNat, BitVec.toNat_and, Ctrl.ofWord, hbit, hbit]
  refine Eq.trans ?_ hand.symm
  omega

/-! ### Register accesses -/

/-- A host read of a register keeps the word read, and a read of STATUS with BUSY = 0 ends the footprint duties (R67, R266). -/
theorem State.hostReadReg_eq (s : State) (r : HostReg) :
    s.hostReadReg r = { s with
      hostReads := s.readReg r :: s.hostReads
      duties := if r = .status ∧ s.status.busy = false then [] else s.duties } := by
  cases r
  case status => cases hb : s.status.busy <;> simp [State.hostReadReg, State.sawStatus, hb]
  all_goals simp [State.hostReadReg]

/-- Settles O14, from the words of STATUS and CTRL bit by bit. -/
theorem registerWords : Obligations.RegisterWords := by
  intro s
  obtain ⟨hbusy, hdone, herr, hovr, hlow, hcause, hhigh⟩ := s.status.toWord_bits
  refine ⟨⟨hbusy, hdone, herr, hovr, hlow, hhigh⟩, ?_, s.ctrl.toWord_bits, ⟨rfl, rfl, rfl, rfl, rfl, rfl⟩, fun _ => rfl,
    fun again r => ⟨congrArg _ (s.hostReadReg_eq r), fun _ => rfl⟩⟩
  refine (congrArg BitVec.toNat hcause).trans ?_
  rcases s.status.cause with _ | k
  · rfl
  · cases k <;> rfl

/-- Settles O12, from the two cases of a write to CMD. -/
theorem commandWriteAcceptance : Obligations.CommandWriteAcceptance := by
  refine fun s w => ⟨fun hb he => ?_, fun h => State.writeCmd_dropped h w⟩
  refine (State.writeCmd_accepted hb he w).trans ?_
  simp only [State.accept, he]

/-- Settles O15: clearing a flag by a bit is the conjunction with its complement. -/
theorem statusWrite : Obligations.StatusWrite := by
  intro s v
  have hclear : ∀ b c : Bool, (b && !c) = if c = true then false else b := by decide
  simp only [State.writeReg, Status.written, hclear]

/-- After reset both words read 0 (R39). -/
theorem reset_words : Status.reset.toWord = 0 ∧ Ctrl.reset.toWord = 0 := by decide

/-- A write to CTRL with SRST = 1 is the reset (R261). -/
theorem State.writeReg_ctrl_reset (s : State) {v : Word} (h : v.getLsbD 31 = true) :
    s.writeReg .ctrl v = s.resetEngine := if_pos h

/-- A write to CTRL with SRST = 0 sets the two enables (R30). -/
theorem State.writeReg_ctrl_enables (s : State) {v : Word} (h : v.getLsbD 31 = false) :
    s.writeReg .ctrl v = { s with ctrl := Ctrl.ofWord v } := if_neg (Bool.eq_false_iff.mp h)

/-- Settles O16, from the two cases of a write to CTRL. -/
theorem ctrlWrite : Obligations.CtrlWrite := by
  refine fun s v => ⟨fun h => ?_, fun h => ?_⟩
  · rw [s.writeReg_ctrl_enables h]
    exact ⟨Ctrl.ofWord_toWord v, rfl⟩
  · rw [s.writeReg_ctrl_reset h]
    exact ⟨rfl, reset_words.2⟩

/-- Settles O17: a register write is one field's update, and a retired command leaves the four registers. -/
theorem operandRegisters : Obligations.OperandRegisters := by
  refine ⟨fun s v => ⟨⟨rfl, rfl⟩, ⟨rfl, rfl⟩, ⟨rfl, rfl⟩, ⟨rfl, rfl⟩⟩, fun s t h => ?_, fun s => ⟨rfl, rfl, rfl, rfl⟩⟩
  rcases engineTurn_next h with rfl | ⟨-, c, -, hr⟩
  · exact ⟨rfl, rfl, rfl, rfl⟩
  · obtain ⟨h0, h1, h2, h3, -⟩ := hr.frame
    exact ⟨h0, h1, h2, h3⟩

/-! ### The register block (R32, R59, R65) -/

/-- Only an aligned 4-byte access inside the block names a register (R32, U9). -/
theorem regAt_eq_none {offset size : Nat} (h : size ≠ 4 ∨ offset % 4 ≠ 0 ∨ 0x1C < offset) : regAt offset size = none := by
  unfold regAt
  split
  · split
    case h_9 => rfl
    all_goals omega
  · rfl

/-- The register block as a range of addresses. -/
theorem MemMap.inRegisterBlock_iff (map : MemMap) (a : Int) :
    map.inRegisterBlock a = true ↔ (map.mmioBase : Int) ≤ a ∧ a < (map.mmioBase : Int) + 32 := by
  simp only [MemMap.inRegisterBlock, Bool.and_eq_true, decide_eq_true_eq]

/-- A memory access of one byte of the register block is refused (R32; log 12). -/
theorem memoryAccess_one_refused {map : MemMap} {a : Word} (h : map.inRegisterBlock a.toNat = true) (t : State) :
    memoryAccess map a 1 t = .refused (.registerBlockAccess a 1) := by
  simp [memoryAccess, Nat.mod_one, h]

/-- A memory access of two bytes, one of them of the register block, is refused (R32; log 12). -/
theorem memoryAccess_two_refused {map : MemMap} {a : Word} (he : a.toNat % 2 = 0)
    (h : map.inRegisterBlock a.toNat = true ∨ map.inRegisterBlock (a.toNat + 1) = true) (t : State) :
    memoryAccess map a 2 t = .refused (.registerBlockAccess a 2) := by
  rcases h with h | h <;> simp [memoryAccess, he, h]

/-- Where no check but BUS fails and the footprint leaves MEM_VALID, the first fault is BUS (R233, R234). -/
theorem firstFault_bus {s : State} {c : InFlight} {i : Instr} (hbus : CheckFails s c i .bus)
    (hno : ∀ k, k ≠ .bus → ¬ CheckFails s c i k) : (planOf i c).firstFault c.dstride s.memMap = some .bus := by
  obtain ⟨h1, h2, h3, h4, h5, h6, h7⟩ := checkFails_iff s c i
  have n1 := mt h1.mpr (hno _ (by decide))
  have n2 := mt h2.mpr (hno _ (by decide))
  have n3 := mt h3.mpr (hno _ (by decide))
  have n4 := mt h4.mpr (hno _ (by decide))
  have n5 := mt h5.mpr (hno _ (by decide))
  have n6 := mt h6.mpr (hno _ (by decide))
  simp only [Bool.not_eq_false, Bool.not_eq_true] at n1 n2 n3 n4 n5 n6
  rw [Plan.firstFault_cases, n1, n2, n3, n4, n5, n6, h7.mp hbus]

/-- Settles O18: the offsets name their registers and nothing else, the block's bytes are refused to the host and outside
MEM_VALID, and a footprint that holds one fails the BUS check. -/
theorem registerBlock : Obligations.RegisterBlock := by
  refine ⟨fun again s v => ⟨?_, fun offset size x h => ?_, fun a y h1 h2 => ?_, fun a y he h1 h2 => ?_⟩, memValid_iff,
    fun s c i a hr hf h1 h2 hno => ?_⟩
  · simp only [List.forall_mem_cons, List.not_mem_nil, false_implies, implies_true, and_true]
    exact ⟨⟨rfl, rfl⟩, ⟨rfl, rfl⟩, ⟨rfl, rfl⟩, ⟨rfl, rfl⟩, ⟨rfl, rfl⟩, ⟨rfl, rfl⟩, ⟨rfl, rfl⟩, ⟨rfl, rfl⟩⟩
  · simp only [hostAction, regAt_eq_none h]
  · have hin : s.memMap.inRegisterBlock a.toNat = true := (MemMap.inRegisterBlock_iff ..).mpr (by omega)
    exact ⟨memoryAccess_one_refused hin _, memoryAccess_one_refused hin _⟩
  · have hin : s.memMap.inRegisterBlock a.toNat = true ∨ s.memMap.inRegisterBlock (a.toNat + 1) = true := by
      rw [MemMap.inRegisterBlock_iff, MemMap.inRegisterBlock_iff]
      omega
    exact ⟨memoryAccess_two_refused he hin _, memoryAccess_two_refused he hin _⟩
  · have hinvalid : memValid s.memMap a = false :=
      Bool.eq_false_iff.mpr fun hv => ((memValid_iff ..).mp hv).2 ⟨h1, h2⟩
    rw [exec_eq_runCommand]
    exact runCommand_faults hr (firstFault_bus ⟨a, hf, hinvalid⟩ hno)

/-! ### The interrupt line and reset -/

/-- Settles O19: each way the line falls leaves both of its terms 0. -/
theorem interruptLine : Obligations.InterruptLine := by
  refine fun s => ⟨?_, fun he => ?_, ?_, rfl⟩
  · simp only [irq, Bool.or_eq_true, Bool.and_eq_true]
  · have hdone : (s.writeReg .status 2).status.done = false := Bool.and_false _
    have herr : (s.writeReg .status 2).status.err = false := he
    simp only [irq, hdone, herr, Bool.false_and, Bool.or_self]
  · rw [s.writeReg_ctrl_enables (by decide)]
    simp [irq, Ctrl.ofWord]

/-- The bytes a reset may leave unspecified are those of the write footprint of the command in flight (R262). -/
theorem State.spansHave_abortedFootprint {s : State} {a : Int}
    (h : ∀ c, s.status.busy = true → s.cur = some c → spansHave c.wf a = false) : spansHave s.abortedFootprint a = false := by
  rw [State.abortedFootprint]
  split
  · rename_i hb
    cases hc : s.cur with
    | none => rfl
    | some c => exact h c hb hc
  · rfl

/-- Settles O20: the registers are a reset's own fields, and a byte outside the aborted footprint is not drawn anew. -/
theorem resetState : Obligations.ResetState := by
  refine ⟨fun s hs => ?_, fun s a hm h => havoc_read_outside hm (State.spansHave_abortedFootprint h)⟩
  rcases hs with rfl | ⟨t, rfl⟩
  · decide
  · exact ⟨rfl, rfl, rfl, rfl, rfl, reset_words.1, reset_words.2, rfl, rfl, rfl⟩

/-- Settles O21: the write's first branch, and the turn of the reset input, are the reset. -/
theorem softAndHardReset : Obligations.SoftAndHardReset := by
  intro s v ts rest hv
  refine ⟨?_, rfl, rfl⟩
  exact congrArg Host.Outcome.next (State.writeReg_ctrl_reset { s with host := rest } hv)

end Sys2Proof.Machine
end

section
/-! SUPPORT. The decoder against the opcode table (30_encoding R85, R86, R101): a word that decodes is legal for the row of its
command, so a word legal for no row is no command. The proof of IllegalWordsFault. -/

namespace Sys2Proof

/-! ### What each format's decoder has checked (R81 to R92) -/

theorem decodeP_ok {w : Word} {widths : Width → Bool} {zero : Bool} {k : Width → Instr} {i : Instr}
    (h : decodeP w widths zero k = .ok i) :
    ∃ wd, widthOf (wselOf w) = some wd ∧ widths wd = true ∧ heightLegal (heightOf w) = true ∧ z4Of w = 0 ∧ zero = true ∧
      i = k wd := by
  rw [decodeP] at h
  cases hw : widthOf (wselOf w) with
  | none => simp [hw] at h
  | some wd =>
    simp only [hw, Bool.not_eq_true'] at h
    split_ifs at h with h1 h2 h3
    cases h
    obtain ⟨hz, hzero⟩ : z4Of w = 0 ∧ zero = true := by simpa using h3
    exact ⟨wd, rfl, by simpa using h1, by simpa using h2, hz, hzero, rfl⟩

theorem decodeT_ok {w : Word} {i j : Instr} (h : decodeT w i = .ok j) : z26Of w = 0 ∧ j = i := by
  rw [decodeT] at h
  split at h <;> cases h
  exact ⟨by assumption, rfl⟩

theorem decodeSimple_ok {w : Word} {k : EdgeSpan → Byte → Instr} {i : Instr} (h : decodeSimple w k = .ok i) :
    pairOf w = 0 ∧ iOf w = 0 ∧ hevOf w = 0 ∧ i = k (spanOf (nselOf w)) (eOf w) := by
  rw [decodeSimple] at h
  split at h <;> cases h
  rename_i hz
  obtain ⟨⟨hp, hi⟩, hh⟩ : (pairOf w = 0 ∧ iOf w = 0) ∧ hevOf w = 0 := by simpa using hz
  exact ⟨hp, hi, hh, rfl⟩

theorem decodeNormal_ok {w : Word} {k : EdgeSpan → Bool → Byte → Byte → Byte → Instr} {i : Instr}
    (h : decodeNormal w k = .ok i) :
    pairLegal (spanOf (nselOf w)) (decide (pairOf w = 1)) = true ∧
      i = k (spanOf (nselOf w)) (decide (pairOf w = 1)) (eOf w) (iOf w) (hevOf w) := by
  rw [decodeNormal] at h
  split at h <;> cases h
  exact ⟨by assumption, rfl⟩

/-! ### Masks, field by field (R101) -/

/-- Words with the same format-P fields are the same. -/
theorem word_ext_P {v w : Word} (h1 : opcOf v = opcOf w) (h2 : wselOf v = wselOf w) (h3 : heightOf v = heightOf w)
    (h4 : mxOf v = mxOf w) (h5 : myOf v = myOf w) (h6 : z4Of v = z4Of w) (h7 : valOf v = valOf w) : v = w := by
  have h1 := congrArg BitVec.toNat h1
  have h2 := congrArg BitVec.toNat h2
  have h3 := congrArg BitVec.toNat h3
  have h4 := congrArg BitVec.toNat h4
  have h5 := congrArg BitVec.toNat h5
  have h6 := congrArg BitVec.toNat h6
  have h7 := congrArg BitVec.toNat h7
  simp only [opcOf, wselOf, heightOf, mxOf, myOf, z4Of, valOf, field_toNat] at h1 h2 h3 h4 h5 h6 h7
  have := v.isLt
  have := w.isLt
  apply BitVec.eq_of_toNat_eq
  omega

/-- Words with the same format-L fields are the same. -/
theorem word_ext_L {v w : Word} (h1 : opcOf v = opcOf w) (h2 : nselOf v = nselOf w) (h3 : pairOf v = pairOf w)
    (h4 : eOf v = eOf w) (h5 : iOf v = iOf w) (h6 : hevOf v = hevOf w) : v = w := by
  rw [← encodeL_of_fields v, ← encodeL_of_fields w, h1, h2, h3, h4, h5, h6]

/-- A field of a masked word is the field masked. -/
theorem field_and (v w : Word) (lo len : Nat) :
    (v &&& w).extractLsb' lo len = v.extractLsb' lo len &&& w.extractLsb' lo len := BitVec.extractLsb'_and

/-- The masked field of a word is zero where the mask or the word has it zero. -/
theorem and_eq_zero_of {n : Nat} {a b : BitVec n} (h : b = 0 ∨ a = 0) : a &&& b = 0 := by
  rcases h with rfl | rfl
  · exact BitVec.and_zero
  · exact BitVec.zero_and

/-- A mask that fixes the opcode leaves it. -/
theorem opcOf_masked {w m : Word} (hm : opcOf m = 63) : opcOf (w &&& m) = opcOf w := by
  refine (field_and w m 26 6).trans ?_
  rw [show m.extractLsb' 26 6 = 63 from hm]
  exact BitVec.and_allOnes

/-- A format-P row: the mask fixes the opcode and `Z4`, leaves `WSEL` and `H` free, and the pattern is zero but for the opcode. -/
abbrev TableRow.FormatP (r : TableRow) : Prop :=
  (opcOf r.mask = 63 ∧ wselOf r.mask = 0 ∧ heightOf r.mask = 0) ∧ r.pattern = encodeP (opcOf r.pattern) .w4 0 0 0 0

/-- A format-L row: the mask fixes the opcode, leaves `NSEL` and `E` free, and the pattern is zero but for the opcode. -/
abbrev TableRow.FormatL (r : TableRow) : Prop :=
  (opcOf r.mask = 63 ∧ nselOf r.mask = 0 ∧ eOf r.mask = 0) ∧ r.pattern = encodeL (opcOf r.pattern) .n8 false 0 0 0

/-- A word belongs to the format-P row of its opcode when it is zero in the fields the mask fixes (R87 to R90). -/
theorem TableRow.FormatP.masked {r : TableRow} (hr : r.FormatP) {w : Word} (hop : opcOf w = opcOf r.pattern)
    (hmx : mxOf r.mask = 0 ∨ mxOf w = 0) (hmy : myOf r.mask = 0 ∨ myOf w = 0) (hz : z4Of w = 0)
    (hval : valOf r.mask = 0 ∨ valOf w = 0) : w &&& r.mask = r.pattern := by
  obtain ⟨⟨mop, mw, mh⟩, hp⟩ := hr
  rw [hp]
  obtain ⟨f1, f2, f3, f4, f5, f6, f7⟩ := encodeP_fields (opcOf r.pattern) .w4 0 0 0 0
  refine word_ext_P ?_ ?_ ?_ ?_ ?_ ?_ ?_
  · exact (opcOf_masked mop).trans (hop.trans f1.symm)
  · exact ((field_and ..).trans (and_eq_zero_of (.inl mw))).trans f2.symm
  · exact ((field_and ..).trans (and_eq_zero_of (.inl mh))).trans f3.symm
  · exact ((field_and ..).trans (and_eq_zero_of hmx)).trans f4.symm
  · exact ((field_and ..).trans (and_eq_zero_of hmy)).trans f5.symm
  · exact ((field_and ..).trans (and_eq_zero_of (.inr hz))).trans f6.symm
  · exact ((field_and ..).trans (and_eq_zero_of hval)).trans f7.symm

/-- A word belongs to the format-L row of its opcode when it is zero in the fields the mask fixes (R92). -/
theorem TableRow.FormatL.masked {r : TableRow} (hr : r.FormatL) {w : Word} (hop : opcOf w = opcOf r.pattern)
    (hpair : pairOf r.mask = 0 ∨ pairOf w = 0) (hi : iOf r.mask = 0 ∨ iOf w = 0) (hhev : hevOf r.mask = 0 ∨ hevOf w = 0) :
    w &&& r.mask = r.pattern := by
  obtain ⟨⟨mop, mn, me⟩, hp⟩ := hr
  rw [hp]
  obtain ⟨f1, f2, f3, f4, f5, f6⟩ := encodeL_fields (opcOf r.pattern) .n8 false 0 0 0
  refine word_ext_L ?_ ?_ ?_ ?_ ?_ ?_
  · exact (opcOf_masked mop).trans (hop.trans f1.symm)
  · exact ((field_and ..).trans (and_eq_zero_of (.inl mn))).trans f2.symm
  · exact ((field_and ..).trans (and_eq_zero_of hpair)).trans f3.symm
  · exact ((field_and ..).trans (and_eq_zero_of (.inl me))).trans f4.symm
  · exact ((field_and ..).trans (and_eq_zero_of hi)).trans f5.symm
  · exact ((field_and ..).trans (and_eq_zero_of hhev)).trans f6.symm

/-! ### The constraints a mask cannot express (R101) -/

/-- The table's height constraint is the decoder's. -/
theorem heightBits_of_legal {w : Word} (h : heightLegal (heightOf w) = true) :
    1 ≤ w.toNat / 2 ^ 18 % 64 ∧ w.toNat / 2 ^ 18 % 64 ≤ 32 := by
  have hb := (Machine.heightLegal_iff _).mp h
  rwa [heightOf, field_toNat] at hb

/-- The table's width constraint is the decoder's. -/
theorem widthBits_of_some {w : Word} {wd : Width} (h : widthOf (wselOf w) = some wd) :
    w.toNat / 2 ^ 24 % 4 = wd.sel.toNat := by
  have hs := congrArg BitVec.toNat (widthOf_some h)
  rw [wselOf, field_toNat] at hs
  exact hs.symm

theorem holds_block {w : Word} {wd : Width} (hw : widthOf (wselOf w) = some wd) (hh : heightLegal (heightOf w) = true) :
    TableConstraint.block.holds w = true := by
  have hb := widthBits_of_some hw
  have hne : wd.sel.toNat ≠ 3 := by cases wd <;> decide
  simp only [TableConstraint.holds, heightBits_of_legal hh, hb, hne, ne_eq, not_false_eq_true, and_self, decide_true,
    Bool.and_self]

theorem holds_fillBlock {w : Word} {wd : Width} (hw : widthOf (wselOf w) = some wd) (hfill : fillWidth wd = true)
    (hh : heightLegal (heightOf w) = true) : TableConstraint.fillBlock.holds w = true := by
  have hb := widthBits_of_some hw
  have hsel : wd.sel.toNat = 1 ∨ wd.sel.toNat = 2 := by
    cases wd with
    | w4 => cases hfill
    | w8 => exact .inl rfl
    | w16 => exact .inr rfl
  simp only [TableConstraint.holds, heightBits_of_legal hh, hb, hsel, and_self, decide_true, Bool.and_self]

theorem holds_planes {w : Word} (h : pairLegal (spanOf (nselOf w)) (decide (pairOf w = 1)) = true) :
    TableConstraint.planes.holds w = true := by
  have hn : w.toNat / 2 ^ 25 % 2 = (nselOf w).toNat := (field_toNat w 25 1).symm
  have hp : w.toNat / 2 ^ 24 % 2 = (pairOf w).toNat := (field_toNat w 24 1).symm
  simp only [TableConstraint.holds, hn, hp]
  revert h
  generalize nselOf w = n
  generalize pairOf w = p
  revert n p
  decide

/-! ### A word that decodes is legal for the row of its command -/

/-- The word is legal for some row of the table, and that row names the command. -/
def HasRow (w : Word) (i : Instr) : Prop :=
  ∃ r ∈ opcodeTable, r.legal w = true ∧ r.mnemonic = i.mnemonic

theorem hasRow_of_row {w : Word} {i : Instr} (k : Fin 27) (hm : (opcodeTable.get k).mnemonic = i.mnemonic)
    (hmask : w &&& (opcodeTable.get k).mask = (opcodeTable.get k).pattern)
    (hc : (opcodeTable.get k).constraint.holds w = true) : HasRow w i :=
  ⟨_, List.get_mem opcodeTable k, by rw [TableRow.legal, hmask, hc]; simp, hm⟩

theorem hasRow_of_decodeP {w : Word} {widths : Width → Bool} {zero : Bool} {k : Width → Instr} {i : Instr} (j : Fin 27)
    (hop : (opcOf w).toNat = (opcOf (opcodeTable.get j).pattern).toNat) (h : decodeP w widths zero k = .ok i)
    (hm : ∀ wd, (opcodeTable.get j).mnemonic = (k wd).mnemonic)
    (hzero : zero = true → (mxOf (opcodeTable.get j).mask = 0 ∨ mxOf w = 0) ∧
      (myOf (opcodeTable.get j).mask = 0 ∨ myOf w = 0) ∧ (valOf (opcodeTable.get j).mask = 0 ∨ valOf w = 0))
    (hf : (opcodeTable.get j).FormatP := by decide)
    (hc : (opcodeTable.get j).constraint = .block ∨ (opcodeTable.get j).constraint = .fillBlock ∧ widths = fillWidth := by
      exact .inl rfl) : HasRow w i := by
  obtain ⟨wd, hw, hwd, hh, hz, hz', rfl⟩ := decodeP_ok h
  obtain ⟨hmx, hmy, hval⟩ := hzero hz'
  refine hasRow_of_row j (hm wd) (hf.masked (BitVec.eq_of_toNat_eq hop) hmx hmy hz hval) ?_
  rcases hc with hc | ⟨hc, rfl⟩ <;> rw [hc]
  · exact holds_block hw hh
  · exact holds_fillBlock hw hwd hh

theorem hasRow_of_decodeT {w : Word} {i' i : Instr} (j : Fin 27)
    (hop : (opcOf w).toNat = (opcOf (opcodeTable.get j).pattern).toNat) (h : decodeT w i' = .ok i)
    (hm : (opcodeTable.get j).mnemonic = i'.mnemonic := by rfl)
    (hf : (opcodeTable.get j).mask = BitVec.allOnes 32 ∧
      (opcodeTable.get j).pattern = encodeT (opcOf (opcodeTable.get j).pattern) := by decide)
    (hc : (opcodeTable.get j).constraint = .none := by rfl) : HasRow w i := by
  obtain ⟨hz, rfl⟩ := decodeT_ok h
  obtain ⟨hmask, hpat⟩ := hf
  refine hasRow_of_row j hm ?_ (by rw [hc]; rfl)
  rw [hmask, BitVec.and_allOnes, hpat, ← BitVec.eq_of_toNat_eq hop, encodeT_of_fields hz]

theorem hasRow_of_decodeSimple {w : Word} {k : EdgeSpan → Byte → Instr} {i : Instr} (j : Fin 27)
    (hop : (opcOf w).toNat = (opcOf (opcodeTable.get j).pattern).toNat) (h : decodeSimple w k = .ok i)
    (hm : ∀ n e, (opcodeTable.get j).mnemonic = (k n e).mnemonic) (hf : (opcodeTable.get j).FormatL := by decide)
    (hc : (opcodeTable.get j).constraint = .none := by rfl) : HasRow w i := by
  obtain ⟨hp, hi, hh, rfl⟩ := decodeSimple_ok h
  exact hasRow_of_row j (hm _ _) (hf.masked (BitVec.eq_of_toNat_eq hop) (.inr hp) (.inr hi) (.inr hh)) (by rw [hc]; rfl)

theorem hasRow_of_decodeNormal {w : Word} {k : EdgeSpan → Bool → Byte → Byte → Byte → Instr} {i : Instr} (j : Fin 27)
    (hop : (opcOf w).toNat = (opcOf (opcodeTable.get j).pattern).toNat) (h : decodeNormal w k = .ok i)
    (hm : ∀ n p e il hev, (opcodeTable.get j).mnemonic = (k n p e il hev).mnemonic)
    (hf : (opcodeTable.get j).FormatL ∧ (opcodeTable.get j).mask = 0xFC000000 := by decide)
    (hc : (opcodeTable.get j).constraint = .planes := by rfl) : HasRow w i := by
  obtain ⟨hp, rfl⟩ := decodeNormal_ok h
  obtain ⟨hf, hmask⟩ := hf
  refine hasRow_of_row j (hm ..) (hf.masked (BitVec.eq_of_toNat_eq hop) ?_ ?_ ?_) (by rw [hc]; exact holds_planes hp) <;>
    exact .inl (by rw [hmask]; decide)

/-- The decoder accepts only words legal for a row of the table, and names that row (R85, R101). -/
theorem hasRow_of_decode {w : Word} {i : Instr} (h : decode w = .ok i) : HasRow w i := by
  unfold decode at h
  split at h <;> rename_i hop
  · exact hasRow_of_decodeP 0 hop h (fun _ => rfl) (by simp +decide) (hc := .inr ⟨rfl, rfl⟩)
  · exact hasRow_of_decodeT 1 hop h
  · exact hasRow_of_decodeT 2 hop h
  · exact hasRow_of_decodeP 3 hop h (fun _ => rfl) (by simp +decide; tauto)
  · exact hasRow_of_decodeP 4 hop h (fun _ => rfl) (by simp +decide)
  · exact hasRow_of_decodeP 5 hop h (fun _ => rfl) (by simp +decide)
  · exact hasRow_of_decodeP 6 hop h (fun _ => rfl) (by simp +decide)
  · exact hasRow_of_decodeP 7 hop h (fun _ => rfl) (by simp +decide)
  · exact hasRow_of_decodeP 8 hop h (fun _ => rfl) (by simp +decide)
  · exact hasRow_of_decodeP 9 hop h (fun _ => rfl) (by simp +decide)
  · exact hasRow_of_decodeP 10 hop h (fun _ => rfl) (by simp +decide)
  · exact hasRow_of_decodeP 11 hop h (fun _ => rfl) (by simp +decide)
  · exact hasRow_of_decodeP 12 hop h (fun _ => rfl) (by simp +decide)
  · exact hasRow_of_decodeP 13 hop h (fun _ => rfl) (by simp +decide)
  · exact hasRow_of_decodeP 14 hop h (fun _ => rfl) (by simp +decide)
  · exact hasRow_of_decodeT 15 hop h
  · exact hasRow_of_decodeT 16 hop h
  · exact hasRow_of_decodeT 17 hop h
  · exact hasRow_of_decodeT 18 hop h
  · exact hasRow_of_decodeT 19 hop h
  · exact hasRow_of_decodeT 20 hop h
  · exact hasRow_of_decodeSimple 21 hop h fun _ _ => rfl
  · exact hasRow_of_decodeSimple 22 hop h fun _ _ => rfl
  · exact hasRow_of_decodeNormal 23 hop h fun _ _ _ _ _ => rfl
  · exact hasRow_of_decodeNormal 24 hop h fun _ _ _ _ _ => rfl
  · exact hasRow_of_decodeNormal 25 hop h fun _ _ _ _ _ => rfl
  · exact hasRow_of_decodeNormal 26 hop h fun _ _ _ _ _ => rfl
  · cases h

/-! ### Illegal words (R85, R93) -/

/-- Every row of the table fixes the opcode, and to none of the 37 reserved values (R86, R93). -/
theorem table_opcodes : ∀ r ∈ opcodeTable, opcOf r.mask = 63 ∧ (opcOf r.pattern).toNat ∉ ([0x00] ++ List.range' 0x04 12 ++
    [0x13, 0x17] ++ List.range' 0x1B 6 ++ List.range' 0x24 12 ++ [0x36, 0x37, 0x3E, 0x3F]) := by decide

/-- A word legal for a row has the row's opcode. -/
theorem TableRow.opcOf_of_legal {r : TableRow} {w : Word} (hr : opcOf r.mask = 63) (h : r.legal w = true) :
    opcOf w = opcOf r.pattern := by
  obtain ⟨hm, -⟩ : w &&& r.mask = r.pattern ∧ r.constraint.holds w = true := by simpa [TableRow.legal] using h
  rw [← hm, opcOf_masked hr]

/-- A word with a reserved opcode is legal for no row (R93). -/
theorem not_legal_of_reserved {w : Word} (hw : (opcOf w).toNat ∈ ([0x00] ++ List.range' 0x04 12 ++ [0x13, 0x17] ++
    List.range' 0x1B 6 ++ List.range' 0x24 12 ++ [0x36, 0x37, 0x3E, 0x3F])) : ∀ r ∈ opcodeTable, r.legal w = false := by
  intro r hr
  obtain ⟨hmask, hpat⟩ := table_opcodes r hr
  exact Bool.eq_false_iff.mpr fun h => hpat (r.opcOf_of_legal hmask h ▸ hw)

/-- A word legal for no row decodes to no instruction. -/
theorem decode_error_of_not_legal {w : Word} (h : ∀ r ∈ opcodeTable, r.legal w = false) : ∃ e, decode w = .error e := by
  cases hd : decode w with
  | error e => exact ⟨e, rfl⟩
  | ok i =>
    obtain ⟨r, hr, hl, -⟩ := hasRow_of_decode hd
    rw [h r hr] at hl
    cases hl

namespace Machine

/-- Settles O5: the word is legal for no row, so it does not decode, and the engine's step takes ILLEGAL_CMD; the reserved opcodes are
no row's. -/
theorem illegalWordsFault : Obligations.IllegalWordsFault := by
  refine ⟨fun s w hb he hw => ?_, fun w => not_legal_of_reserved, fun r hr => ⟨?_, ?_⟩⟩
  · obtain ⟨e, hd⟩ := decode_error_of_not_legal hw
    rw [State.writeCmd_accepted hb he]
    refine ⟨rfl, ?_⟩
    simp only [engineTurn, State.accept_status, if_true, engineStep, State.accept_cur, hd, illegalCommand,
      State.takeFault_of_kept (State.accept_breached s w)]
  · exact not_legal_of_reserved (by decide) r hr
  · exact not_legal_of_reserved (by decide) r hr

end Machine

end Sys2Proof
end

section
/-! SUPPORT. Interpolation on sources of a known shape (42_interp_epel R145, R156, 43_interp_bilinear R176): a constant source is
reproduced, and an odd selector makes the 6-tap kernel the 4-tap one. The proofs of ConstantsPreserved and OddSelectorSixTap. -/

namespace Sys2Proof.Machine

/-! ### The kernels (R34, R141, R170) -/

/-- With an odd selector the outer taps are zero, so the 6-tap kernel is the 4-tap one (R145 (a)). -/
theorem firPass_six_of_odd {sel : BitVec 3} (h : sel.toNat % 2 = 1) (v : Int → Int) :
    firPass .six sel v = firPass .four sel v := by
  obtain ⟨h0, h5⟩ := tapRow_odd h
  simp only [firPass, fir6, fir4, h0, h5, zero_mul, add_zero]

/-- The 6-tap kernel reproduces a constant sample: its row sums to 128 (R34, R156). -/
theorem firPass_six_const {sel : BitVec 3} (h : sel ≠ 0) {v : Int} (h0 : 0 ≤ v) (h1 : v ≤ 255) :
    firPass .six sel (fun _ => v) = v := by
  have hsum : (tapRow sel).f2 * v - (tapRow sel).f1 * v + (tapRow sel).f0 * v + (tapRow sel).f3 * v - (tapRow sel).f4 * v +
      (tapRow sel).f5 * v = 128 * v := by rw [← tapRow_sum h]; ring
  have hround : (128 * v + 64) / 128 = v := by omega
  rw [firPass, fir6, hsum, asr_seven, hround, clipU8_of_mem h0 h1]

theorem ne_zero_of_odd {sel : BitVec 3} (h : sel.toNat % 2 = 1) : sel ≠ 0 := by
  rintro rfl
  cases h

/-- The 4-tap kernel reproduces a constant sample where the outer taps are zero (R156). -/
theorem firPass_four_const {sel : BitVec 3} (h : sel.toNat % 2 = 1) {v : Int} (h0 : 0 ≤ v) (h1 : v ≤ 255) :
    firPass .four sel (fun _ => v) = v := by
  rw [← firPass_six_of_odd h, firPass_six_const (ne_zero_of_odd h) h0 h1]

/-- The bilinear kernel reproduces a constant sample for every offset (R176 (a)). -/
theorem bil_const (m : BitVec 3) (v : Int) : bil m v v = v := by
  have hsum : (8 - (m.toNat : Int)) * v + m.toNat * v + 4 = 8 * v + 4 := by ring
  rw [bil, hsum, asr_three]
  omega

/-! ### The two-pass commands without their scratch buffer (R146, R173) -/

section stores
variable {ht vt : TapCount} {w h : Nat} {mx my : BitVec 3} {c : InFlight} {m : Memory} {v : Int}

/-- The vertical kernel of a two-pass command sees the horizontal one: its taps are rows the scratch buffer holds. -/
theorem hvStores_eq : hvStores ht vt w h mx my c m =
    blockStores c.dst c.dstride w h fun y x => firPass vt my fun k => hFilter ht mx c m (y + k) x :=
  blockStores_congr fun y x _ hx => firPass_congr fun k h1 h2 =>
    scratchAt_scratchRows (by omega) (by push_cast; omega) hx

theorem bilinHVStores_eq : bilinHVStores w h mx my c m =
    blockStores c.dst c.dstride w h fun y x => bil my (bilH mx c m y x) (bilH mx c m (y + 1) x) :=
  blockStores_congr fun y x _ hx => by
    rw [scratchAt_scratchRows (by omega) (by push_cast; omega) hx, scratchAt_scratchRows (by omega) (by push_cast; omega) hx]

/-! ### Odd selectors (R145 (a)) -/

theorem hStores_six_of_odd (hmx : mx.toNat % 2 = 1) : hStores .six w h mx c m = hStores .four w h mx c m := by
  simp only [hStores, hFilter, firPass_six_of_odd hmx]

theorem vStores_six_of_odd (hmy : my.toNat % 2 = 1) : vStores .six w h my c m = vStores .four w h my c m := by
  simp only [vStores, vFilter, firPass_six_of_odd hmy]

theorem hvStores_six_left_of_odd (hmx : mx.toNat % 2 = 1) :
    hvStores .six vt w h mx my c m = hvStores .four vt w h mx my c m := by
  simp only [hvStores_eq, hFilter, firPass_six_of_odd hmx]

theorem hvStores_six_right_of_odd (hmy : my.toNat % 2 = 1) :
    hvStores ht .six w h mx my c m = hvStores ht .four w h mx my c m := by
  simp only [hvStores_eq, firPass_six_of_odd hmy]

/-! ### Constant sources (R156, R176 (a)) -/

/-- Every sample of the window of a command is `v` (R143, R175). -/
def ConstantSource (c : InFlight) (m : Memory) (ht vt : TapCount) (w h : Nat) (v : Int) : Prop :=
  ∀ y x : Int, -(vt.lo : Int) ≤ y → y < h + vt.hi → -(ht.lo : Int) ≤ x → x < w + ht.hi → srcPx c m y x = v

theorem hFilter_const (hs : ConstantSource c m ht vt w h v) (hf : firPass ht mx (fun _ => v) = v) {y : Int} {x : Nat}
    (h1 : -(vt.lo : Int) ≤ y) (h2 : y < h + vt.hi) (hx : x < w) : hFilter ht mx c m y x = v :=
  (firPass_congr fun k _ _ => hs y (x + k) h1 h2 (by omega) (by omega)).trans hf

theorem hStores_const (hs : ConstantSource c m ht .none w h v) (hf : firPass ht mx (fun _ => v) = v) :
    hStores ht w h mx c m = blockStores c.dst c.dstride w h fun _ _ => v :=
  blockStores_congr fun _ _ _ hx => hFilter_const hs hf (by omega) (by omega) hx

theorem vStores_const (hs : ConstantSource c m .none vt w h v) (hf : firPass vt my (fun _ => v) = v) :
    vStores vt w h my c m = blockStores c.dst c.dstride w h fun _ _ => v :=
  blockStores_congr fun y x _ _ =>
    (firPass_congr fun k _ _ => hs (y + k) x (by omega) (by omega) (by omega) (by omega)).trans hf

theorem hvStores_const (hs : ConstantSource c m ht vt w h v) (hfx : firPass ht mx (fun _ => v) = v)
    (hfy : firPass vt my (fun _ => v) = v) :
    hvStores ht vt w h mx my c m = blockStores c.dst c.dstride w h fun _ _ => v :=
  hvStores_eq.trans <| blockStores_congr fun _ _ _ hx =>
    (firPass_congr fun _ _ _ => hFilter_const hs hfx (by omega) (by omega) hx).trans hfy

theorem bilH_const (hs : ConstantSource c m .two vt w h v) {y : Int} {x : Nat} (h1 : -(vt.lo : Int) ≤ y)
    (h2 : y < h + vt.hi) (hx : x < w) : bilH mx c m y x = v := by
  have hhi : TapCount.two.hi = 1 := rfl
  rw [bilH, hs y x h1 h2 (by omega) (by omega), hs y (x + 1) h1 h2 (by omega) (by omega), bil_const]

theorem bilV_const (hs : ConstantSource c m .none .two w h v) {y x : Nat} (hy : y < h) (hx : x < w) :
    bilV my c m y x = v := by
  have hhi : TapCount.two.hi = 1 := rfl
  rw [bilV, hs y x (by omega) (by omega) (by omega) (by omega), hs (y + 1) x (by omega) (by omega) (by omega) (by omega),
    bil_const]

theorem bilHStores_const (hs : ConstantSource c m .two .none w h v) :
    (blockStores c.dst c.dstride w h fun y x => bilH mx c m y x) = blockStores c.dst c.dstride w h fun _ _ => v :=
  blockStores_congr fun _ _ _ hx => bilH_const hs (by omega) (by omega) hx

theorem bilVStores_const (hs : ConstantSource c m .none .two w h v) :
    (blockStores c.dst c.dstride w h fun y x => bilV my c m y x) = blockStores c.dst c.dstride w h fun _ _ => v :=
  blockStores_congr fun _ _ => bilV_const hs

theorem bilinHVStores_const (hs : ConstantSource c m .two .two w h v) :
    bilinHVStores w h mx my c m = blockStores c.dst c.dstride w h fun _ _ => v :=
  bilinHVStores_eq.trans <| blockStores_congr fun y x _ hx => by
    have hhi : TapCount.two.hi = 1 := rfl
    rw [bilH_const hs (by omega) (by omega) hx, bilH_const hs (by omega) (by omega) hx, bil_const]

end stores

/-! ### Completion (R144, R175) -/

theorem InWindow.mono {c : InFlight} {top bot left right top' bot' left' right' w h : Nat} {a : Int}
    (ha : InWindow c top bot left right w h a) (h1 : top ≤ top') (h2 : bot ≤ bot') (h3 : left ≤ left')
    (h4 : right ≤ right') : InWindow c top' bot' left' right' w h a := by
  obtain ⟨y, x, hy, hy', hx, hx', rfl⟩ := ha
  exact ⟨y, x, by omega, by omega, by omega, by omega, rfl⟩

/-- A command with smaller margins is ready where one with larger margins is. -/
theorem InterpReady.mono {s : State} {c : InFlight} {w : Width} {h : BitVec 6}
    {top bot left right top' bot' left' right' : Nat} (hr : InterpReady s c w h top' bot' left' right') (h1 : top ≤ top')
    (h2 : bot ≤ bot') (h3 : left ≤ left') (h4 : right ≤ right') : InterpReady s c w h top bot left right where
  running := hr.running
  height := hr.height
  stride := hr.stride
  source a ha := hr.source a (ha.mono h1 h2 h3 h4)
  dest := hr.dest
  apart a ha := hr.apart a (ha.mono h1 h2 h3 h4)

section completion
variable {s : State} {c : InFlight} {w : Width} {h : BitVec 6} {ht vt : TapCount} {sels : List (BitVec 3)} {i : Instr}

/-- An interpolation command that is ready, with its selectors in range, completes with its effect. -/
theorem exec_interp (hr : InterpReady s c w h vt.lo vt.hi ht.lo ht.hi) (hsel : ∀ sel ∈ sels, sel ≠ 0)
    (hp : planOf i c = interpPlan (heightLegal h) sels ht vt w.cols h.toNat c := by rfl) :
    exec i s = .next (s.completedWith c (effectOf i c s.mem)) := by
  rw [exec_eq_runCommand]
  refine runCommand_completes hr.running ?_
  rw [hp]
  exact interpPlan_passes ((heightLegal_iff h).mpr hr.height) hsel hr

/-- The window of a ready command holds the samples its bytes do. -/
theorem InterpReady.constantSource (hr : InterpReady s c w h vt.lo vt.hi ht.lo ht.hi) {v : Byte}
    (hv : ∀ b : Nat, InWindow c vt.lo vt.hi ht.lo ht.hi w.cols h.toNat b → s.mem.read b = v) :
    ConstantSource c s.mem ht vt w.cols h.toNat v.toNat := by
  intro y x h1 h2 h3 h4
  have hin : InWindow c vt.lo vt.hi ht.lo ht.hi w.cols h.toNat (c.aux + y * c.sstride + x) := ⟨y, x, h1, h2, h3, h4, rfl⟩
  obtain ⟨h0, -⟩ := hr.source _ hin
  rw [srcPx, px, hv _ (by rwa [Int.toNat_of_nonneg h0])]

/-- A ready command completes and leaves a constant block when a constant source makes it store one. -/
theorem exec_interp_const (hr : InterpReady s c w h vt.lo vt.hi ht.lo ht.hi) {v : Byte}
    (hv : ∀ b : Nat, InWindow c vt.lo vt.hi ht.lo ht.hi w.cols h.toNat b → s.mem.read b = v)
    (hsel : ∀ sel ∈ sels, sel ≠ 0) {l : List Store}
    (hl : ConstantSource c s.mem ht vt w.cols h.toNat v.toNat →
      l = blockStores c.dst c.dstride w.cols h.toNat fun _ _ => (v.toNat : Int))
    (hp : planOf i c = interpPlan (heightLegal h) sels ht vt w.cols h.toNat c := by rfl)
    (he : effectOf i c s.mem = s.mem.storeAll l := by rfl) :
    CompletesWith (exec i s) s c (InBlock c.dst c.dstride w.cols h.toNat)
      fun m => BlockHolds m c.dst c.dstride w.cols h.toNat fun _ _ => (v.toNat : Int) := by
  obtain ⟨-, -, hm⟩ := hr.running
  have hbyte : (0 : Int) ≤ v.toNat ∧ (v.toNat : Int) ≤ 255 := by have := v.isLt; omega
  refine ⟨_, exec_interp hr hsel hp, ?_, ?_, fun a ha => ?_⟩ <;> rw [he, hl (hr.constantSource hv)]
  · exact Memory.storeAll_wf hm _
  · exact blockStores_holds hm hr.stride (fun a ha => (hr.dest a ha).2.1) fun _ _ => hbyte
  · exact Memory.storeAll_read_other hm fun p hp he => ha (he ▸ addr_blockStores hp)

end completion

/-- The selector of a one-pass command, as its plan lists it. -/
theorem selector_ne_zero {a : BitVec 3} (ha : a ≠ 0) : ∀ sel ∈ [a], sel ≠ 0 := List.forall_mem_singleton.mpr ha

/-- The selectors of a two-pass command, as its plan lists them. -/
theorem selectors_ne_zero {a b : BitVec 3} (ha : a ≠ 0) (hb : b ≠ 0) : ∀ sel ∈ [a, b], sel ≠ 0 :=
  List.forall_mem_cons.mpr ⟨ha, selector_ne_zero hb⟩

/-- Settles O57: both commands complete, and with equal stores. -/
theorem oddSelectorSixTap : Obligations.OddSelectorSixTap := by
  intro s c w h mx my hmx hmy
  have hx := selector_ne_zero (ne_zero_of_odd hmx)
  have hy := selector_ne_zero (ne_zero_of_odd hmy)
  have hxy := selectors_ne_zero (ne_zero_of_odd hmx) (ne_zero_of_odd hmy)
  refine ⟨fun hr => ?_, fun hr => ?_, fun hr => ?_⟩
  · have h4 : InterpReady s c w h 0 0 1 2 := hr.mono (by decide) (by decide) (by decide) (by decide)
    refine ⟨_, exec_interp (ht := .six) (vt := .none) hr hx, ?_⟩
    rw [exec_interp (ht := .four) (vt := .none) h4 hx]
    simp only [effectOf, hStores_six_of_odd hmx]
  · have h4 : InterpReady s c w h 1 2 0 0 := hr.mono (by decide) (by decide) (by decide) (by decide)
    refine ⟨_, exec_interp (ht := .none) (vt := .six) hr hy, ?_⟩
    rw [exec_interp (ht := .none) (vt := .four) h4 hy]
    simp only [effectOf, vStores_six_of_odd hmy]
  · have h44 : InterpReady s c w h 1 2 1 2 := hr.mono (by decide) (by decide) (by decide) (by decide)
    have h64 : InterpReady s c w h 1 2 2 3 := hr.mono (by decide) (by decide) (by decide) (by decide)
    have h46 : InterpReady s c w h 2 3 1 2 := hr.mono (by decide) (by decide) (by decide) (by decide)
    refine ⟨_, exec_interp (ht := .six) (vt := .six) hr hxy, ?_, ?_, ?_⟩
    · rw [exec_interp (ht := .four) (vt := .four) h44 hxy]
      simp only [effectOf, hvStores_six_left_of_odd hmx, hvStores_six_right_of_odd hmy]
    · rw [exec_interp (ht := .six) (vt := .four) h64 hxy]
      simp only [effectOf, hvStores_six_right_of_odd hmy]
    · rw [exec_interp (ht := .four) (vt := .six) h46 hxy]
      simp only [effectOf, hvStores_six_left_of_odd hmx]

/-- Settles O56: in each command every kernel sees the constant and answers it, so the stores are a constant block. -/
theorem constantsPreserved : Obligations.ConstantsPreserved := by
  intro s c w h mx my v
  have hv0 : (0 : Int) ≤ v.toNat := Int.natCast_nonneg _
  have hv1 : (v.toNat : Int) ≤ 255 := by have := v.isLt; omega
  have six {sel : BitVec 3} (hsel : sel ≠ 0) := firPass_six_const hsel hv0 hv1
  have four {sel : BitVec 3} (hsel : sel.toNat % 2 = 1) := firPass_four_const hsel hv0 hv1
  refine ⟨fun hx hr hw => ?_, fun hy hr hw => ?_, fun hx hy hr hw => ?_, fun hx hr hw => ?_, fun hy hr hw => ?_,
    fun hx hy hr hw => ?_, fun hx hy hr hw => ?_, fun hx hy hr hw => ?_, fun hr hw => ?_, fun hr hw => ?_, fun hr hw => ?_⟩
  · exact exec_interp_const (ht := .six) (vt := .none) hr hw (selector_ne_zero hx) fun hs => hStores_const hs (six hx)
  · exact exec_interp_const (ht := .none) (vt := .six) hr hw (selector_ne_zero hy) fun hs => vStores_const hs (six hy)
  · exact exec_interp_const (ht := .six) (vt := .six) hr hw (selectors_ne_zero hx hy) fun hs =>
      hvStores_const hs (six hx) (six hy)
  · exact exec_interp_const (ht := .four) (vt := .none) hr hw (selector_ne_zero (ne_zero_of_odd hx))
      fun hs => hStores_const hs (four hx)
  · exact exec_interp_const (ht := .none) (vt := .four) hr hw (selector_ne_zero (ne_zero_of_odd hy))
      fun hs => vStores_const hs (four hy)
  · exact exec_interp_const (ht := .four) (vt := .four) hr hw (selectors_ne_zero (ne_zero_of_odd hx) (ne_zero_of_odd hy))
      fun hs => hvStores_const hs (four hx) (four hy)
  · exact exec_interp_const (ht := .four) (vt := .six) hr hw (selectors_ne_zero (ne_zero_of_odd hx) hy) fun hs =>
      hvStores_const hs (four hx) (six hy)
  · exact exec_interp_const (ht := .six) (vt := .four) hr hw (selectors_ne_zero hx (ne_zero_of_odd hy)) fun hs =>
      hvStores_const hs (six hx) (four hy)
  · exact exec_interp_const (ht := .two) (vt := .none) hr hw (List.forall_mem_nil _) bilHStores_const
  · exact exec_interp_const (ht := .none) (vt := .two) hr hw (List.forall_mem_nil _) bilVStores_const
  · exact exec_interp_const (ht := .two) (vt := .two) hr hw (List.forall_mem_nil _) bilinHVStores_const

end Sys2Proof.Machine
end

section
/-! SUPPORT. Memory as the commands and the host see it (20_memory R53 to R64): the footprints as the spec's sets, the host's
accesses, FILL, the DC commands over four sub-blocks, and the second run of a command. -/

namespace Sys2Proof.Machine

/-! ### The footprints as the spec's sets (R110 to R112, R143, R175, R184 to R191, R211) -/

/-- An interpolation command reads its source rectangle and writes its block. -/
theorem interpPlan_footprints {legal : Bool} {sels : List (BitVec 3)} {ht vt : TapCount} {w h : Nat} {c : InFlight} {a : Int} :
    (spansHave (interpPlan legal sels ht vt w h c).rf a = true ↔ InWindow c vt.lo vt.hi ht.lo ht.hi w h a) ∧
      (spansHave (interpPlan legal sels ht vt w h c).wf a = true ↔ InBlock c.dst c.dstride w h a) :=
  ⟨spansHave_source .., spansHave_block ..⟩

/-- An IDCT command reads its coefficients and its block, and writes what it reads. -/
theorem idctPlan_footprints {coefs : List Span} {C : Int → Prop} {w h : Nat} {c : InFlight} {a : Int}
    (hC : spansHave coefs a = true ↔ C a) :
    (spansHave (idctPlan coefs w h c).rf a = true ↔ C a ∨ InBlock c.dst c.dstride w h a) ∧
      (spansHave (idctPlan coefs w h c).wf a = true ↔ spansHave (idctPlan coefs w h c).rf a = true) :=
  ⟨spansHave_idct_rf.trans (or_congr_left hC), Iff.rfl⟩

/-- WHT and WHT_DC read their bytes of `dc`, and write them and the slots. -/
theorem whtPlan_footprints {n : Nat} {c : InFlight} {a : Int} :
    (spansHave (whtPlan n c).rf a = true ↔ InBytes c.aux n a) ∧
      (spansHave (whtPlan n c).wf a = true ↔ InBytes c.aux n a ∨ InSlots c a) := by
  refine ⟨spansHave_bytes .., ?_⟩
  rw [← spansHave_bytes, ← spansHave_slots, ← Bool.or_eq_true, ← spansHave_append]
  rfl

/-- `a` is one of the taps `klo .. khi` of a loop filter's planes: of DST, and of AUX as well when PAIR = 1 (R200, R215). -/
def InPlanes (c : InFlight) (pair : Bool) (d : Direction) (n : Nat) (klo khi a : Int) : Prop :=
  InTaps d c.dst c.dstride n klo khi a ∨ (pair = true ∧ InTaps d c.aux c.dstride n klo khi a)

theorem exists_planeBases {pair : Bool} {c : InFlight} {p : Int → Prop} :
    (∃ b ∈ planeBases pair c, p b) ↔ p c.dst ∨ (pair = true ∧ p c.aux) := by
  cases pair <;> simp [planeBases]

/-- A loop filter reads the eight taps of every position and writes those of its kind. -/
theorem filterPlan_footprints {legal pair : Bool} {kind : FilterKind} {d : Direction} {n : Nat} {c : InFlight} {a : Int} :
    (spansHave (filterPlan legal kind d n pair c).rf a = true ↔ InPlanes c pair d n (-4) 3 a) ∧
      (spansHave (filterPlan legal kind d n pair c).wf a = true ↔
        InPlanes c pair d n kind.lo (kind.lo + kind.count - 1) a) :=
  ⟨spansHave_planes.trans exists_planeBases, spansHave_planes.trans exists_planeBases⟩

/-- Settles O8, one clause per command from the footprints of its form. -/
theorem footprintsAreTheSpecs : Obligations.FootprintsAreTheSpecs := by
  intro c w h val e i hev mx my n pair a
  refine ⟨⟨Bool.false_ne_true, spansHave_block ..⟩, ⟨Bool.false_ne_true, spansHave_bytes ..⟩,
    ⟨Bool.false_ne_true, spansHave_bytes ..⟩, interpPlan_footprints, interpPlan_footprints, interpPlan_footprints,
    interpPlan_footprints, interpPlan_footprints, interpPlan_footprints, interpPlan_footprints, interpPlan_footprints,
    interpPlan_footprints, interpPlan_footprints, interpPlan_footprints, interpPlan_footprints,
    idctPlan_footprints (spansHave_bytes ..), idctPlan_footprints (spansHave_bytes ..),
    idctPlan_footprints (spansHave_fourDc ..), idctPlan_footprints (spansHave_fourDc ..),
    whtPlan_footprints, whtPlan_footprints, ?_, filterPlan_footprints, filterPlan_footprints, filterPlan_footprints,
    filterPlan_footprints⟩
  rintro rfl
  exact ⟨filterPlan_footprints.1, filterPlan_footprints.2, filterPlan_footprints.1, filterPlan_footprints.2⟩

/-! ### The host's accesses (R52, R63) -/

/-- With no command in flight and no completion unread, a store changes one byte of memory. -/
theorem State.storeByte_idle {s : State} (hb : s.status.busy = false) (hd : s.duties = []) (a : Int) (v : Byte) :
    s.storeByte a v = { s with mem := s.mem.write a v } := by
  rw [State.storeByte_of_no_duty hd, State.inFlightFootprint_idle hb, Bool.or_false]

/-- ST16 with no command in flight and no completion unread, low byte first. -/
theorem State.hostStore16_idle {s : State} (hb : s.status.busy = false) (hd : s.duties = []) (a : Word) (v : Half) :
    s.hostStore16 a v =
      { s with mem := (s.mem.write a.toNat (v.extractLsb' 0 8)).write (a.toNat + 1 : Nat) (v.extractLsb' 8 8) } := by
  rw [State.hostStore16, State.storeByte_idle hb hd, State.storeByte_idle]
  · simp
  · exact hb
  · exact hd

/-- LD16 with no command in flight and no completion unread, low byte first. -/
theorem State.hostLoad16_idle {s : State} (hb : s.status.busy = false) (hd : s.duties = []) (a : Word) :
    s.hostLoad16 a = { s with hostReads :=
      (s.mem.read (a.toNat + 1) ++ s.mem.read a.toNat : Half).setWidth 32 :: s.hostReads } := by
  have hhi : ((a.toNat : Int) + 1).toNat = a.toNat + 1 := by omega
  simp [State.hostLoad16, State.loadByte_idle hb hd, hhi]

/-- Two bytes joined, high byte first, as the number LD16 answers. -/
theorem toNat_bytes (hi lo : Byte) : ((hi ++ lo : Half).setWidth 32).toNat = lo.toNat + 256 * hi.toNat := by
  have hlo := lo.isLt
  have hhi := hi.isLt
  rw [BitVec.toNat_setWidth, BitVec.toNat_append, ← Nat.shiftLeft_add_eq_or_of_lt hlo, Nat.shiftLeft_eq]
  omega

/-- An access of two bytes at an odd address is refused (R63, log 12). -/
theorem memoryAccess_odd {a : Word} (h : a.toNat % 2 = 1) (map : MemMap) (t : State) :
    memoryAccess map a 2 t = .refused (.hostMisaligned a) := by
  simp [memoryAccess, h]

/-- Settles O29: an idle host's store is one or two writes of memory, its load what memory holds. -/
theorem hostMemoryAccess : Obligations.HostMemoryAccess := by
  intro again s a hm hb hd hblock
  have hlim : a.toNat < Config.addrLimit := a.isLt
  refine ⟨fun v => ⟨s.mem.write a.toNat v, ?_, Memory.write_wf hm _ _, Memory.read_write_same hm v hlim, fun b hne =>
    Memory.read_write_other hm v (by exact_mod_cast hne)⟩, ?_, fun heven hblock' => ⟨fun v => ?_, ?_⟩, fun hodd =>
    ⟨memoryAccess_odd hodd .., fun v => memoryAccess_odd hodd ..⟩⟩
  · rw [hostAction, memoryAccess_one hblock, State.storeByte_idle hb hd]
  · rw [hostAction, memoryAccess_one hblock, State.hostLoad8, State.loadByte_idle hb hd]
    rfl
  · have hlim' : a.toNat + 1 < Config.addrLimit := by simp only [Config.addrLimit] at hlim ⊢; omega
    have hm1 := Memory.write_wf hm a.toNat (v.extractLsb' 0 8)
    refine ⟨_, ?_, Memory.write_wf hm1 _ _, ?_, Memory.read_write_same hm1 _ hlim', fun b h0 h1 => ?_⟩
    · rw [hostAction, memoryAccess_two heven hblock hblock', State.hostStore16_idle hb hd]
    · rw [Memory.read_write_other hm1 _ (by omega), Memory.read_write_same hm _ hlim]
    · rw [Memory.read_write_other hm1 _ (by omega), Memory.read_write_other hm _ (by omega)]
  · refine ⟨_, ?_, toNat_bytes ..⟩
    rw [hostAction, memoryAccess_two heven hblock hblock', State.hostLoad16_idle hb hd]

/-! ### FILL (R110) -/

/-- Settles O33: FILL's checks pass, and its stores are one constant block. -/
theorem fillCompletes : Obligations.FillCompletes := by
  intro s c w h val hr hw hh hs ha
  have hval := val.isLt
  have hlegal : (Instr.fill w h val).wellFormed = true := by
    rw [Instr.wellFormed, (heightLegal_iff h).mpr hh, decide_eq_true hw]
    rfl
  exact runCommand_block (f := fun _ _ _ _ => (val.toNat : Int)) hr (fillPlan_passes hlegal hs ha) hs ha
    fun _ _ => ⟨by omega, by omega⟩

/-! ### The DC commands over four sub-blocks (R187, R188) -/

/-- Four 4×4 sub-blocks, the `k`-th at row `row k`, column `col k`, tile a `w × h` block; `sub y x` is the one that holds sample
`(y, x)`. -/
structure Tiles (w h : Nat) (row col : Nat → Nat) (sub : Nat → Nat → Nat) : Prop where
  fits : ∀ k < 4, row k + 4 ≤ h ∧ col k + 4 ≤ w
  sub_tile : ∀ k < 4, ∀ y < 4, ∀ x < 4, sub (row k + y) (col k + x) = k
  covers : ∀ y < h, ∀ x < w, sub y x < 4 ∧ (row (sub y x) ≤ y ∧ y < row (sub y x) + 4) ∧
    col (sub y x) ≤ x ∧ x < col (sub y x) + 4

/-- The 16×4 strip of IDCT_DC_ADD4Y, side by side (R187). -/
theorem tiles_4y : Tiles 16 4 (fun _ => 0) (fun k => 4 * k) (fun _ x => x / 4) where
  fits k hk := by omega
  sub_tile k hk y hy x hx := by omega
  covers y hy x hx := by omega

/-- The 8×8 region of IDCT_DC_ADD4UV, in raster order (R188). -/
theorem tiles_4uv : Tiles 8 8 (fun k => 4 * (k / 2)) (fun k => 4 * (k % 2)) (fun y x => 2 * (y / 4) + x / 4) where
  fits k hk := by omega
  sub_tile k hk y hy x hx := by omega
  covers y hy x hx := by omega

section tiles
variable {w h : Nat} {row col : Nat → Nat} {sub : Nat → Nat → Nat}

/-- A sub-block lies in the block it tiles. -/
theorem Tiles.inBlock (ht : Tiles w h row col sub) {base stride a : Int} {k : Nat} (hk : k < 4)
    (ha : InBlock (base + row k * stride + col k) stride 4 4 a) : InBlock base stride w h a := by
  obtain ⟨y, x, hy, hx, rfl⟩ := ha
  obtain ⟨hrow, hcol⟩ := ht.fits k hk
  exact ⟨row k + y, col k + x, by omega, by omega, by push_cast; ring⟩

/-- A DC command over four sub-blocks that is ready completes: sub-block `k` takes the DC value at AUX + 32k, and the four DC
entries are zeroed (R185). -/
theorem runCommand_dcAddFour (ht : Tiles w h row col sub) {i : Instr} {s : State} {c : InFlight}
    {base : InFlight → Nat → Int} (hr : IdctReady s c (InFourDc c) w h)
    (hbase : ∀ k, base c k = c.dst + row k * c.dstride + col k)
    (hp : planOf i c = idctPlan (fourDcSpans c) w h c := by rfl) :
    CompletesWith (runCommand i (fun c m => m.storeAll ((List.range 4).flatMap fun (k : Nat) =>
        dcAddStores m (base c k) c.dstride (c.aux + 32 * k))) s) s c
      (fun a => InFourDc c a ∨ InBlock c.dst c.dstride w h a)
      fun m => (∀ k : Nat, k < 4 → ZeroBytes m (c.aux + 32 * k) 2) ∧ BlockHolds m c.dst c.dstride w h fun y x =>
        clipU8 (dstPx c s.mem y x + asr (cf s.mem (c.aux + 32 * (sub y x : Int)) + 4) 3) := by
  obtain ⟨-, -, hm⟩ := hr.running
  have hin : ∀ k < 4, ∀ a, InBlock (base c k) c.dstride 4 4 a → InBlock c.dst c.dstride w h a :=
    fun k hk a ha => ht.inBlock hk (hbase k ▸ ha)
  have hsep : ∀ k < 4, ∀ j < 4, ∀ y x y' x' : Nat, y < 4 → x < 4 → y' < 4 → x' < 4 →
      row k + y = row j + y' → col k + x = col j + x' → k = j := by
    intro k hk j hj y x y' x' hy hx hy' hx' hrow hcol
    rw [← ht.sub_tile k hk y hy x hx, hrow, hcol, ht.sub_tile j hj y' hy' x' hx']
  refine runCommand_stores (f := fun c m => (List.range 4).flatMap fun (k : Nat) =>
    dcAddStores m (base c k) c.dstride (c.aux + 32 * k)) hr.running (hp ▸ idctPlan_passes (spansHave_fourDc c) hr)
    (fun p hpm => ?_) ⟨fun k hk => ?_, fun y x b hy hx hb => ?_⟩
  · obtain ⟨k, hk, hpm⟩ := List.mem_flatMap.mp hpm
    have hk := List.mem_range.mp hk
    exact (addr_dcAddStores hpm).symm.imp (fun hc => ⟨k, hk, hc⟩) (hin k hk p.1)
  · exact dcAdds_zero (ca := fun k => c.aux + 32 * k) hm (fun k hk a ha => (hr.coefs a ⟨k, hk, ha⟩).2.1)
      (fun k hk j hj a ha hab => hr.apart a ⟨k, hk, ha⟩ (hin j hj a hab)) hk
  · obtain ⟨hk, ⟨hr0, hr1⟩, hc0, hc1⟩ := ht.covers y hy x hx
    have hbk : (b : Int) = base c (sub y x) + (y - row (sub y x) : Nat) * c.dstride + (x - col (sub y x) : Nat) := by
      rw [hb, hbase]
      push_cast [hr0, hc0]
      ring
    rw [dcAdds_block (ca := fun k => c.aux + 32 * k) hm hbase hr.stride ht.fits (fun a ha => (hr.pixels a ha).2.1)
      (fun k hk a ha => hr.apart a ⟨k, hk, ha⟩) hsep hk (by omega) (by omega) hbk, hb]
    rfl

end tiles

/-- Settles O43: both commands are DC adds over sub-blocks that tile their block. -/
theorem idctDcAddFourCompletes : Obligations.IdctDcAddFourCompletes := by
  intro s c
  refine ⟨fun hr => ?_, fun hr => ?_⟩
  · exact runCommand_dcAddFour tiles_4y (i := .idctDcAdd4y) (base := fun c k => c.dst + 4 * k) hr fun k => by
      push_cast; ring
  · exact runCommand_dcAddFour tiles_4uv (i := .idctDcAdd4uv)
      (base := fun c k => c.dst + 4 * ((k / 2 : Nat) : Int) * c.dstride + 4 * ((k % 2 : Nat) : Int)) hr fun k => by
      push_cast; ring

/-! ### A second run (R64, R113) -/

/-- A command accepted with DONE = 0 that answers its completion passed its checks, and memory is its effect's. -/
theorem effect_of_completedWith {i : Instr} {s : State} {c : InFlight} {m : Memory} (hr : Running s c)
    (hdone : s.status.done = false) (h : exec i s = .next (s.completedWith c m)) :
    (planOf i c).firstFault c.dstride s.memMap = none ∧ m = effectOf i c s.mem := by
  rw [exec_eq_runCommand] at h
  cases hk : (planOf i c).firstFault c.dstride s.memMap with
  | some k =>
    rw [runCommand_faults hr hk] at h
    have hd := congrArg (fun t => t.status.done) (Host.Outcome.next.inj h)
    simp [hdone] at hd
  | none =>
    rw [runCommand_completes hr hk] at h
    exact ⟨rfl, (congrArg State.mem (Host.Outcome.next.inj h)).symm⟩

/-- A command that reads no byte it writes has the same effect on what it left as on what it found (R64). -/
theorem effectOf_twice {i : Instr} {c : InFlight} {m : Memory} (hm : m.wf = true) {stride : Int} {map : MemMap}
    (hpass : (planOf i c).firstFault stride map = none)
    (hapart : ∀ a, spansHave (planOf i c).rf a = true → spansHave (planOf i c).wf a = false) (a : Nat) :
    (effectOf i c (effectOf i c m)).read a = (effectOf i c m).read a := by
  have hm' := effectOf_wf i c hm
  cases ha : spansHave (planOf i c).wf a with
  | true => exact effectOf_agree i hm' hm hpass (fun b hb => effectOf_read_other i c hm (hapart b hb)) a ha
  | false => exact effectOf_read_other i c hm' ha

/-- The claim of R64 for the states a run reaches: acceptance clears DONE (R26), and while BUSY = 1 it stays 0. -/
theorem secondRunChangesNothing_of_done_clear {i : Instr} {s u : State} {c : InFlight} {m : Memory} (hr : Running s c)
    (hdone : s.status.done = false)
    (hapart : ∀ a, spansHave (planOf i c).rf a = true → spansHave (planOf i c).wf a = false)
    (h : exec i s = .next (s.completedWith c m)) (hu : Running u c) (hmap : u.memMap = s.memMap) (hmem : u.mem = m) :
    ∃ m', exec i u = .next (u.completedWith c m') ∧ ∀ a : Nat, m'.read a = m.read a := by
  have ⟨_, _, hm⟩ := hr
  obtain ⟨hpass, rfl⟩ := effect_of_completedWith hr hdone h
  refine ⟨effectOf i c u.mem, ?_, fun a => ?_⟩
  · rw [exec_eq_runCommand, runCommand_completes hu (hmap ▸ hpass)]
  · rw [hmem, effectOf_twice hm hpass hapart]

/-- FILL of one row with DSTRIDE = 0, which takes BAD_STRIDE. -/
def zeroStrideFill : InFlight := { word := encode (.fill .w8 1 0), x0 := 0, x1 := 0, x2 := 0, x3 := 0 }

/-- `zeroStrideFill` in flight as acceptance leaves it from reset. -/
def zeroStrideRun : State :=
  { State.reset with cur := some zeroStrideFill, cmd := zeroStrideFill.word, status := { Status.reset with busy := true } }

/-- `zeroStrideFill` in flight beside DONE and the very fault it will take. -/
def zeroStrideDoneRun : State :=
  { zeroStrideRun with
    status := { busy := true, done := true, err := true, ovr := false, cause := some .badStride }
    errinfo := zeroStrideFill.word }

/-- Refutes O60: the statement asks only that the first run answer the state `completedWith` names, and where DONE, ERR, CAUSE and
ERRINFO already hold what the fault sets, a fault answers that state too. The command then faults again from a state where ERR was
0, which is no completion. No run reaches the first state (`State.Inv`); `secondRunChangesNothing_of_done_clear` is the claim
for DONE = 0. -/
theorem not_secondRunChangesNothing : ¬ Obligations.SecondRunChangesNothing := by
  intro h
  have hfault : ∀ s : State, Running s zeroStrideFill →
      exec (.fill .w8 1 0) s = .next (s.faultedWith zeroStrideFill .badStride) := fun s hr => by
    rw [exec_eq_runCommand, runCommand_faults hr rfl]
  have hsame : zeroStrideDoneRun.faultedWith zeroStrideFill .badStride =
      zeroStrideDoneRun.completedWith zeroStrideFill [] := rfl
  have hr : Running zeroStrideDoneRun zeroStrideFill := ⟨rfl, rfl, rfl⟩
  have hu : Running zeroStrideRun zeroStrideFill := ⟨rfl, rfl, rfl⟩
  obtain ⟨m', hm', -⟩ := h (.fill .w8 1 0) zeroStrideDoneRun zeroStrideRun zeroStrideFill []
    hr (fun a ha => absurd ha Bool.false_ne_true) (hsame ▸ hfault _ hr) hu rfl rfl
  have herr := congrArg (fun t => t.status.err) (Host.Outcome.next.inj ((hfault _ hu).symm.trans hm'))
  exact Bool.noConfusion herr

end Sys2Proof.Machine
end

section
/-! SUPPORT. The encoder and the decoder are inverse (30_encoding R81 to R101), each way: a well-formed command is read back from
its word, and a word legal for a row of the opcode table is the word of a well-formed command of that row. The proofs of
DecodeOfEncode, EncodeOfDecode, DecodeAcceptsTheTable and WorkedEncodings. -/

namespace Sys2Proof

/-! ### The decoder on an encoded word (R81 to R92) -/

/-- The format-P decoder reads a word whose width, height and reserved fields pass its checks. -/
theorem decodeP_encodeP {opc : BitVec 6} {w : Width} {h : BitVec 6} {mx my : BitVec 3} {val : Byte} {widths : Width → Bool}
    {zero : Bool} (k : Width → Instr) (hw : widths w = true) (hh : heightLegal h = true) (hz : zero = true) :
    decodeP (encodeP opc w h mx my val) widths zero k = .ok (k w) := by
  obtain ⟨-, hwsel, hheight, -, -, hz4, -⟩ := encodeP_fields opc w h mx my val
  simp [decodeP, hwsel, hheight, hz4, widthOf_sel, hw, hh, hz]

theorem decodeT_encodeT (opc : BitVec 6) (i : Instr) : decodeT (encodeT opc) i = .ok i := if_pos (encodeT_fields opc).2

theorem decodeSimple_encodeL (opc : BitVec 6) (n : EdgeSpan) (e : Byte) (k : EdgeSpan → Byte → Instr) :
    decodeSimple (encodeL opc n false e 0#8 0#8) k = .ok (k n e) := by
  obtain ⟨-, hn, hp, he, hi, hh⟩ := encodeL_fields opc n false e 0#8 0#8
  simp [decodeSimple, hn, hp, he, hi, hh, spanOf_sel]

theorem decodeNormal_encodeL (opc : BitVec 6) {n : EdgeSpan} {pair : Bool} (e i hev : Byte)
    (k : EdgeSpan → Bool → Byte → Byte → Byte → Instr) (h : pairLegal n pair = true) :
    decodeNormal (encodeL opc n pair e i hev) k = .ok (k n pair e i hev) := by
  obtain ⟨-, hn, hp, he, hi, hh⟩ := encodeL_fields opc n pair e i hev
  have hflag : decide (BitVec.ofBool pair = 1) = pair := by cases pair <;> rfl
  simp only [decodeNormal, hn, hp, he, hi, hh, spanOf_sel, hflag, h, if_true]

/-- The decoder reads a well-formed command back from its word: the opcode picks the command, and its format's decoder the
operands. -/
theorem decode_encode {i : Instr} (h : i.wellFormed = true) : decode (encode i) = .ok i := by
  cases i
  case fill w h' val =>
    obtain ⟨hw, hh⟩ : w ≠ .w4 ∧ heightLegal h' = true := by simpa [Instr.wellFormed] using h
    simp [encode, decode, encodeP_fields, decodeP_encodeP, fillWidth, hw, hh]
  case copy | epelV4 | epelV6 | epelH4 | epelH4V4 | epelH4V6 | epelH6 | epelH6V4 | epelH6V6 | bilinV | bilinH | bilinHV =>
    have hw (w : Width) : anyWidth w = true := rfl
    simp only [Instr.wellFormed] at h
    simp [encode, decode, encodeP_fields, decodeP_encodeP, hw, h]
  case clr1 | clr24 | idctAdd | idctDcAdd | idctDcAdd4y | idctDcAdd4uv | wht | whtDc =>
    simp [encode, decode, encodeT_fields, decodeT_encodeT]
  case lfsV | lfsH =>
    simp [encode, decode, encodeL_fields, decodeSimple_encodeL]
  case lfiV | lfiH | lfmV | lfmH =>
    rw [Instr.wellFormed] at h
    simp [encode, decode, encodeL_fields, decodeNormal_encodeL, h]

/-- Settles O1, by the format of the command. -/
theorem decodeOfEncode : Obligations.DecodeOfEncode := fun _ => decode_encode

/-- Settles O4: the commands are well formed and the words theirs, so the words are read back. -/
theorem workedEncodings : Obligations.WorkedEncodings := by
  intro p hp
  suffices h : p.2.wellFormed = true ∧ encode p.2 = p.1 from ⟨h.2, h.2 ▸ decode_encode h.1⟩
  revert p
  decide

/-! ### A word legal for a row is the word of a command of that row (R101) -/

/-- In a field the mask fixes, a word that belongs to a row has the row's pattern. -/
theorem field_of_masked {w m p : Word} (h : w &&& m = p) {lo len : Nat} (hm : m.extractLsb' lo len = BitVec.allOnes len) :
    w.extractLsb' lo len = p.extractLsb' lo len := by
  rw [← h, field_and, hm, BitVec.and_allOnes]

theorem TableRow.legal_iff {r : TableRow} {w : Word} :
    r.legal w = true ↔ w &&& r.mask = r.pattern ∧ r.constraint.holds w = true := by
  simp [TableRow.legal]

/-- A height the table admits is legal for the decoder. -/
theorem heightLegal_of_bits {w : Word} (h : 1 ≤ w.toNat / 2 ^ 18 % 64 ∧ w.toNat / 2 ^ 18 % 64 ≤ 32) :
    heightLegal (heightOf w) = true := by
  rw [Machine.heightLegal_iff, heightOf, field_toNat]
  exact h

/-- A selector other than 3 names a width (R84). -/
theorem exists_widthOf : ∀ s : BitVec 2, s.toNat ≠ 3 → ∃ wd, widthOf s = some wd
  | 0, _ => ⟨.w4, rfl⟩
  | 1, _ => ⟨.w8, rfl⟩
  | 2, _ => ⟨.w16, rfl⟩
  | 3, h => absurd rfl h

/-- What the constraints of a format-P row say of the fields; FILL's leave out width 4 (R87, R88). -/
theorem fields_of_block {k : TableConstraint} (hk : k = .block ∨ k = .fillBlock) {w : Word} (h : k.holds w = true) :
    ∃ wd, widthOf (wselOf w) = some wd ∧ heightLegal (heightOf w) = true ∧ (k = .fillBlock → wd ≠ .w4) := by
  have hsel : (wselOf w).toNat = w.toNat / 2 ^ 24 % 4 := field_toNat w 24 2
  rcases hk with rfl | rfl <;> simp only [TableConstraint.holds, Bool.and_eq_true, decide_eq_true_eq, ← hsel] at h
  · obtain ⟨wd, hwd⟩ := exists_widthOf _ h.1
    exact ⟨wd, hwd, heightLegal_of_bits h.2, nofun⟩
  · obtain ⟨wd, hwd⟩ := exists_widthOf (wselOf w) (by omega)
    refine ⟨wd, hwd, heightLegal_of_bits h.2, ?_⟩
    rintro - rfl
    have h0 : (wselOf w).toNat = 0 := congrArg BitVec.toNat (widthOf_some hwd).symm
    omega

theorem pairLegal_of_holds {w : Word} (h : TableConstraint.planes.holds w = true) :
    pairLegal (spanOf (nselOf w)) (decide (pairOf w = 1)) = true := by
  have hn : w.toNat / 2 ^ 25 % 2 = (nselOf w).toNat := (field_toNat w 25 1).symm
  have hp : w.toNat / 2 ^ 24 % 2 = (pairOf w).toNat := (field_toNat w 24 1).symm
  simp only [TableConstraint.holds, hn, hp] at h
  revert h
  generalize nselOf w = n
  generalize pairOf w = p
  revert n p
  decide

/-- `w` is the word of a well-formed command with the row's mnemonic. -/
def IsWordOfRow (r : TableRow) (w : Word) : Prop :=
  ∃ i : Instr, i.wellFormed = true ∧ encode i = w ∧ i.mnemonic = r.mnemonic

/-- A format-P row: `cmd` is its command by all the fields, those the mask fixes being zero. -/
theorem isWordOfRow_P {r : TableRow} {w : Word} (cmd : Width → BitVec 6 → BitVec 3 → BitVec 3 → Byte → Instr)
    (hwf : ∀ wd h mx my val, heightLegal h = true → (r.constraint = .fillBlock → wd ≠ .w4) →
      (cmd wd h mx my val).wellFormed = true := by simp +contextual [Instr.wellFormed])
    (he : ∀ wd h mx my val, (mxOf r.mask = 7 → mx = 0) → (myOf r.mask = 7 → my = 0) →
      (valOf r.mask = 255 → val = 0) → encode (cmd wd h mx my val) = encodeP (opcOf r.pattern) wd h mx my val := by
        simp +decide +contextual [encode, opcOf])
    (hm : ∀ wd h mx my val, (cmd wd h mx my val).mnemonic = r.mnemonic := by exact fun _ _ _ _ _ => rfl)
    (hf : r.FormatP ∧ z4Of r.mask = 15 := by decide)
    (hc : r.constraint = .block ∨ r.constraint = .fillBlock := by decide) (h : r.legal w = true) : IsWordOfRow r w := by
  obtain ⟨hbits, hholds⟩ := TableRow.legal_iff.mp h
  obtain ⟨wd, hw, hh, hfill⟩ := fields_of_block hc hholds
  obtain ⟨⟨⟨hop, -, -⟩, hpat⟩, hz⟩ := hf
  have hfields := encodeP_fields (opcOf r.pattern) .w4 0 0 0 0
  rw [← hpat] at hfields
  obtain ⟨-, -, -, pmx, pmy, pz, pval⟩ := hfields
  refine ⟨cmd wd (heightOf w) (mxOf w) (myOf w) (valOf w), hwf _ _ _ _ _ hh hfill, ?_, hm ..⟩
  calc
    _ = encodeP (opcOf r.pattern) wd (heightOf w) (mxOf w) (myOf w) (valOf w) :=
      he _ _ _ _ _ (fun hx => (field_of_masked hbits hx).trans pmx) (fun hy => (field_of_masked hbits hy).trans pmy)
        fun hv => (field_of_masked hbits hv).trans pval
    _ = encodeP (opcOf w) wd (heightOf w) (mxOf w) (myOf w) (valOf w) := by rw [opcOf, opcOf, field_of_masked hbits hop]
    _ = w := encodeP_of_fields hw ((field_of_masked hbits hz).trans pz)

/-- A format-T row is the one word of its command. -/
theorem isWordOfRow_T {r : TableRow} {w : Word} (i : Instr) (he : encode i = r.pattern := by decide)
    (hwf : i.wellFormed = true := by rfl) (hm : i.mnemonic = r.mnemonic := by rfl)
    (hmask : r.mask = BitVec.allOnes 32 := by decide) (h : r.legal w = true) : IsWordOfRow r w := by
  obtain ⟨hbits, -⟩ := TableRow.legal_iff.mp h
  rw [hmask, BitVec.and_allOnes] at hbits
  exact ⟨i, hwf, he.trans hbits.symm, hm⟩

/-- A format-L row: `cmd` is its command by all the fields, those the mask fixes being zero. -/
theorem isWordOfRow_L {r : TableRow} {w : Word} (cmd : EdgeSpan → Bool → Byte → Byte → Byte → Instr)
    (hwf : ∀ n pair e i hev, (r.constraint = .planes → pairLegal n pair = true) →
      (cmd n pair e i hev).wellFormed = true := by simp [Instr.wellFormed])
    (he : ∀ n pair e i hev, (pairOf r.mask = 1 → pair = false) → (iOf r.mask = 255 → i = 0) →
      (hevOf r.mask = 255 → hev = 0) → encode (cmd n pair e i hev) = encodeL (opcOf r.pattern) n pair e i hev := by
        simp +decide +contextual [encode, opcOf])
    (hm : ∀ n pair e i hev, (cmd n pair e i hev).mnemonic = r.mnemonic := by exact fun _ _ _ _ _ => rfl)
    (hf : r.FormatL := by decide) (h : r.legal w = true) : IsWordOfRow r w := by
  obtain ⟨hbits, hholds⟩ := TableRow.legal_iff.mp h
  obtain ⟨⟨hop, -, -⟩, hpat⟩ := hf
  have hfields := encodeL_fields (opcOf r.pattern) .n8 false 0 0 0
  rw [← hpat] at hfields
  obtain ⟨-, -, ppair, -, pi, phev⟩ := hfields
  have hpair (hp : pairOf r.mask = 1) : decide (pairOf w = 1) = false := by
    rw [pairOf, (field_of_masked hbits hp).trans ppair]
    rfl
  refine ⟨cmd (spanOf (nselOf w)) (decide (pairOf w = 1)) (eOf w) (iOf w) (hevOf w),
    hwf _ _ _ _ _ fun hc => pairLegal_of_holds (hc ▸ hholds), ?_, hm ..⟩
  calc
    _ = encodeL (opcOf r.pattern) (spanOf (nselOf w)) (decide (pairOf w = 1)) (eOf w) (iOf w) (hevOf w) :=
      he _ _ _ _ _ hpair (fun hi => (field_of_masked hbits hi).trans pi) fun hv => (field_of_masked hbits hv).trans phev
    _ = encodeL (opcOf w) (spanOf (nselOf w)) (decide (pairOf w = 1)) (eOf w) (iOf w) (hevOf w) := by
      rw [opcOf, opcOf, field_of_masked hbits hop]
    _ = w := encodeL_of_fields w

/-- A word legal for a row of the table is the word of a well-formed command with the row's mnemonic. -/
theorem isWordOfRow_of_legal {w : Word} : ∀ r ∈ opcodeTable, r.legal w = true → IsWordOfRow r w := by
  simp only [opcodeTable, List.forall_mem_cons]
  exact ⟨
    isWordOfRow_P (fun wd h _ _ val => .fill wd h val),
    isWordOfRow_T .clr1,
    isWordOfRow_T .clr24,
    isWordOfRow_P (fun wd h _ _ _ => .copy wd h),
    isWordOfRow_P (fun wd h _ my _ => .epelV4 wd h my),
    isWordOfRow_P (fun wd h _ my _ => .epelV6 wd h my),
    isWordOfRow_P (fun wd h mx _ _ => .epelH4 wd h mx),
    isWordOfRow_P (fun wd h mx my _ => .epelH4V4 wd h mx my),
    isWordOfRow_P (fun wd h mx my _ => .epelH4V6 wd h mx my),
    isWordOfRow_P (fun wd h mx _ _ => .epelH6 wd h mx),
    isWordOfRow_P (fun wd h mx my _ => .epelH6V4 wd h mx my),
    isWordOfRow_P (fun wd h mx my _ => .epelH6V6 wd h mx my),
    isWordOfRow_P (fun wd h _ my _ => .bilinV wd h my),
    isWordOfRow_P (fun wd h mx _ _ => .bilinH wd h mx),
    isWordOfRow_P (fun wd h mx my _ => .bilinHV wd h mx my),
    isWordOfRow_T .idctAdd,
    isWordOfRow_T .idctDcAdd,
    isWordOfRow_T .idctDcAdd4y,
    isWordOfRow_T .idctDcAdd4uv,
    isWordOfRow_T .wht,
    isWordOfRow_T .whtDc,
    isWordOfRow_L (fun n _ e _ _ => .lfsV n e),
    isWordOfRow_L (fun n _ e _ _ => .lfsH n e),
    isWordOfRow_L .lfiV,
    isWordOfRow_L .lfiH,
    isWordOfRow_L .lfmV,
    isWordOfRow_L .lfmH,
    List.forall_mem_nil _⟩

/-- A word that decodes is the word of the well-formed command it decodes to: the row it is legal for has a command of that word,
and the decoder reads that command back. -/
theorem encode_of_decode {w : Word} {i : Instr} (h : decode w = .ok i) : encode i = w ∧ i.wellFormed = true := by
  obtain ⟨r, hr, hl, -⟩ := hasRow_of_decode h
  obtain ⟨j, hj, rfl, -⟩ := isWordOfRow_of_legal r hr hl
  obtain rfl : j = i := Except.ok.inj ((decode_encode hj).symm.trans h)
  exact ⟨rfl, hj⟩

/-- Settles O2, through the row of the opcode table the word is legal for. -/
theorem encodeOfDecode : Obligations.EncodeOfDecode := fun _ _ => encode_of_decode

/-- Settles O3: a word that decodes is legal for the row of its command, and a word legal for a row is a command's of that row. -/
theorem decodeAcceptsTheTable : Obligations.DecodeAcceptsTheTable := by
  refine fun w => ⟨fun i h => hasRow_of_decode h, fun r hr h => ?_⟩
  obtain ⟨i, hi, rfl, hm⟩ := isWordOfRow_of_legal r hr h
  exact ⟨i, decode_encode hi, hm⟩

end Sys2Proof
end

section
/-! SUPPORT. BAD_SELECTOR (30_encoding R90, 60_exceptions R233), WAIT (R98) and the commands MC.EPEL and MC.BILIN choose (R99):
the proofs of SelectorZeroFaults, WaitAction and PseudoInstructionChoice. -/

namespace Sys2Proof.Machine

/-! ### BAD_SELECTOR (R90, R233) -/

/-- BAD_SELECTOR is the second check, so it is the first to fail exactly where the command is legal and a selector is 0. -/
theorem Plan.firstFault_badSelector_iff (p : Plan) (stride : Int) (map : MemMap) :
    p.firstFault stride map = some .badSelector ↔
      p.legal = true ∧ p.selectors.any (fun s => decide (s = 0)) = true := by
  rw [Plan.firstFault]
  cases p.legal
  case false => simp
  case true =>
    cases p.selectors.any fun s => decide (s = 0)
    case false => split_ifs <;> simp_all
    case true => simp

/-- A well-formed command with offset 0 on a filtered axis takes BAD_SELECTOR. -/
theorem exec_badSelector {s : State} {c : InFlight} {i : Instr} (hr : Running s c) (hwf : i.wellFormed = true)
    (hz : SelectorZero i) : exec i s = .next (s.faultedWith c .badSelector) := by
  rw [exec_eq_runCommand]
  refine runCommand_faults hr ((Plan.firstFault_badSelector_iff ..).mpr ⟨?_, (selectorZero_iff i c).mp hz⟩)
  rw [planOf_legal, hwf]

/-- A command that newly reports BAD_SELECTOR has offset 0 on a filtered axis. -/
theorem selectorZero_of_reported {s t : State} {c : InFlight} {i : Instr} (hr : Running s c) (h : exec i s = .next t)
    (ht : t.status.cause = some .badSelector) (hs : s.status.cause ≠ some .badSelector) : SelectorZero i := by
  rw [exec_eq_runCommand] at h
  cases hk : (planOf i c).firstFault c.dstride s.memMap with
  | none =>
    obtain rfl := Host.Outcome.next.inj ((runCommand_completes hr hk).symm.trans h)
    exact absurd ht hs
  | some k =>
    obtain rfl := Host.Outcome.next.inj ((runCommand_faults hr hk).symm.trans h)
    obtain rfl : k = .badSelector := Option.some.inj ht
    exact (selectorZero_iff i c).mpr ((Plan.firstFault_badSelector_iff ..).mp hk).2

/-- Settles O10: each EPEL command named has a selector 0, and COPY and the bilinear commands have none. -/
theorem selectorZeroFaults : Obligations.SelectorZeroFaults := by
  intro s c w h mx my hr hh
  refine ⟨exec_badSelector hr hh rfl, exec_badSelector hr hh rfl, exec_badSelector hr hh rfl, exec_badSelector hr hh rfl,
    fun hz => ⟨exec_badSelector hr hh hz, exec_badSelector hr hh hz, exec_badSelector hr hh hz, exec_badSelector hr hh hz⟩,
    fun t ht hs => ?_⟩
  have never {i : Instr} (hi : ¬ SelectorZero i) : exec i s ≠ .next t := fun h => hi (selectorZero_of_reported hr h ht hs)
  exact ⟨never id, never id, never id, never id⟩

/-! ### WAIT (R98, R266) -/

/-- Settles O32: WAIT keeps the state while BUSY = 1, and else is a read of STATUS that sees BUSY = 0. -/
theorem waitAction : Obligations.WaitAction := by
  intro s rest hh
  have hstep : hostStep s = .next (if s.status.busy then s else State.sawStatus { s with host := rest }) := by
    simp only [hostStep, hh, hostAction]
  refine ⟨fun hb => ?_, fun hb => ?_⟩
  · rw [hstep, if_pos hb]
  · simp only [hstep, State.sawStatus, hb, Bool.false_eq_true, if_false]

/-! ### The pseudo-instructions (R99) -/

theorem offsetOdd_of_even {v : BitVec 3} (h : v.toNat % 2 = 0) : offsetOdd v = false :=
  decide_eq_false (Nat.mod_two_ne_one.mpr h)

/-- MC.EPEL is well formed for a legal height. -/
theorem mcEpel_wellFormed {w : Width} {h : BitVec 6} (mx my : BitVec 3) (hh : heightLegal h = true) :
    (mcEpel w h mx my).wellFormed = true := by
  unfold mcEpel
  split_ifs <;> exact hh

theorem mcBilin_wellFormed {w : Width} {h : BitVec 6} (mx my : BitVec 3) (hh : heightLegal h = true) :
    (mcBilin w h mx my).wellFormed = true := by
  unfold mcBilin
  split_ifs <;> exact hh

/-- MC.EPEL filters an axis only where its offset is not 0. -/
theorem mcEpel_not_selectorZero (w : Width) (h : BitVec 6) (mx my : BitVec 3) : ¬ SelectorZero (mcEpel w h mx my) := by
  unfold mcEpel
  split_ifs <;> simp_all [SelectorZero]

/-- Settles O58, by the parity of each offset. -/
theorem pseudoInstructionChoice : Obligations.PseudoInstructionChoice := by
  intro w h mx my odd even
  have odd_ne {v : BitVec 3} (hv : odd v) : v ≠ 0 ∧ offsetOdd v = true := ⟨ne_zero_of_odd hv, decide_eq_true hv⟩
  have even_ne {v : BitVec 3} (hv : even v) : v ≠ 0 ∧ offsetOdd v = false := ⟨hv.1, offsetOdd_of_even hv.2⟩
  refine ⟨fun hx hy => ?_, fun hx hy => ?_, fun hx hy => ?_, fun hx hy => ?_, fun hx hy => ?_, fun hx hy => ?_,
    fun hx hy => ?_, fun hx hy => ?_, fun hx hy => ?_, fun hx hy => ?_, fun hx hy => ?_, fun hx hy => ?_, fun hx hy => ?_,
    fun hh => ⟨mcEpel_wellFormed mx my hh, mcBilin_wellFormed mx my hh⟩, mcEpel_not_selectorZero w h mx my,
    fun _ => tapRow_odd⟩
  · simp only [mcEpel, hx, hy, ↓reduceIte]
  · simp only [mcEpel, odd_ne hx, hy, ↓reduceIte]
  · simp only [mcEpel, even_ne hx, hy, ↓reduceIte, Bool.false_eq_true]
  · simp only [mcEpel, hx, odd_ne hy, ↓reduceIte]
  · simp only [mcEpel, hx, even_ne hy, ↓reduceIte, Bool.false_eq_true]
  · simp only [mcEpel, odd_ne hx, odd_ne hy, ↓reduceIte]
  · simp only [mcEpel, odd_ne hx, even_ne hy, ↓reduceIte, Bool.false_eq_true]
  · simp only [mcEpel, even_ne hx, odd_ne hy, ↓reduceIte, Bool.false_eq_true]
  · simp only [mcEpel, even_ne hx, even_ne hy, ↓reduceIte, Bool.false_eq_true]
  · simp only [mcBilin, hx, hy, ↓reduceIte]
  · simp only [mcBilin, hx, hy, ↓reduceIte]
  · simp only [mcBilin, hx, hy, ↓reduceIte]
  · simp only [mcBilin, hx, hy, ↓reduceIte]

end Sys2Proof.Machine
end

section
/-! SUPPORT. Clearing coefficient blocks (40_fill_clear R111, R112): the proof of ClearCompletes. -/

namespace Sys2Proof.Machine

/-- A command that clears `n` coefficients at AUX completes and leaves exactly those `2 * n` bytes zero. -/
theorem runCommand_clear {i : Instr} {s : State} {c : InFlight} {n : Nat} (hr : Running s c) (he : c.x2.toNat % 2 = 0)
    (ha : ∀ a, InBytes c.aux (2 * n) a → Accessible s a) (hp : planOf i c = clearPlan (2 * n) c := by rfl) :
    CompletesWith (runCommand i (fun c m => m.storeAll (clearStores n c)) s) s c (InBytes c.aux (2 * n))
      fun m => ZeroBytes m c.aux (2 * n) := by
  have ⟨_, _, hm⟩ := hr
  have hbelow : ∀ a, InBytes c.aux (2 * n) a → a < (Config.addrLimit : Int) := fun a h => (ha a h).2.1
  exact runCommand_stores (f := fun c _ => clearStores n c) hr (hp ▸ clearPlan_passes he ha)
    (fun _ hs => addr_zeroStores hs) (zeroStores_holds hm hbelow)

/-- Settles O34: CLR1 clears 16 coefficients of two bytes, and CLR24 384. -/
theorem clearCompletes : Obligations.ClearCompletes := fun _ _ hr he =>
  ⟨fun ha => runCommand_clear (i := .clr1) (n := 16) hr he ha,
    fun ha => runCommand_clear (i := .clr24) (n := 384) hr he ha⟩

end Sys2Proof.Machine
end

section
/-! SUPPORT. COPY and the EPEL commands (42_interp_epel R140 to R155): what each leaves in its block. The proofs of CopyCompletes,
EpelHorizontalCompletes, EpelVerticalCompletes and EpelTwoPassCompletes. -/

namespace Sys2Proof.Machine

/-! ### The kernels along an axis (R141, R142) -/

/-- The 4-tap kernel at position `p` of a row or a column `v`. -/
theorem fir4_at (f : TapRow) (v : Int → Int) (p : Int) : fir4 f (fun k => v (p + k)) =
    clipU8 (asr (f.f2 * v p - f.f1 * v (p - 1) + f.f3 * v (p + 1) - f.f4 * v (p + 2) + 64) 7) := by
  rw [fir4, add_zero, ← sub_eq_add_neg]

/-- The 6-tap kernel at position `p` of a row or a column `v`. -/
theorem fir6_at (f : TapRow) (v : Int → Int) (p : Int) : fir6 f (fun k => v (p + k)) =
    clipU8 (asr (f.f2 * v p - f.f1 * v (p - 1) + f.f0 * v (p - 2) + f.f3 * v (p + 1) - f.f4 * v (p + 2) +
      f.f5 * v (p + 3) + 64) 7) := by
  rw [fir6, add_zero, ← sub_eq_add_neg, ← sub_eq_add_neg]

theorem clipU8_range (v : Int) : 0 ≤ clipU8 v ∧ clipU8 v ≤ 255 := ⟨clipU8_nonneg v, clipU8_le v⟩

/-! ### Completion (R144, R146) -/

section completion
variable {s : State} {c : InFlight} {w : Width} {h : BitVec 6} {ht vt : TapCount} {sels : List (BitVec 3)} {i : Instr}

/-- A ready interpolation command that stores one block of samples completes and leaves exactly that block. -/
theorem exec_interp_block (hr : InterpReady s c w h vt.lo vt.hi ht.lo ht.hi) (hsel : ∀ sel ∈ sels, sel ≠ 0)
    {f : Nat → Nat → Int} (hf : ∀ y x, 0 ≤ f y x ∧ f y x ≤ 255) {l : List Store}
    (hl : l = blockStores c.dst c.dstride w.cols h.toNat f)
    (hp : planOf i c = interpPlan (heightLegal h) sels ht vt w.cols h.toNat c := by rfl)
    (he : effectOf i c s.mem = s.mem.storeAll l := by rfl) :
    CompletesWith (exec i s) s c (InBlock c.dst c.dstride w.cols h.toNat)
      fun m => BlockHolds m c.dst c.dstride w.cols h.toNat f := by
  obtain ⟨-, -, hm⟩ := hr.running
  refine ⟨_, exec_interp hr hsel hp, ?_, ?_, fun a ha => ?_⟩ <;> rw [he, hl]
  · exact Memory.storeAll_wf hm _
  · exact blockStores_holds hm hr.stride (fun a ha => (hr.dest a ha).2.1) hf
  · exact Memory.storeAll_read_other hm fun p hp hpa => ha (hpa ▸ addr_blockStores hp)

/-- A ready two-pass command leaves the vertical pass over the horizontal filter's bytes: the scratch buffer holds every row that
pass reads. -/
theorem exec_twoPass {mx my : BitVec 3} (hr : InterpReady s c w h vt.lo vt.hi ht.lo ht.hi) (hmx : mx ≠ 0) (hmy : my ≠ 0)
    (hp : planOf i c = interpPlan (heightLegal h) [mx, my] ht vt w.cols h.toNat c := by rfl)
    (he : effectOf i c s.mem = s.mem.storeAll (hvStores ht vt w.cols h.toNat mx my c s.mem) := by rfl) :
    CompletesWith (exec i s) s c (InBlock c.dst c.dstride w.cols h.toNat) fun m =>
      BlockHolds m c.dst c.dstride w.cols h.toNat fun y x => firPass vt my fun k => hFilter ht mx c s.mem (y + k) x :=
  exec_interp_block hr (selectors_ne_zero hmx hmy) (fun _ _ => firPass_range _ _ (hFilter_range ..)) hvStores_eq hp he

end completion

/-- Settles O35: COPY's stores are the block of the source samples. -/
theorem copyCompletes : Obligations.CopyCompletes := fun _ _ _ _ hr =>
  exec_interp_block (ht := .none) (vt := .none) hr (List.forall_mem_nil _) (fun y x => srcPx_range _ _ y x) rfl

/-- Settles O36: each command runs its kernel along the row of the sample. -/
theorem epelHorizontalCompletes : Obligations.EpelHorizontalCompletes := by
  intro s c w h mx hmx
  refine ⟨fun hr => ?_, fun hr => ?_⟩
  · exact exec_interp_block (ht := .four) (vt := .none) hr (selector_ne_zero hmx) (fun _ _ => clipU8_range _)
      (blockStores_congr fun y x _ _ => fir4_at (tapRow mx) (srcPx c s.mem y) x)
  · exact exec_interp_block (ht := .six) (vt := .none) hr (selector_ne_zero hmx) (fun _ _ => clipU8_range _)
      (blockStores_congr fun y x _ _ => fir6_at (tapRow mx) (srcPx c s.mem y) x)

/-- Settles O37: each command runs its kernel along the column of the sample. -/
theorem epelVerticalCompletes : Obligations.EpelVerticalCompletes := by
  intro s c w h my hmy
  refine ⟨fun hr => ?_, fun hr => ?_⟩
  · exact exec_interp_block (ht := .none) (vt := .four) hr (selector_ne_zero hmy) (fun _ _ => clipU8_range _)
      (blockStores_congr fun y x _ _ => fir4_at (tapRow my) (srcPx c s.mem · x) y)
  · exact exec_interp_block (ht := .none) (vt := .six) hr (selector_ne_zero hmy) (fun _ _ => clipU8_range _)
      (blockStores_congr fun y x _ _ => fir6_at (tapRow my) (srcPx c s.mem · x) y)

/-- Settles O38: the four commands are the two-pass form for the four pairs of tap counts. -/
theorem epelTwoPassCompletes : Obligations.EpelTwoPassCompletes := by
  intro s c w h mx my hmx hmy
  refine ⟨fun hr => ?_, fun hr => ?_, fun hr => ?_, fun hr => ?_⟩
  · exact exec_twoPass (ht := .four) (vt := .four) hr hmx hmy
  · exact exec_twoPass (ht := .four) (vt := .six) hr hmx hmy
  · exact exec_twoPass (ht := .six) (vt := .four) hr hmx hmy
  · exact exec_twoPass (ht := .six) (vt := .six) hr hmx hmy

end Sys2Proof.Machine
end

section
/-! SUPPORT. The bilinear commands (43_interp_bilinear R170 to R175): what each leaves in its block. The proofs of
BilinSinglePassCompletes and BilinTwoPassCompletes. -/

namespace Sys2Proof.Machine

theorem bilH_range (mx : BitVec 3) (c : InFlight) (m : Memory) (y x : Int) : 0 ≤ bilH mx c m y x ∧ bilH mx c m y x ≤ 255 :=
  bil_range mx (srcPx_range c m y x) (srcPx_range c m y (x + 1))

theorem bilV_range (my : BitVec 3) (c : InFlight) (m : Memory) (y x : Int) : 0 ≤ bilV my c m y x ∧ bilV my c m y x ≤ 255 :=
  bil_range my (srcPx_range c m y x) (srcPx_range c m (y + 1) x)

/-- Settles O39: each command stores the block of its 2-tap means, and `bilH` and `bilV` are the means the statement writes out. -/
theorem bilinSinglePassCompletes : Obligations.BilinSinglePassCompletes := by
  intro s c w h mx my
  refine ⟨fun hr => ?_, fun hr => ?_⟩
  · exact exec_interp_block (ht := .two) (vt := .none) hr (List.forall_mem_nil _)
      (fun y x => bilH_range mx c s.mem y x) rfl
  · exact exec_interp_block (ht := .none) (vt := .two) hr (List.forall_mem_nil _)
      (fun y x => bilV_range my c s.mem y x) rfl

/-- Settles O40: without its scratch buffer the command stores the vertical means of the horizontal ones, which are bytes. -/
theorem bilinTwoPassCompletes : Obligations.BilinTwoPassCompletes := by
  intro s c w h mx my hr
  exact exec_interp_block (ht := .two) (vt := .two) hr (List.forall_mem_nil _)
    (fun y x => bil_range my (bilH_range mx c s.mem y x) (bilH_range mx c s.mem (y + 1) x)) bilinHVStores_eq

end Sys2Proof.Machine
end

section
/-! SUPPORT. The inverse transforms (44_transform R182 to R192): what each leaves in its block or its DC slots, and what zero
coefficients save. The proofs of IdctAddCompletes, IdctDcAddCompletes, WhtCompletes, WhtDcCompletes and TransformShortcuts. -/

namespace Sys2Proof.Machine

theorem InBytes.mono {base base' a : Int} {n n' : Nat} (ha : InBytes base' n' a) (h0 : base ≤ base')
    (h1 : base' + n' ≤ base + n) : InBytes base n a :=
  ⟨h0.trans ha.1, ha.2.trans_le h1⟩

theorem ZeroBytes.mono {m : Memory} {base base' : Int} {n n' : Nat} (hz : ZeroBytes m base n) (h0 : base ≤ base')
    (h1 : base' + n' ≤ base + n) : ZeroBytes m base' n' :=
  fun b hb => hz b (hb.mono h0 h1)

/-! ### Coefficients cleared after other stores (R183) -/

theorem clearStores_one (c : InFlight) : clearStores 1 c = coefStores c.aux 0 := by simp [clearStores]

theorem clearStores_zeroBytes {m : Memory} (hm : m.wf = true) {c : InFlight} {n : Nat}
    (ha : ∀ a, InBytes c.aux (2 * n) a → a < (Config.addrLimit : Int)) :
    ZeroBytes (m.storeAll (clearStores n c)) c.aux (2 * n) := zeroStores_holds hm ha

theorem clearStores_read_other {m : Memory} (hm : m.wf = true) {c : InFlight} {n b : Nat}
    (hb : ¬ InBytes c.aux (2 * n) b) : (m.storeAll (clearStores n c)).read b = m.read b :=
  Memory.storeAll_read_other hm fun _ hp he => hb (he ▸ addr_zeroStores hp)

/-- A command in flight whose checks pass completes with its effect (R44). -/
theorem exec_of_passes {i : Instr} {s : State} {c : InFlight} (hr : Running s c)
    (hk : (planOf i c).firstFault c.dstride s.memMap = none) :
    exec i s = .next (s.completedWith c (effectOf i c s.mem)) := by
  rw [exec_eq_runCommand, runCommand_completes hr hk]

/-- A command that stores in `B` and then clears `n` coefficients apart from `B` completes: the coefficients are zero, and `B` is
as its stores left it. -/
theorem exec_thenClear {i : Instr} {s : State} {c : InFlight} {n : Nat} {l : List Store} {B : Int → Prop} {R : Memory → Prop}
    (hm : s.mem.wf = true) (hx : exec i s = .next (s.completedWith c (effectOf i c s.mem))) (hl : ∀ p ∈ l, B p.1)
    (hc : ∀ a, InBytes c.aux (2 * n) a → Accessible s a) (hapart : ∀ a, InBytes c.aux (2 * n) a → ¬ B a)
    (hR : ∀ m : Memory, (∀ a : Nat, B a → m.read a = (s.mem.storeAll l).read a) → R m)
    (he : effectOf i c s.mem = s.mem.storeAll (l ++ clearStores n c)) :
    CompletesWith (exec i s) s c (fun a => InBytes c.aux (2 * n) a ∨ B a)
      fun m => ZeroBytes m c.aux (2 * n) ∧ R m := by
  have hm1 := Memory.storeAll_wf hm l
  refine ⟨_, hx, effectOf_wf i c hm, ⟨?_, hR _ fun a ha => ?_⟩, fun a ha => ?_⟩ <;>
    rw [he, Memory.storeAll_append]
  · exact clearStores_zeroBytes hm1 fun a ha => (hc a ha).2.1
  · exact clearStores_read_other hm1 fun hin => hapart a hin ha
  · rw [clearStores_read_other hm1 fun hin => ha (.inl hin),
      Memory.storeAll_read_other hm fun p hp hpa => ha (.inr (hpa ▸ hl p hp))]

/-! ### IDCT_ADD and IDCT_DC_ADD (R184 to R186) -/

/-- The block of samples with a residual added and clamped (R184, R185). -/
def addedBlock (c : InFlight) (m : Memory) (res : Nat → Nat → Int) : List Store :=
  blockStores c.dst c.dstride 4 4 fun y x => clipU8 (dstPx c m y x + res y x)

/-- A ready IDCT command over one block of coefficients completes with its effect (R183). -/
theorem IdctReady.exec_eq {i : Instr} {s : State} {c : InFlight} {n : Nat} (hr : IdctReady s c (InBytes c.aux n) 4 4)
    (hp : planOf i c = idctPlan [{ start := c.aux, len := n }] 4 4 c := by rfl) :
    exec i s = .next (s.completedWith c (effectOf i c s.mem)) :=
  exec_of_passes hr.running (hp ▸ idctPlan_passes (fun _ => spansHave_bytes ..) hr)

/-- A ready IDCT command that adds residuals and clears `n` coefficients completes and leaves exactly that. -/
theorem exec_idct {i : Instr} {s : State} {c : InFlight} {n : Nat} {res : Nat → Nat → Int}
    (hr : IdctReady s c (InBytes c.aux (2 * n)) 4 4)
    (he : effectOf i c s.mem = s.mem.storeAll (addedBlock c s.mem res ++ clearStores n c))
    (hp : planOf i c = idctPlan [{ start := c.aux, len := 2 * n }] 4 4 c := by rfl) :
    CompletesWith (exec i s) s c (fun a => InBytes c.aux (2 * n) a ∨ InBlock c.dst c.dstride 4 4 a)
      fun m => ZeroBytes m c.aux (2 * n) ∧ BlockHolds m c.dst c.dstride 4 4 fun y x =>
        clipU8 (dstPx c s.mem y x + res y x) := by
  have ⟨_, _, hm⟩ := hr.running
  refine exec_thenClear hm (hr.exec_eq hp) (fun _ => addr_blockStores) hr.coefs hr.apart
    (fun m hag y x b hy hx hb => ?_) he
  rw [hag b ⟨y, x, hy, hx, hb⟩]
  exact blockStores_holds hm hr.stride (fun a ha => (hr.pixels a ha).2.1) (fun _ _ => clipU8_range _) y x b hy hx hb

theorem effectOf_idctAdd (c : InFlight) (m : Memory) :
    effectOf .idctAdd c m = m.storeAll (addedBlock c m (idctResidual (coef c m)) ++ clearStores 16 c) := rfl

theorem effectOf_idctDcAdd (c : InFlight) (m : Memory) :
    effectOf .idctDcAdd c m = m.storeAll (addedBlock c m (fun _ _ => asr (cf m c.aux + 4) 3) ++ clearStores 1 c) := by
  rw [clearStores_one]; rfl

/-- Settles O41: the stores add the residuals and clear 16 coefficients; `idctResidual` is the transform the statement writes out. -/
theorem idctAddCompletes : Obligations.IdctAddCompletes := fun _ _ hr =>
  exec_idct (n := 16) hr (effectOf_idctAdd ..)

/-- Settles O42: the stores add the one DC value and clear one coefficient. -/
theorem idctDcAddCompletes : Obligations.IdctDcAddCompletes := fun _ _ hr =>
  exec_idct (n := 1) hr (effectOf_idctDcAdd ..)

/-! ### WHT and WHT_DC (R189 to R191) -/

/-- A ready WHT or WHT_DC completes with its effect (R183). -/
theorem WhtReady.exec_eq {i : Instr} {s : State} {c : InFlight} {n : Nat} (hr : WhtReady s c n)
    (hp : planOf i c = whtPlan n c := by rfl) : exec i s = .next (s.completedWith c (effectOf i c s.mem)) :=
  exec_of_passes hr.running (hp ▸ whtPlan_passes hr)

/-- A ready command that stores the DC slots and clears `n` entries of `dc` completes and leaves exactly that. -/
theorem exec_wht {i : Instr} {s : State} {c : InFlight} {n : Nat} {f : Nat → Nat → Int} (hr : WhtReady s c (2 * n))
    (he : effectOf i c s.mem = s.mem.storeAll (slotStores c f ++ clearStores n c))
    (hp : planOf i c = whtPlan (2 * n) c := by rfl) :
    CompletesWith (exec i s) s c (fun a => InBytes c.aux (2 * n) a ∨ InSlots c a)
      fun m => ZeroBytes m c.aux (2 * n) ∧ ∀ j < 4, ∀ k < 4, cf m (slotAddr c j k) = sext 16 (f j k) := by
  have ⟨_, _, hm⟩ := hr.running
  have hslots : ∀ a, InSlots c a → 0 ≤ a ∧ a < (Config.addrLimit : Int) := fun a ha =>
    ⟨(hr.slots a ha).1, (hr.slots a ha).2.1⟩
  refine exec_thenClear hm (hr.exec_eq hp) (fun _ => addr_slotStores) hr.coefs hr.apart (fun m hag j hj k hk => ?_) he
  have hin : ∀ a, InBytes (slotAddr c j k) 2 a → InSlots c a := fun a ha =>
    ⟨4 * j + k, by omega, by simpa [slotAddr] using ha⟩
  rw [← slotStores_cf hm hslots hj hk]
  exact cf_congr (hslots _ (hin _ (by simp [InBytes]))).1 fun b hb => hag b (hin b hb)

theorem effectOf_wht (c : InFlight) (m : Memory) :
    effectOf .wht c m = m.storeAll (slotStores c (whtOut (coef c m)) ++ clearStores 16 c) := rfl

theorem effectOf_whtDc (c : InFlight) (m : Memory) :
    effectOf .whtDc c m = m.storeAll (slotStores c (fun _ _ => asr (coef c m 0 + 3) 3) ++ clearStores 1 c) := by
  rw [clearStores_one]; rfl

theorem coef_zero_eq (c : InFlight) (m : Memory) : coef c m 0 = cf m c.aux := by simp [coef]

/-- WHT's column pass by the row of its result (R190). -/
theorem whtTmp_eq (f : Nat → Int) (r i : Nat) : whtTmp f r i = narrow16 (
    if r = 0 then f i + f (12 + i) + (f (4 + i) + f (8 + i))
    else if r = 1 then f i - f (12 + i) + (f (4 + i) - f (8 + i))
    else if r = 2 then f i + f (12 + i) - (f (4 + i) + f (8 + i))
    else f i - f (12 + i) - (f (4 + i) - f (8 + i))) := by
  match r with
  | 0 | 1 | 2 | _ + 3 => rfl

theorem whtTmp_range (f : Nat → Int) (r i : Nat) : -32768 ≤ whtTmp f r i ∧ whtTmp f r i ≤ 32767 := narrow16_range _

/-- A signed sum of four 16-bit values, plus 3 and shifted by 3, fits 16 bits: narrowing it changes nothing (R128). -/
theorem narrow16_asr_three {v : Int} (h0 : -131072 ≤ v) (h1 : v ≤ 131075) : narrow16 (asr v 3) = asr v 3 := by
  rw [asr_three]
  exact narrow16_of_mem (by omega) (by omega)

/-- WHT's row pass by the column of its result (R190): the last narrowing does nothing. -/
theorem whtOut_eq (f : Nat → Int) (i : Nat) :
    let t := whtTmp f i
    whtOut f i 0 = asr (t 0 + t 3 + (t 1 + t 2) + 3) 3 ∧ whtOut f i 1 = asr (t 0 - t 3 + (t 1 - t 2) + 3) 3 ∧
      whtOut f i 2 = asr (t 0 + t 3 - (t 1 + t 2) + 3) 3 ∧ whtOut f i 3 = asr (t 0 - t 3 - (t 1 - t 2) + 3) 3 := by
  intro t
  obtain ⟨h0, h0'⟩ := whtTmp_range f i 0
  obtain ⟨h1, h1'⟩ := whtTmp_range f i 1
  obtain ⟨h2, h2'⟩ := whtTmp_range f i 2
  obtain ⟨h3, h3'⟩ := whtTmp_range f i 3
  refine ⟨?_, ?_, ?_, ?_⟩ <;> simp only [whtOut, Quad.get, t] <;> rw [narrow16_asr_three (by omega) (by omega)] <;>
    congr 1 <;> ring

theorem sext16_whtOut (f : Nat → Int) (i j : Nat) : sext 16 (whtOut f i j) = whtOut f i j :=
  narrow16_of_mem (narrow16_range _).1 (narrow16_range _).2

/-- Settles O44: slot `(i, j)` holds `whtOut`, whose two passes are the statement's. -/
theorem whtCompletes : Obligations.WhtCompletes := by
  intro s c hr D t
  have ht : t = whtTmp D := by funext r i; exact (whtTmp_eq D r i).symm
  obtain ⟨m, hexec, hwf, ⟨hzero, hcf⟩, hother⟩ := exec_wht (n := 16) hr (effectOf_wht ..)
  refine ⟨m, hexec, hwf, ⟨hzero, fun i hi => ?_⟩, hother⟩
  obtain ⟨h0, h1, h2, h3⟩ := whtOut_eq D i
  have hslot : ∀ j : Nat, j < 4 → cf m (c.dst + 32 * (4 * i + j)) = whtOut D i j := fun j hj =>
    (hcf i hi j hj).trans (sext16_whtOut ..)
  rw [ht, ← h0, ← h1, ← h2, ← h3]
  exact ⟨by simpa using hslot 0 (by omega), hslot 1 (by omega), hslot 2 (by omega), hslot 3 (by omega)⟩

/-- The DC term of WHT_DC fits 16 bits (R191). -/
theorem narrow16_dcTerm (m : Memory) (a : Int) : narrow16 (asr (cf m a + 3) 3) = asr (cf m a + 3) 3 :=
  have ⟨_, _⟩ := cf_range m a
  narrow16_asr_three (by omega) (by omega)

/-- Settles O45: every slot holds the one DC term, which fits 16 bits. -/
theorem whtDcCompletes : Obligations.WhtDcCompletes := by
  intro s c hr
  obtain ⟨m, hexec, hwf, ⟨hzero, hcf⟩, hother⟩ := exec_wht (n := 1) hr (effectOf_whtDc ..)
  refine ⟨m, hexec, hwf, ⟨hzero, fun k hk => ?_⟩, hother⟩
  have hslot : slotAddr c (k / 4) (k % 4) = c.dst + 32 * k := by simp only [slotAddr]; omega
  rw [← hslot, hcf (k / 4) (by omega) (k % 4) (by omega), coef_zero_eq]
  exact narrow16_dcTerm s.mem c.aux

/-! ### A block whose only coefficient is its first (R192) -/

/-- A butterfly of its first input alone answers that input four times (R182). -/
theorem bf_first_get (v : Int) (k : Nat) : (bf v 0 0 0).get k = v := by
  have hbf : bf v 0 0 0 = ⟨v, v, v, v⟩ := by simp [bf, mul35468, mul20091, asr]
  rw [hbf]
  match k with
  | 0 | 1 | 2 | _ + 3 => rfl

section firstOnly
variable {f : Nat → Int} (hrange : -32768 ≤ f 0 ∧ f 0 ≤ 32767) (hf : ∀ i, 0 < i → i < 16 → f i = 0)
include hf

theorem idctTmp_firstOnly_zero {i : Nat} (h0 : 0 < i) (h1 : i < 4) (k : Nat) : idctTmp f i k = 0 := by
  rw [idctTmp, hf i (by omega) (by omega), hf (4 + i) (by omega) (by omega), hf (8 + i) (by omega) (by omega),
    hf (12 + i) (by omega) (by omega), bf_first_get]
  rfl

theorem whtTmp_firstOnly_zero (r : Nat) {i : Nat} (h0 : 0 < i) (h1 : i < 4) : whtTmp f r i = 0 := by
  rw [whtTmp_eq, hf i (by omega) (by omega), hf (4 + i) (by omega) (by omega), hf (8 + i) (by omega) (by omega),
    hf (12 + i) (by omega) (by omega)]
  simp only [add_zero, sub_zero, ite_self]
  rfl

include hrange

theorem idctTmp_firstOnly (k : Nat) : idctTmp f 0 k = f 0 := by
  rw [idctTmp, hf 4 (by omega) (by omega), hf 8 (by omega) (by omega), hf 12 (by omega) (by omega), bf_first_get,
    narrow16_of_mem hrange.1 hrange.2]

theorem whtTmp_firstOnly (r : Nat) : whtTmp f r 0 = f 0 := by
  rw [whtTmp_eq, hf 4 (by omega) (by omega), hf 8 (by omega) (by omega), hf 12 (by omega) (by omega)]
  simp only [add_zero, sub_zero, ite_self]
  exact narrow16_of_mem hrange.1 hrange.2

/-- Every residual of such a block is the DC term of IDCT_DC_ADD. -/
theorem idctResidual_firstOnly (y x : Nat) : idctResidual f y x = asr (f 0 + 4) 3 := by
  rw [idctResidual, idctTmp_firstOnly hrange hf, idctTmp_firstOnly_zero hf (by omega) (by omega),
    idctTmp_firstOnly_zero hf (by omega) (by omega), idctTmp_firstOnly_zero hf (by omega) (by omega), bf_first_get]

/-- Every output of WHT on such an array is the DC term of WHT_DC. -/
theorem whtOut_firstOnly (i j : Nat) : whtOut f i j = asr (f 0 + 3) 3 := by
  obtain ⟨h0, h1, h2, h3⟩ := whtOut_eq f i
  simp only [whtTmp_firstOnly hrange hf, whtTmp_firstOnly_zero hf i (by omega : 0 < 1) (by omega),
    whtTmp_firstOnly_zero hf i (by omega : 0 < 2) (by omega), whtTmp_firstOnly_zero hf i (by omega : 0 < 3) (by omega),
    add_zero, sub_zero] at h0 h1 h2 h3
  match j with
  | 0 => exact h0
  | 1 => exact h1
  | 2 => exact h2
  | _ + 3 => exact h3

end firstOnly

/-! ### The shortcuts (R192) -/

/-- Stores that carry what memory already holds change nothing. -/
theorem Memory.storeAll_read_unchanged {m : Memory} (hm : m.wf = true) {l : List Store} {b : Nat}
    (hlim : ∀ p ∈ l, p.1 < (Config.addrLimit : Int)) (hl : ∀ p ∈ l, p.1 = (b : Int) → p.2 = m.read b) :
    (m.storeAll l).read b = m.read b := by
  by_cases hin : ∃ p ∈ l, p.1 = (b : Int)
  · obtain ⟨p, hp, he⟩ := hin
    have hb := hlim p hp
    rw [he, Nat.cast_lt] at hb
    exact Memory.storeAll_read_of_mem hm hb (by rwa [← he, ← hl p hp he]) hl
  · exact Memory.storeAll_read_other hm fun p hp he => hin ⟨p, hp, he⟩

/-- Where all coefficients at AUX but the first are zero, clearing the first alone does what clearing all 16 does, also after other
stores that stay off them. -/
theorem clear_first_suffices {m : Memory} {c : InFlight} (hm : m.wf = true) {l : List Store}
    (hlim : ∀ a, InBytes c.aux 32 a → a < (Config.addrLimit : Int)) (hapart : ∀ p ∈ l, ¬ InBytes c.aux 32 p.1)
    (hz : ZeroBytes m (c.aux + 2) 30) (b : Nat) :
    (m.storeAll (l ++ clearStores 16 c)).read b = (m.storeAll (l ++ clearStores 1 c)).read b := by
  have hm1 := Memory.storeAll_wf hm l
  have hsub : ∀ a, InBytes c.aux (2 * 1) a → InBytes c.aux (2 * 16) a := fun a ha => ha.mono (by omega) (by omega)
  rw [Memory.storeAll_append, Memory.storeAll_append]
  by_cases h16 : InBytes c.aux (2 * 16) b
  · rw [clearStores_zeroBytes hm1 hlim b h16]
    by_cases h1 : InBytes c.aux (2 * 1) b
    · exact (clearStores_zeroBytes hm1 (fun a ha => hlim a (hsub a ha)) b h1).symm
    · have hrest : InBytes (c.aux + 2) 30 b := by simp only [InBytes] at h16 h1 ⊢; omega
      rw [clearStores_read_other hm1 h1, Memory.storeAll_read_other hm fun p hp he => hapart p hp (he ▸ h16), hz b hrest]
  · rw [clearStores_read_other hm1 h16, clearStores_read_other hm1 fun h => h16 (hsub _ h)]

/-- A coefficient whose two bytes are zero is zero. -/
theorem coef_of_zeroBytes {m : Memory} {c : InFlight} {j : Nat} (hz : ZeroBytes m (c.aux + 2 * j) 2) : coef c m j = 0 := by
  have haddr : c.aux + 2 * j = ((c.x2.toNat + 2 * j : Nat) : Int) := by simp [InFlight.aux]
  rw [haddr] at hz
  rw [coef, haddr]
  exact cf_of_reads (v := 0) (hz _ (by simp [InBytes])) (hz _ (by simp [InBytes]))

/-- Only the first coefficient at AUX can differ from zero when the other 30 bytes are zero. -/
theorem coef_firstOnly {m : Memory} {c : InFlight} (hz : ZeroBytes m (c.aux + 2) 30) (j : Nat) (h0 : 0 < j) (h1 : j < 16) :
    coef c m j = 0 :=
  coef_of_zeroBytes (hz.mono (by omega) (by push_cast; omega))

theorem IdctReady.firstCoef {s : State} {c : InFlight} {w h : Nat} (hr : IdctReady s c (InBytes c.aux 32) w h) :
    IdctReady s c (InBytes c.aux 2) w h where
  running := hr.running
  aligned := hr.aligned
  stride := hr.stride
  coefs a ha := hr.coefs a (ha.mono le_rfl (by omega))
  pixels := hr.pixels
  apart a ha := hr.apart a (ha.mono le_rfl (by omega))

theorem WhtReady.firstCoef {s : State} {c : InFlight} (hr : WhtReady s c 32) : WhtReady s c 2 where
  running := hr.running
  aligned := hr.aligned
  coefs a ha := hr.coefs a (ha.mono le_rfl (by omega))
  slots := hr.slots
  apart a ha := hr.apart a (ha.mono le_rfl (by omega))

/-- IDCT_ADD of a block with only coefficient 0 adds the DC term of IDCT_DC_ADD to every sample (R192 (b)). -/
theorem effectOf_idctAdd_firstOnly {m : Memory} {c : InFlight} (hz : ZeroBytes m (c.aux + 2) 30) :
    effectOf .idctAdd c m = m.storeAll (addedBlock c m (fun _ _ => asr (cf m c.aux + 4) 3) ++ clearStores 16 c) := by
  have hres : idctResidual (coef c m) = fun _ _ => asr (cf m c.aux + 4) 3 := by
    funext y x
    rw [idctResidual_firstOnly (cf_range ..) (coef_firstOnly hz), coef_zero_eq]
  rw [effectOf_idctAdd, hres]

/-- WHT of an array with only entry 0 stores the DC term of WHT_DC in every slot (R192 (c)). -/
theorem effectOf_wht_firstOnly {m : Memory} {c : InFlight} (hz : ZeroBytes m (c.aux + 2) 30) :
    effectOf .wht c m = m.storeAll (slotStores c (fun _ _ => asr (coef c m 0 + 3) 3) ++ clearStores 16 c) := by
  have hout : whtOut (coef c m) = fun _ _ => asr (coef c m 0 + 3) 3 := by
    funext i j
    exact whtOut_firstOnly (cf_range ..) (coef_firstOnly hz) i j
  rw [effectOf_wht, hout]

/-- A zero residual stores the samples as they are. -/
theorem value_addedBlock_zero {c : InFlight} {m : Memory} {p : Store} (hp : p ∈ addedBlock c m fun _ _ => 0) :
    p.2 = m.read p.1.toNat := by
  obtain ⟨y, x, -, -, rfl⟩ := mem_blockStores.mp hp
  rw [add_zero, dstPx, clipU8_of_mem (px_nonneg ..) (px_le ..), byteOf_px]

/-- IDCT_ADD of zero coefficients stores what memory holds (R192 (a)). -/
theorem effectOf_idctAdd_zero {s : State} {c : InFlight} (hr : IdctReady s c (InBytes c.aux 32) 4 4)
    (hz : ZeroBytes s.mem c.aux 32) (b : Nat) : (effectOf .idctAdd c s.mem).read b = s.mem.read b := by
  have ⟨_, _, hm⟩ := hr.running
  have hdc : asr (cf s.mem c.aux + 4) 3 = 0 := by
    rw [← coef_zero_eq, coef_of_zeroBytes (hz.mono (by omega) (by push_cast; omega))]
    rfl
  rw [effectOf_idctAdd_firstOnly (hz.mono (by omega) (by omega)), hdc]
  refine Memory.storeAll_read_unchanged hm (fun p hp => ?_) fun p hp he => ?_ <;>
    rcases List.mem_append.mp hp with hp | hp
  · exact (hr.pixels _ (addr_blockStores hp)).2.1
  · exact (hr.coefs _ (addr_zeroStores hp)).2.1
  · rw [value_addedBlock_zero hp, he, Int.toNat_natCast]
  · rw [value_zeroStores hp, hz b (he ▸ addr_zeroStores hp)]

/-- Settles O59: with at most the first coefficient non-zero, each full transform makes the stores of its DC command, up to clearing
coefficients that are zero already. -/
theorem transformShortcuts : Obligations.TransformShortcuts := by
  intro s c
  refine ⟨fun hr hz => ?_, fun hr hz => ?_, fun hr hz => ?_⟩
  · exact ⟨_, hr.exec_eq, effectOf_idctAdd_zero hr hz⟩
  · obtain ⟨-, -, hm⟩ := hr.running
    refine ⟨_, _, hr.exec_eq, hr.firstCoef.exec_eq, fun a => ?_⟩
    rw [effectOf_idctAdd_firstOnly hz, effectOf_idctDcAdd]
    exact clear_first_suffices hm (fun a ha => (hr.coefs a ha).2.1)
      (fun p hp hin => hr.apart _ hin (addr_blockStores hp)) hz a
  · obtain ⟨-, -, hm⟩ := hr.running
    refine ⟨_, _, hr.exec_eq, hr.firstCoef.exec_eq, fun a => ?_⟩
    rw [effectOf_wht_firstOnly hz, effectOf_whtDc]
    exact clear_first_suffices hm (fun a ha => (hr.coefs a ha).2.1)
      (fun p hp hin => hr.apart _ hin (addr_slotStores hp)) hz a

end Sys2Proof.Machine
end

section
/-! SUPPORT. The deblocking loop filters (45_loopfilter R200 to R223): the gates and the corrections on octets of samples, and the
planes each command leaves. The proofs of SimpleFilterCompletes, InnerFilterCompletes, MbFilterCompletes, TwoPlaneFilterCompletes,
SpanSixteenIsTwoEights, FilterGates, FilterOfAPosition, ThresholdCorners and FilterProperties. -/

namespace Sys2Proof.Machine

/-! ### Completion (R212, R215) -/

section completion
variable {i : Instr} {s : State} {c : InFlight} {kind : FilterKind} {th : Thresholds} {d : Direction} {n : Nat}

/-- A loop filter whose planes are ready completes with its effect. -/
theorem exec_filterPlanes {pair : Bool} (hl : i.wellFormed = true) (hr : ∀ b ∈ planeBases pair c, PlaneReady s c d n b)
    (hp : planOf i c = filterPlan i.wellFormed kind d n pair c)
    (he : effectOf i c s.mem = filterPlanes kind th d n pair c s.mem) :
    exec i s = .next (s.completedWith c (filterPlanes kind th d n pair c s.mem)) := by
  have hrun : Running s c := (hr c.dst (by cases pair <;> simp [planeBases])).running
  rw [← he]
  exact exec_of_passes hrun (hp ▸ filterPlan_passes hl hr)

/-- A ready plane of canonical memory is filtered as R209 and R210 say. -/
theorem PlaneReady.filtered {base : Int} (hr : PlaneReady s c d n base) {m : Memory} (hm : m.wf = true) :
    PlaneFiltered kind th d n base c.dstride m (filterPlane kind th d n base c.dstride m) :=
  filterPlane_filtered hm hr.stride fun a ha => ⟨(hr.taps a ha).1, (hr.taps a ha).2.1⟩

/-- A loop filter on one ready plane completes and leaves exactly that plane filtered. -/
theorem exec_onePlane (hr : PlaneReady s c d n c.dst) (hl : i.wellFormed = true := by rfl)
    (hp : planOf i c = filterPlan i.wellFormed kind d n false c := by rfl)
    (he : effectOf i c s.mem = filterPlanes kind th d n false c s.mem := by rfl) :
    CompletesWith (exec i s) s c (InTaps d c.dst c.dstride n kind.lo (kind.lo + kind.count - 1))
      fun m => PlaneFiltered kind th d n c.dst c.dstride s.mem m := by
  obtain ⟨-, -, hm⟩ := hr.running
  exact ⟨_, exec_filterPlanes hl (by simpa [planeBases] using hr) hp he, filterPlane_wf hm, hr.filtered hm,
    fun _ ha => filterPlane_read_other hm ha⟩

/-- A loop filter on two ready planes completes and leaves the second plane filtered in what filtering the first left (R215). -/
theorem exec_twoPlanes (hr : PlaneReady s c d n c.dst ∧ PlaneReady s c d n c.aux) (hl : i.wellFormed = true := by rfl)
    (hp : planOf i c = filterPlan i.wellFormed kind d n true c := by rfl)
    (he : effectOf i c s.mem = filterPlanes kind th d n true c s.mem := by rfl) :
    CompletesWith (exec i s) s c
      (fun a => InTaps d c.dst c.dstride n kind.lo (kind.lo + kind.count - 1) a ∨
        InTaps d c.aux c.dstride n kind.lo (kind.lo + kind.count - 1) a)
      fun m => ∃ u : Memory, PlaneFiltered kind th d n c.dst c.dstride s.mem u ∧
        PlaneFiltered kind th d n c.aux c.dstride u m := by
  obtain ⟨hdst, haux⟩ := hr
  obtain ⟨-, -, hm⟩ := hdst.running
  have hm1 : (filterPlane kind th d n c.dst c.dstride s.mem).wf = true := filterPlane_wf hm
  refine ⟨_, exec_filterPlanes hl (by simpa [planeBases] using ⟨hdst, haux⟩) hp he, filterPlane_wf hm1,
    ⟨_, hdst.filtered hm, haux.filtered hm1⟩, fun a ha => ?_⟩
  exact (filterPlane_read_other hm1 fun h => ha (.inr h)).trans (filterPlane_read_other hm fun h => ha (.inl h))

end completion

/-- Settles O46: LFS_V and LFS_H filter the one plane at DST, in each direction. -/
theorem simpleFilterCompletes : Obligations.SimpleFilterCompletes := fun _ _ _ _ =>
  ⟨fun hr => exec_onePlane (kind := .simple) hr, fun hr => exec_onePlane (kind := .simple) hr⟩

/-- Settles O47: LFI_V and LFI_H filter the one plane at DST when PAIR = 0. -/
theorem innerFilterCompletes : Obligations.InnerFilterCompletes := fun _ _ _ _ _ _ =>
  ⟨fun hr => exec_onePlane (kind := .inner) hr, fun hr => exec_onePlane (kind := .inner) hr⟩

/-- Settles O48: LFM_V and LFM_H filter the one plane at DST when PAIR = 0. -/
theorem mbFilterCompletes : Obligations.MbFilterCompletes := fun _ _ _ _ _ _ =>
  ⟨fun hr => exec_onePlane (kind := .mbEdge) hr, fun hr => exec_onePlane (kind := .mbEdge) hr⟩

/-- Settles O49: the memory between the two planes is what filtering the plane at DST leaves. -/
theorem twoPlaneFilterCompletes : Obligations.TwoPlaneFilterCompletes := by
  intro s c e i hev ready W R
  exact ⟨fun hr => exec_twoPlanes (kind := .inner) hr, fun hr => exec_twoPlanes (kind := .inner) hr,
    fun hr => exec_twoPlanes (kind := .mbEdge) hr, fun hr => exec_twoPlanes (kind := .mbEdge) hr⟩

/-! ### A plane in two parts (R223) -/

/-- A position is filtered alike from a plane pointer at which its taps have the same addresses. -/
theorem positionStores_of_tapAddr_eq {kind : FilterKind} {th : Thresholds} {d : Direction} {base base' stride i j : Int}
    {m : Memory} (h : ∀ k, tapAddr d base' stride j k = tapAddr d base stride i k) :
    positionStores kind th d base' stride m j = positionStores kind th d base stride m i := by
  simp only [positionStores, octetAt, h]

/-- A position's stores depend on its eight taps only. -/
theorem positionStores_congr {kind : FilterKind} {th : Thresholds} {d : Direction} {base stride i : Int} {m m' : Memory}
    (h : ∀ k : Int, -4 ≤ k → k ≤ 3 → px m (tapAddr d base stride i k) = px m' (tapAddr d base stride i k)) :
    positionStores kind th d base stride m i = positionStores kind th d base stride m' i := by
  simp only [positionStores, octetAt_congr h]

theorem FilterKind.lo_ge (kind : FilterKind) : -4 ≤ kind.lo := by cases kind <;> decide
theorem FilterKind.hi_le (kind : FilterKind) : kind.lo + kind.count - 1 ≤ 3 := by cases kind <;> decide

/-- Filtering the first `n` positions of a plane leaves the taps of the positions after them (R212 (2)). -/
theorem filterPlane_px_later {kind : FilterKind} {th : Thresholds} {d : Direction} {n n' j : Nat} {base stride k : Int}
    {m : Memory} (hm : m.wf = true) (hs : StrideCovers stride (match d with | .v => n + n' | .h => 8))
    (h0 : ∀ a, InTaps d base stride (n + n') (-4) 3 a → 0 ≤ a) (hj : j < n') (hk : -4 ≤ k) (hk' : k ≤ 3) :
    px (filterPlane kind th d n base stride m) (tapAddr d base stride ((n + j : Nat) : Int) k) =
      px m (tapAddr d base stride ((n + j : Nat) : Int) k) := by
  rw [px, px, filterPlane_read_other hm]
  rintro ⟨i, l, hi, hl, hl', he⟩
  rw [Int.toNat_of_nonneg (h0 _ ⟨n + j, k, by omega, hk, hk', rfl⟩)] at he
  have hlr : -4 ≤ l ∧ l ≤ 3 := ⟨kind.lo_ge.trans hl, hl'.trans kind.hi_le⟩
  have := (tapAddr_inj (n := n + n') hs (by omega) (by omega) ⟨hk, hk'⟩ hlr he).1
  omega

/-- Filtering `n + n'` positions is filtering the first `n` and then, from the pointer of the next position, the last `n'`. -/
theorem filterPlane_add {kind : FilterKind} {th : Thresholds} {d : Direction} {n n' : Nat} {base base' stride : Int}
    {m : Memory} (hm : m.wf = true) (hs : StrideCovers stride (match d with | .v => n + n' | .h => 8))
    (h0 : ∀ a, InTaps d base stride (n + n') (-4) 3 a → 0 ≤ a)
    (hb : ∀ (j : Nat) (k : Int), tapAddr d base' stride j k = tapAddr d base stride ((n + j : Nat) : Int) k) :
    filterPlane kind th d (n + n') base stride m =
      filterPlane kind th d n' base' stride (filterPlane kind th d n base stride m) := by
  have hlater : ((List.range n').map (n + ·)).flatMap (fun (i : Nat) => positionStores kind th d base stride m i) =
      (List.range n').flatMap fun (j : Nat) =>
        positionStores kind th d base' stride (filterPlane kind th d n base stride m) j := by
    rw [List.flatMap_map]
    refine List.flatMap_congr fun j hj => ?_
    rw [positionStores_of_tapAddr_eq (hb j)]
    exact positionStores_congr fun k hk hk' => (filterPlane_px_later hm hs h0 (List.mem_range.mp hj) hk hk').symm
  rw [filterPlane, List.range_add, List.flatMap_append, hlater, Memory.storeAll_append]
  rfl

/-- Settles O55: the pointers of the halves, `base + 8` and `base + 8 * stride`, name position 8 of the plane. -/
theorem spanSixteenIsTwoEights : Obligations.SpanSixteenIsTwoEights := by
  intro kind th base stride m hm halves
  refine ⟨fun hs hlim a => ?_, fun hs hlim a => ?_⟩
  · rw [filterPlane_add (n := 8) (n' := 8) (base' := base + 8) hm hs (fun a ha => (hlim a ha).1)]
    intro j k
    simp only [tapAddr]; push_cast; ring
  · rw [filterPlane_add (n := 8) (n' := 8) (base' := base + 8 * stride) hm hs (fun a ha => (hlim a ha).1)]
    intro j k
    simp only [tapAddr]; push_cast; ring

/-! ### Octets of samples -/

/-- The taps of an octet are its eight samples in order (R201). -/
theorem Octet.tap_eq (o : Octet) : o.tap (-4) = o.p3 ∧ o.tap (-3) = o.p2 ∧ o.tap (-2) = o.p1 ∧ o.tap (-1) = o.p0 ∧
    o.tap 0 = o.q0 ∧ o.tap 1 = o.q1 ∧ o.tap 2 = o.q2 ∧ o.tap 3 = o.q3 :=
  ⟨rfl, rfl, rfl, rfl, rfl, rfl, rfl, rfl⟩

/-- What holds of every tap of an octet holds of its eight samples. -/
theorem Octet.forall_tap {o : Octet} {p : Int → Prop} (h : ∀ k : Int, -4 ≤ k → k ≤ 3 → p (o.tap k)) :
    p o.p3 ∧ p o.p2 ∧ p o.p1 ∧ p o.p0 ∧ p o.q0 ∧ p o.q1 ∧ p o.q2 ∧ p o.q3 := by
  obtain ⟨ep3, ep2, ep1, ep0, eq0, eq1, eq2, eq3⟩ := o.tap_eq
  rw [← ep3, ← ep2, ← ep1, ← ep0, ← eq0, ← eq1, ← eq2, ← eq3]
  refine ⟨h _ ?_ ?_, h _ ?_ ?_, h _ ?_ ?_, h _ ?_ ?_, h _ ?_ ?_, h _ ?_ ?_, h _ ?_ ?_, h _ ?_ ?_⟩ <;> decide

/-- A sample is a byte (R8). -/
def IsSample (v : Int) : Prop := 0 ≤ v ∧ v ≤ 255

theorem IsSample.abs_sub_le {a b : Int} (ha : IsSample a) (hb : IsSample b) : |a - b| ≤ 255 := by
  obtain ⟨_, _⟩ := ha
  obtain ⟨_, _⟩ := hb
  rw [abs_le]
  omega

theorem IsSample.clipU8_eq {v : Int} (hv : IsSample v) : clipU8 v = v := clipU8_of_mem hv.1 hv.2

/-- An octet of samples. -/
structure Octet.Samples (o : Octet) : Prop where
  p3 : IsSample o.p3
  p2 : IsSample o.p2
  p1 : IsSample o.p1
  p0 : IsSample o.p0
  q0 : IsSample o.q0
  q1 : IsSample o.q1
  q2 : IsSample o.q2
  q3 : IsSample o.q3

theorem Octet.samples_of_tap {o : Octet} (h : ∀ k : Int, -4 ≤ k → k ≤ 3 → 0 ≤ o.tap k ∧ o.tap k ≤ 255) : o.Samples := by
  obtain ⟨hp3, hp2, hp1, hp0, hq0, hq1, hq2, hq3⟩ := Octet.forall_tap (p := IsSample) h
  exact ⟨hp3, hp2, hp1, hp0, hq0, hq1, hq2, hq3⟩

/-! ### The gates (R203 to R205) -/

theorem simpleGate_iff {o : Octet} {l : Int} : simpleGate o l = true ↔ 2 * |o.p0 - o.q0| + |o.p1 - o.q1| / 2 ≤ l := by
  simp only [simpleGate, absDiff_eq_abs, asr_one, decide_eq_true_eq]

theorem normalGate_iff {o : Octet} {e i : Int} : normalGate o e i = true ↔ simpleGate o e = true ∧ |o.p3 - o.p2| ≤ i ∧
    |o.p2 - o.p1| ≤ i ∧ |o.p1 - o.p0| ≤ i ∧ |o.q3 - o.q2| ≤ i ∧ |o.q2 - o.q1| ≤ i ∧ |o.q1 - o.q0| ≤ i := by
  simp only [normalGate, absDiff_eq_abs, Bool.and_eq_true, decide_eq_true_eq, and_assoc]

theorem hevGate_iff {o : Octet} {t : Int} : hevGate o t = true ↔ t < |o.p1 - o.p0| ∨ t < |o.q1 - o.q0| := by
  simp only [hevGate, absDiff_eq_abs, Bool.or_eq_true, decide_eq_true_eq, gt_iff_lt]

/-- No step of an octet of samples is above 255 (R213). -/
theorem hevGate_255 {o : Octet} (ho : o.Samples) : hevGate o 255 = false := by
  have hp : |o.p1 - o.p0| ≤ 255 := ho.p1.abs_sub_le ho.p0
  have hq : |o.q1 - o.q0| ≤ 255 := ho.q1.abs_sub_le ho.q0
  rw [Bool.eq_false_iff, ne_eq, hevGate_iff]
  omega

/-- Settles O51: the gates are their comparisons, and two samples differ by at most 255. -/
theorem filterGates : Obligations.FilterGates := by
  intro o l e i t
  refine ⟨simpleGate_iff, normalGate_iff, hevGate_iff, fun htap => ?_⟩
  have ho := Octet.samples_of_tap htap
  have h0 : |o.p0 - o.q0| ≤ 255 := ho.p0.abs_sub_le ho.q0
  have h1 : |o.p1 - o.q1| ≤ 255 := ho.p1.abs_sub_le ho.q1
  have h0' := abs_nonneg (o.p0 - o.q0)
  have h1' := abs_nonneg (o.p1 - o.q1)
  exact ⟨by omega, by omega, hevGate_255 ho⟩

/-! ### A position (R209) -/

theorem filterOctet_simple (th : Thresholds) (o : Octet) :
    filterOctet .simple th o = if simpleGate o (th.e.toNat : Int) = true then commonFilter o else o := by
  rw [filterOctet, choose]
  split <;> rfl

theorem filterOctet_inner (th : Thresholds) (o : Octet) :
    filterOctet .inner th o = if normalGate o (th.e.toNat : Int) (th.i.toNat : Int) = true then
      if hevGate o (th.hev.toNat : Int) = true then commonFilter o else innerFilter o else o := by
  rw [filterOctet, choose]
  split_ifs <;> rfl

theorem filterOctet_mbEdge (th : Thresholds) (o : Octet) :
    filterOctet .mbEdge th o = if normalGate o (th.e.toNat : Int) (th.i.toNat : Int) = true then
      if hevGate o (th.hev.toNat : Int) = true then commonFilter o else mbFilter o else o := by
  rw [filterOctet, choose]
  split_ifs <;> rfl

/-- Settles O52: the corrections are the statement's, but for the order of the two terms of the macroblock-edge weight. -/
theorem filterOfAPosition : Obligations.FilterOfAPosition := by
  refine ⟨fun th o => ⟨filterOctet_simple th o, filterOctet_inner th o, ?_⟩,
    Octet.tap_eq, fun d base stride m i _ h0 h1 => octetAt_tap d base stride m i h0 h1⟩
  rw [filterOctet_mbEdge, mbFilter, add_comm (clipS8 (o.p1 - o.q1))]
  rfl

/-- Where the edge gate fails, no kind corrects the position: NORMAL asks for SIMPLE too (R204). -/
theorem choose_of_simpleGate_false {o : Octet} {th : Thresholds} (h : simpleGate o (th.e.toNat : Int) = false)
    (kind : FilterKind) : choose kind th o = .untouched := by
  cases kind <;> simp [choose, normalGate, h]

theorem choose_of_normalGate_false {o : Octet} {th : Thresholds} {kind : FilterKind} (hk : kind ≠ .simple)
    (h : normalGate o (th.e.toNat : Int) (th.i.toNat : Int) = false) : choose kind th o = .untouched := by
  cases kind with
  | simple => exact absurd rfl hk
  | inner | mbEdge => simp [choose, h]

theorem filterOctet_of_untouched {kind : FilterKind} {th : Thresholds} {o : Octet} (h : choose kind th o = .untouched) :
    filterOctet kind th o = o := by
  rw [filterOctet, h]; rfl

/-- Without high edge variance a position is not corrected by the common filter (R209). -/
theorem choose_ne_common {kind : FilterKind} {th : Thresholds} {o : Octet} (hk : kind ≠ .simple)
    (h : hevGate o (th.hev.toNat : Int) = false) : choose kind th o ≠ .common := by
  cases kind with
  | simple => exact absurd rfl hk
  | inner | mbEdge => rw [choose, h]; split <;> exact Correction.noConfusion

/-! ### Corrections of a level edge -/

theorem filterF1_eq_zero {a : Int} (h0 : -4 ≤ a) (h1 : a ≤ 3) : filterF1 a = 0 := by
  rw [filterF1, asr_three]; omega

theorem filterF2_eq_zero {a : Int} (h0 : -3 ≤ a) (h1 : a ≤ 4) : filterF2 a = 0 := by
  rw [filterF2, asr_three]; omega

section level
variable {o : Octet} (ho : o.Samples) (h0 : o.p0 = o.q0)
include ho h0

/-- The common filter leaves an edge whose inner samples are equal and whose next ones differ by at most 1. -/
theorem commonFilter_of_level (h1 : |o.p1 - o.q1| ≤ 1) : commonFilter o = o := by
  obtain ⟨hlo, hhi⟩ := abs_le.mp h1
  have ha : clipS8 (3 * (o.q0 - o.p0) + clipS8 (o.p1 - o.q1)) = o.p1 - o.q1 := by
    rw [clipS8_of_mem (v := o.p1 - o.q1) (by omega) (by omega), clipS8_of_mem] <;> omega
  simp only [commonFilter, ha, filterF1_eq_zero (a := o.p1 - o.q1) (by omega) (by omega),
    filterF2_eq_zero (a := o.p1 - o.q1) (by omega) (by omega), add_zero, sub_zero, ho.p0.clipU8_eq, ho.q0.clipU8_eq]

theorem innerFilter_of_level : innerFilter o = o := by
  have ha : clipS8 (3 * (o.q0 - o.p0)) = 0 := by rw [clipS8_of_mem] <;> omega
  have ha2 : asr (0 + 1) 1 = 0 := rfl
  simp only [innerFilter, ha, filterF1_eq_zero (a := 0) (by decide) (by decide),
    filterF2_eq_zero (a := 0) (by decide) (by decide), ha2, add_zero, sub_zero, ho.p0.clipU8_eq, ho.q0.clipU8_eq,
    ho.p1.clipU8_eq, ho.q1.clipU8_eq]

theorem mbFilter_of_level (h1 : o.p1 = o.q1) : mbFilter o = o := by
  have hw : clipS8 (clipS8 (o.p1 - o.q1) + 3 * (o.q0 - o.p0)) = 0 := by
    rw [h0, h1, sub_self, sub_self]; rfl
  have hasr : ∀ k : Int, asr (k * 0 + 63) 7 = 0 := fun k => by rw [mul_zero]; rfl
  simp only [mbFilter, hw, hasr, add_zero, sub_zero, ho.p0.clipU8_eq, ho.q0.clipU8_eq, ho.p1.clipU8_eq,
    ho.q1.clipU8_eq, ho.p2.clipU8_eq, ho.q2.clipU8_eq]

/-- No correction changes an edge whose two inner pairs are equal. -/
theorem Correction.apply_of_level (h1 : o.p1 = o.q1) (cr : Correction) : cr.apply o = o := by
  cases cr with
  | untouched => rfl
  | common => exact commonFilter_of_level ho h0 (by rw [h1, sub_self, abs_zero]; decide)
  | inner => exact innerFilter_of_level ho h0
  | mbEdge => exact mbFilter_of_level ho h0 h1

end level

/-! ### The corner values of the thresholds (R213) -/

/-- With E = 0 the edge gate asks for equal inner samples. -/
theorem simpleGate_zero {o : Octet} : simpleGate o 0 = true ↔ o.p0 = o.q0 ∧ |o.p1 - o.q1| ≤ 1 := by
  have h0 := abs_nonneg (o.p0 - o.q0)
  have h1 := abs_nonneg (o.p1 - o.q1)
  rw [simpleGate_iff, ← sub_eq_zero, ← abs_eq_zero]
  omega

theorem filterOctet_simple_zero {o : Octet} (ho : o.Samples) {th : Thresholds} (he : th.e = 0) :
    filterOctet .simple th o = o := by
  rw [filterOctet_simple, he]
  split
  · next hg =>
    obtain ⟨h0, h1⟩ := simpleGate_zero.mp hg
    exact commonFilter_of_level ho h0 h1
  · rfl

/-- The extreme edge, all 0 beside all 255, has the edge sum 637, above every threshold. -/
theorem simpleGate_extreme {o : Octet} (hp1 : o.p1 = 0) (hp0 : o.p0 = 0) (hq0 : o.q0 = 255) (hq1 : o.q1 = 255) (e : Byte) :
    simpleGate o (e.toNat : Int) = false := by
  have he := e.isLt
  have habs : |(0 : Int) - 255| = 255 := by decide
  rw [Bool.eq_false_iff, ne_eq, simpleGate_iff, hp1, hp0, hq0, hq1, habs]
  omega

/-- With I = 0 the gate asks for equal neighbours on each side. -/
theorem normalGate_zero {o : Octet} {e : Int} (h : normalGate o e 0 = true) :
    o.p3 = o.p2 ∧ o.p2 = o.p1 ∧ o.p1 = o.p0 ∧ o.q3 = o.q2 ∧ o.q2 = o.q1 ∧ o.q1 = o.q0 := by
  simpa only [abs_nonpos_iff, sub_eq_zero] using (normalGate_iff.mp h).2

/-- With I = 255 the inner differences of samples pass, and the edge gate alone decides. -/
theorem normalGate_255 {o : Octet} (ho : o.Samples) (e : Int) : normalGate o e 255 = simpleGate o e := by
  rw [Bool.eq_iff_iff, normalGate_iff]
  exact and_iff_left ⟨ho.p3.abs_sub_le ho.p2, ho.p2.abs_sub_le ho.p1, ho.p1.abs_sub_le ho.p0, ho.q3.abs_sub_le ho.q2,
    ho.q2.abs_sub_le ho.q1, ho.q1.abs_sub_le ho.q0⟩

/-- With HEV = 0 any step is high edge variance. -/
theorem hevGate_zero {o : Octet} : hevGate o 0 = true ↔ ¬ (o.p1 = o.p0 ∧ o.q1 = o.q0) := by
  rw [hevGate_iff, abs_pos, abs_pos, sub_ne_zero, sub_ne_zero, not_and_or]

/-- Settles O53, one clause per corner of the rule. -/
theorem thresholdCorners : Obligations.ThresholdCorners := by
  intro o th htap
  have ho := Octet.samples_of_tap htap
  refine ⟨fun he => ⟨simpleGate_zero, filterOctet_simple_zero ho he⟩, fun he => ?_, ?_, normalGate_zero,
    normalGate_255 ho _, hevGate_zero, fun hh => ?_⟩
  · rw [he]
    exact simpleGate_iff
  · rintro ⟨-, -, hp1, hp0, hq0, hq1, -, -⟩ kind
    exact filterOctet_of_untouched (choose_of_simpleGate_false (simpleGate_extreme hp1 hp0 hq0 hq1 th.e) kind)
  · have hev : hevGate o (th.hev.toNat : Int) = false := by rw [hh]; exact hevGate_255 ho
    exact ⟨hev, choose_ne_common (by decide) hev, choose_ne_common (by decide) hev⟩

/-! ### What every kind keeps (R214) -/

/-- No correction changes the outer samples. -/
theorem Correction.apply_outer (cr : Correction) (o : Octet) : (cr.apply o).p3 = o.p3 ∧ (cr.apply o).q3 = o.q3 := by
  cases cr <;> exact ⟨rfl, rfl⟩

/-- A tap keeps its value or gets a sample. -/
theorem Correction.apply_tap_cases (cr : Correction) (o : Octet) {k : Int} (h0 : -4 ≤ k) (h1 : k ≤ 3) :
    (cr.apply o).tap k = o.tap k ∨ 0 ≤ (cr.apply o).tap k ∧ (cr.apply o).tap k ≤ 255 := by
  by_cases hk : k ∈ cr.taps
  · exact .inr (cr.apply_tap_range o hk)
  · exact .inl (cr.apply_tap_other o h0 h1 hk)

/-- An octet whose samples are all equal passes the gates of all thresholds. -/
theorem normalGate_flat {o : Octet} {v e i : Int} (hv : ∀ k : Int, -4 ≤ k → k ≤ 3 → o.tap k = v) (he : 0 ≤ e) (hi : 0 ≤ i) :
    normalGate o e i = true := by
  obtain ⟨hp3, hp2, hp1, hp0, hq0, hq1, hq2, hq3⟩ := Octet.forall_tap (p := (· = v)) hv
  have habs : |v - v| = 0 := by rw [sub_self, abs_zero]
  rw [normalGate_iff, simpleGate_iff, hp3, hp2, hp1, hp0, hq0, hq1, hq2, hq3, habs]
  exact ⟨he, hi, hi, hi, hi, hi, hi⟩

/-- Settles O54, one clause per property: each is the choice of the correction or what a correction does. -/
theorem filterProperties : Obligations.FilterProperties := by
  intro o th kind r
  refine ⟨fun hk h => filterOctet_of_untouched (choose_of_normalGate_false hk h),
    fun h => filterOctet_of_untouched (choose_of_simpleGate_false h kind), Correction.apply_outer _ o,
    fun k h0 h1 hk => Correction.apply_tap_other _ o h0 h1 fun hin => ?_,
    fun k h0 h1 => Correction.apply_tap_cases _ o h0 h1, fun h => (normalGate_iff.mp h).1, fun v h0 h1 hv => ?_⟩
  · obtain ⟨hlo, hhi⟩ := choose_taps_range hin
    omega
  · have ho : o.Samples := Octet.samples_of_tap fun k hk hk' => by rw [hv k hk hk']; exact ⟨h0, h1⟩
    obtain ⟨-, -, hp1, hp0, hq0, hq1, -, -⟩ := Octet.forall_tap (p := (· = v)) hv
    exact ⟨normalGate_flat hv (Int.natCast_nonneg _) (Int.natCast_nonneg _),
      Correction.apply_of_level ho (hp0.trans hq0.symm) (hp1.trans hq1.symm) _⟩

end Sys2Proof.Machine
end

section
/-! SUPPORT. The fault a command takes (60_exceptions R233, R234) and what it leaves (R232): the proofs of FirstFailingCheck and
FaultEffect. -/

namespace Sys2Proof.Machine

/-! ### The fixed order of the checks (R233) -/

/-- The checks in the order they are made (R233). -/
def checkOrder : List FaultCause := [.illegalCmd, .badSelector, .misaligned, .badStride, .overlap, .addrRange, .bus]

/-- The checks made before `k` are checks with a lower code (R231, R233). -/
theorem checkOrder_eq_append (k : FaultCause) :
    ∃ before after, checkOrder = before ++ k :: after ∧ ∀ k' ∈ before, k'.code.toNat < k.code.toNat :=
  ⟨checkOrder.take (k.code.toNat - 1), checkOrder.drop k.code.toNat, by cases k <;> rfl, by cases k <;> decide⟩

theorem mem_checkOrder (k : FaultCause) : k ∈ checkOrder := by
  obtain ⟨_, _, h, -⟩ := checkOrder_eq_append k
  simp [h]

section
variable {s : State} {c : InFlight} {i : Instr} {k : FaultCause}

/-- The first fault of a command's plan is the first check in order that fails by the table of R234. -/
theorem firstFault_eq_find [DecidablePred (CheckFails s c i)] :
    (planOf i c).firstFault c.dstride s.memMap = checkOrder.find? (CheckFails s c i ·) := by
  obtain ⟨hlegal, hsel, hcoef, hstride, hmeet, hspace, hbus⟩ := checkFails_iff s c i
  simp only [Plan.firstFault, Bool.not_eq_true', ← hlegal, ← hsel, ← hcoef, ← hstride, ← hmeet, ← hspace, ← hbus]
  clear hlegal hsel hcoef hstride hmeet hspace hbus
  split_ifs <;> simp [checkOrder, *]

/-- A failing check with none of a lower code is the first fault. -/
theorem firstFault_eq_some (hk : CheckFails s c i k) (hlow : ∀ k', k'.code.toNat < k.code.toNat → ¬ CheckFails s c i k') :
    (planOf i c).firstFault c.dstride s.memMap = some k := by
  classical
  obtain ⟨before, after, horder, hbefore⟩ := checkOrder_eq_append k
  rw [firstFault_eq_find, List.find?_eq_some_iff_append]
  exact ⟨decide_eq_true hk, before, after, horder, fun k' hk' => by simpa using hlow k' (hbefore k' hk')⟩

/-- The checks pass exactly when none fails. -/
theorem firstFault_eq_none_iff : (planOf i c).firstFault c.dstride s.memMap = none ↔ ∀ k, ¬ CheckFails s c i k := by
  classical
  simp [firstFault_eq_find, mem_checkOrder]

/-- The first fault is a check that fails. -/
theorem checkFails_of_firstFault (h : (planOf i c).firstFault c.dstride s.memMap = some k) : CheckFails s c i k := by
  classical
  rw [firstFault_eq_find] at h
  exact of_decide_eq_true (List.find?_some h :)

/-- A command with a failing check takes the fault of a check that fails (R232). -/
theorem exec_takes_failing (hr : Running s c) (hk : CheckFails s c i k) :
    ∃ k', CheckFails s c i k' ∧ exec i s = .next (s.faultedWith c k') := by
  cases hff : (planOf i c).firstFault c.dstride s.memMap with
  | none => exact absurd hk (firstFault_eq_none_iff.mp hff k)
  | some k' => exact ⟨k', checkFails_of_firstFault hff, (exec_eq_runCommand i s).trans (runCommand_faults hr hff)⟩

end

/-- Settles O7: the first fault of the plan is the failing check of least code, and there is none when none fails. -/
theorem firstFailingCheck : Obligations.FirstFailingCheck := by
  intro s c i hr
  rw [exec_eq_runCommand]
  exact ⟨fun k hk hlow => runCommand_faults hr (firstFault_eq_some hk hlow),
    fun hnone => ⟨_, runCommand_completes hr (firstFault_eq_none_iff.mpr hnone)⟩⟩

/-! ### What a fault leaves (R232) -/

/-- A faulted engine drops every command word: only OVR is set. -/
theorem State.faultedWith_writeCmd (s : State) (c : InFlight) (k : FaultCause) (w : Word) :
    (s.faultedWith c k).writeReg .cmd w =
      { s.faultedWith c k with status := { (s.faultedWith c k).status with ovr := true } } :=
  State.writeCmd_dropped (.inr rfl) w

/-- Settles O9: the fault taken is one of a failing check, and `faultedWith` with it has each of the effects named. -/
theorem faultEffect : Obligations.FaultEffect := by
  intro s c i k hr hdone hk
  obtain ⟨k', hk', hexec⟩ := exec_takes_failing hr hk
  refine ⟨s.faultedWith c k', k', hexec, hk', ?_, rfl, rfl, rfl, rfl, rfl, rfl, rfl, rfl, rfl, s.faultedWith_writeCmd c k',
    fun _ => ⟨rfl, rfl, rfl, rfl⟩, rfl⟩
  simp [hdone]

end Sys2Proof.Machine
end

section
/-! SUPPORT. A reset that aborts a command (70_reset_and_hazards R262) and the footprint duty (R266): what the host reads and
writes in a pending footprint. The proofs of AbortedCommand, BrokenDutyRead and BrokenDutyWrite. -/

namespace Sys2Proof.Machine

/-! ### An aborted command (R262) -/

/-- Unspecified bytes put in a footprint: each byte in it is one of the free values drawn. -/
theorem havoc_read_inside {m : Memory} (hm : m.wf = true) {l : List Span} {ix a : Nat} (hl : a < Config.addrLimit)
    (ha : spansHave l a = true) :
    ∃ n, ix ≤ n ∧ n < ix + (spansBytes l).length ∧ (m.havoc (spansBytes l) ix).read a = Config.freeByte n :=
  Memory.havoc_read_of_mem hm ((mem_spansBytes l a).mpr ha) hl

/-- With a command in flight a reset aborts exactly its write footprint. -/
theorem State.abortedFootprint_of_busy {s : State} {c : InFlight} (hb : s.status.busy = true) (hc : s.cur = some c) :
    s.abortedFootprint = c.wf := by
  simp only [State.abortedFootprint, hb, hc, if_true]

/-- Settles O22: the reset's registers are its own fields, and its memory is the old one with the write footprint drawn anew. -/
theorem abortedCommand : Obligations.AbortedCommand := by
  intro s c hb hc hm
  refine ⟨rfl, rfl, rfl, rfl, ?_⟩
  rw [State.resetEngine_mem, State.resetEngine_freeIx, State.abortedFootprint_of_busy hb hc]
  exact ⟨fun a => havoc_read_outside hm, fun a => havoc_read_inside hm⟩

/-! ### Reads under a footprint duty (R266) -/

/-- LD16 outside the register block joins two byte loads, the second in the state the first left. -/
theorem hostAction_ld16 {again s : State} {a : Word} {lo hi : Byte} {ix ix' : Nat} (heven : a.toNat % 2 = 0)
    (hblock : s.memMap.inRegisterBlock a.toNat = false) (hblock' : s.memMap.inRegisterBlock (a.toNat + 1) = false)
    (hlo : s.loadByte a.toNat = (lo, { s with freeIx := ix }))
    (hhi : State.loadByte { s with freeIx := ix } (a.toNat + 1) = (hi, { s with freeIx := ix' })) :
    ∃ r : Word, r.toNat = lo.toNat + 256 * hi.toNat ∧
      hostAction (.ld16 a) again s = .next { s with hostReads := r :: s.hostReads, freeIx := ix' } := by
  refine ⟨_, toNat_bytes hi lo, ?_⟩
  rw [hostAction, memoryAccess_two heven hblock hblock', State.hostLoad16]
  simp only [coefEndian_lowAt, coefEndian_highAt, Int.add_zero, hlo, hhi]

/-- Settles O30: each byte loaded is pending, and drawn, or settled, and read from memory; a draw leaves what is pending. -/
theorem brokenDutyRead : Obligations.BrokenDutyRead := by
  intro again s a hblock lo hi read half
  refine ⟨fun hp => ?_, fun hp => ?_, fun heven hblock' => ?_⟩
  · rw [hostAction, memoryAccess_one hblock, State.hostLoad8, State.loadByte_pending hp]
  · rw [hostAction, memoryAccess_one hblock, State.hostLoad8, State.loadByte_settled hp]
    rfl
  · have both {l h : Byte} {ix ix' : Nat} := hostAction_ld16 (again := again) (lo := l) (hi := h) (ix := ix) (ix' := ix')
      heven hblock hblock'
    exact ⟨fun h0 h1 => both (State.loadByte_pending h0) (State.loadByte_pending h1),
      fun h0 h1 => both (State.loadByte_pending h0) (State.loadByte_settled h1),
      fun h0 h1 => both (State.loadByte_settled h0) (State.loadByte_pending h1),
      fun h0 h1 => both (State.loadByte_settled h0) (State.loadByte_settled h1)⟩

/-! ### Writes under a footprint duty (R266) -/

/-- A store of the bytes `stored` meets the footprint of `d`. -/
def StoreTouches (stored : Nat → Option Byte) (d : InFlight) : Prop :=
  ∃ b : Nat, (stored b).isSome = true ∧ spansHave d.footprint b = true

/-- `t` is what a store of the bytes `stored` leaves of `s`: the write footprint of each completed command it meets holds free
values, every other byte is as stored, and a meeting with the command in flight is remembered. -/
structure StoreLeaves (stored : Nat → Option Byte) (s t : State) : Prop where
  canonical : t.mem.wf = true
  draws : s.freeIx ≤ t.freeIx
  broken : ∀ d ∈ s.duties, StoreTouches stored d → ∀ b : Nat, b < Config.addrLimit → spansHave d.wf b = true →
    ∃ n, s.freeIx ≤ n ∧ n < t.freeIx ∧ t.mem.read b = Config.freeByte n
  kept : ∀ b : Nat, (∀ d ∈ s.duties, StoreTouches stored d → spansHave d.wf b = false) →
    t.mem.read b = (stored b).getD (s.mem.read b)
  frame : { t with mem := s.mem, freeIx := s.freeIx, breached := s.breached } = s
  stillBreached : s.breached = true → t.breached = true
  breaches : ∀ c, s.status.busy = true → s.cur = some c → StoreTouches stored c → t.breached = true

theorem StoreLeaves.duties {stored : Nat → Option Byte} {s t : State} (h : StoreLeaves stored s t) : t.duties = s.duties :=
  (congrArg State.duties h.frame :)

theorem StoreLeaves.status {stored : Nat → Option Byte} {s t : State} (h : StoreLeaves stored s t) : t.status = s.status :=
  (congrArg State.status h.frame :)

theorem StoreLeaves.cur {stored : Nat → Option Byte} {s t : State} (h : StoreLeaves stored s t) : t.cur = s.cur :=
  (congrArg State.cur h.frame :)

/-- The bytes of a store of `v` at `a`. -/
def oneByte (a : Nat) (v : Byte) : Nat → Option Byte := fun b => if b = a then some v else none

theorem storeTouches_oneByte {a : Nat} {v : Byte} {d : InFlight} :
    StoreTouches (oneByte a v) d ↔ spansHave d.footprint a = true := by
  simp [StoreTouches, oneByte]

/-- A store of one byte. -/
theorem State.storeByte_leaves {s : State} (hm : s.mem.wf = true) {a : Nat} (ha : a < Config.addrLimit) (v : Byte) :
    StoreLeaves (oneByte a v) s (s.storeByte a v) where
  canonical := State.storeByte_wf hm a v
  draws := s.storeByte_freeIx a v
  broken d hd ht b hl hw := State.storeByte_broken hm v hl ⟨d, hd, storeTouches_oneByte.mp ht, hw⟩
  kept b hb := by
    rw [State.storeByte_read hm ha v fun d hd ht => hb d hd (storeTouches_oneByte.mpr ht), oneByte]
    split <;> rfl
  frame := foldl_havoc_keeps
    (fun u => { u with mem := s.mem, freeIx := s.freeIx, breached := s.breached }) (fun _ _ => rfl) a s.duties _
  stillBreached h := by rw [State.storeByte_breached, h, Bool.true_or]
  breaches c hb hc ht := by
    simp [State.inFlightFootprint, hb, hc, storeTouches_oneByte.mp ht]

/-- Two stores in turn are one store, the later byte winning. The second cannot undo what the first made free: a byte it puts in a
write footprint meets that footprint (R15), so the footprint is drawn anew after it. -/
theorem StoreLeaves.trans {f g : Nat → Option Byte} {s t u : State} (hf : StoreLeaves f s t) (hg : StoreLeaves g t u) :
    StoreLeaves (fun b => (g b).or (f b)) s u := by
  have hduties := hf.duties
  have touches (d : InFlight) :
      StoreTouches (fun b => (g b).or (f b)) d ↔ StoreTouches g d ∨ StoreTouches f d := by
    simp only [StoreTouches, Option.isSome_or, Bool.or_eq_true, or_and_right, exists_or]
  refine ⟨hg.canonical, hf.draws.trans hg.draws, fun d hd ht b hl hw => ?_, fun b hb => ?_,
    (congrArg (fun v : State => { v with mem := s.mem, freeIx := s.freeIx, breached := s.breached }) hg.frame).trans hf.frame,
    fun h => hg.stillBreached (hf.stillBreached h), fun c hb hc ht => ?_⟩
  · by_cases hagain : ∃ e ∈ t.duties, StoreTouches g e ∧ spansHave e.wf b = true
    · obtain ⟨e, he, hte, hwe⟩ := hagain
      obtain ⟨n, h0, h1, h2⟩ := hg.broken e he hte b hl hwe
      exact ⟨n, hf.draws.trans h0, h1, h2⟩
    · have hclear : ∀ e ∈ t.duties, StoreTouches g e → spansHave e.wf b = false := fun e he hte =>
        Bool.eq_false_iff.mpr fun h => hagain ⟨e, he, hte, h⟩
      have hnot : ¬ StoreTouches g d := fun h => hagain ⟨d, hduties ▸ hd, h, hw⟩
      have hnone : g b = none := Option.not_isSome_iff_eq_none.mp fun h => hnot ⟨b, h, InFlight.footprint_of_wf hw⟩
      obtain ⟨n, h0, h1, h2⟩ := hf.broken d hd (((touches d).mp ht).resolve_left hnot) b hl hw
      exact ⟨n, h0, h1.trans_le hg.draws, by rw [hg.kept b hclear, hnone, Option.getD_none, h2]⟩
  · rw [hg.kept b fun d hd h => hb d (hduties ▸ hd) ((touches d).mpr (.inl h)),
      hf.kept b fun d hd h => hb d hd ((touches d).mpr (.inr h))]
    cases g b <;> rfl
  · rcases (touches c).mp ht with h | h
    · exact hg.breaches c (hf.status ▸ hb) (hf.cur.trans hc) h
    · exact hg.stillBreached (hf.breaches c hb hc h)

/-- ST8 outside the register block. -/
theorem hostAction_st8_leaves {again s : State} (hm : s.mem.wf = true) {a : Word}
    (hblock : s.memMap.inRegisterBlock a.toNat = false) (v : Byte) :
    ∃ t, hostAction (.st8 a v) again s = .next t ∧ StoreLeaves (oneByte a.toNat v) s t := by
  refine ⟨s.storeByte a.toNat v, ?_, State.storeByte_leaves hm a.isLt v⟩
  rw [hostAction, memoryAccess_one hblock]

/-- ST16 at an even address outside the register block, low byte first. -/
theorem hostAction_st16_leaves {again s : State} (hm : s.mem.wf = true) {a : Word} (heven : a.toNat % 2 = 0)
    (hblock : s.memMap.inRegisterBlock a.toNat = false) (hblock' : s.memMap.inRegisterBlock (a.toNat + 1) = false) (v : Half) :
    ∃ t, hostAction (.st16 a v) again s = .next t ∧
      StoreLeaves (fun b => if b = a.toNat then some (v.extractLsb' 0 8)
        else if b = a.toNat + 1 then some (v.extractLsb' 8 8) else none) s t := by
  have hlim : a.toNat + 1 < Config.addrLimit := by
    have := a.isLt
    simp only [Config.addrLimit]
    omega
  have hlo := State.storeByte_leaves hm a.isLt (v.extractLsb' 0 8)
  have hboth := hlo.trans (State.storeByte_leaves hlo.canonical hlim (v.extractLsb' 8 8))
  have hstored : (fun b => (oneByte (a.toNat + 1) (v.extractLsb' 8 8) b).or (oneByte a.toNat (v.extractLsb' 0 8) b)) =
      fun b => if b = a.toNat then some (v.extractLsb' 0 8)
        else if b = a.toNat + 1 then some (v.extractLsb' 8 8) else none := by
    funext b
    by_cases hb : b = a.toNat <;> simp [oneByte, hb]
  refine ⟨s.hostStore16 a v, ?_, ?_⟩
  · rw [hostAction, memoryAccess_two heven hblock hblock']
  · rw [State.hostStore16, coefEndian_lowAt, coefEndian_highAt, Int.add_zero, ← hstored]
    exact hboth

/-- The command in flight completes in the engine's turn; if the host has broken its duty meanwhile, memory is the old one with
the command's write footprint drawn anew, however the command ends. -/
theorem engineTurn_of_breached {s : State} {c : InFlight} (hb : s.status.busy = true) (hc : s.cur = some c)
    (hbr : s.breached = true) :
    ∃ u, engineTurn s = .next u ∧ s.Retires c u ∧ u.mem = s.mem.havoc (spansBytes c.wf) s.freeIx ∧
      u.freeIx = s.freeIx + (spansBytes c.wf).length := by
  rw [engineTurn_of_busy hb]
  cases hd : decode c.word with
  | ok i =>
    have hwf : c.wf = (planOf i c).wf := by simp only [InFlight.wf, hd]
    rw [engineStep_of_decode hc hd, exec_eq_runCommand, hwf]
    obtain ⟨u, hu, hr⟩ := exec_retires i hc
    rw [exec_eq_runCommand] at hu
    rcases runCommand_cases (f := effectOf i) hc with ⟨k, -, hk⟩ | ⟨-, hk⟩
    all_goals
      cases hu.symm.trans hk
      exact ⟨_, hk, hr, by simp [hbr], by simp [hbr]⟩
  | error r =>
    have hwf : c.wf = [] := by simp only [InFlight.wf, hd]
    rw [hwf]
    refine ⟨illegalCommand c s, by simp only [engineStep, hc, hd], .inl ⟨[], .illegalCmd, rfl⟩, ?_, ?_⟩ <;>
      simp [illegalCommand, hbr]

/-- Settles O31: both stores leave what `StoreLeaves` says, and a breach of the command in flight is remembered until the
engine's turn. -/
theorem brokenDutyWrite : Obligations.BrokenDutyWrite := by
  intro again s a act stored hm hblock hact touches
  obtain ⟨t, ht, hl⟩ : ∃ t, hostAction act again s = .next t ∧ StoreLeaves stored s t := by
    rcases hact with ⟨v, rfl, rfl⟩ | ⟨v, rfl, heven, hblock', rfl⟩
    · exact hostAction_st8_leaves hm hblock v
    · exact hostAction_st16_leaves hm heven hblock hblock' v
  refine ⟨t, ht, hl.broken, hl.kept, hl.frame, fun c hb hc htouch => ?_⟩
  obtain ⟨u, hu, hr, hmem, hix⟩ :=
    engineTurn_of_breached (hl.status ▸ hb) (hl.cur.trans hc) (hl.breaches c hb hc htouch)
  refine ⟨u, hu, hr.idle.1, hr.idle.2, ?_⟩
  rw [hmem, hix]
  exact ⟨fun b => havoc_read_outside hl.canonical, fun b => havoc_read_inside hl.canonical⟩

end Sys2Proof.Machine
end
